-- ==== Sys2Proof/Word.lean ====
section
/-! DEFINITION. The word types of NCU-64D128 (00_scope.md R6, R7). -/

namespace Sys2Proof

/-- A byte of the text buffer (10_state.md R30). -/
abbrev Byte := BitVec 8

/-- The 64-bit pattern of an integer register (10_state.md R21). -/
abbrev Word := BitVec 64

/-- A word of the host data bus (00_scope.md R6), also a command word (30_encoding.md R90). -/
abbrev BusWord := BitVec 32

/-- The 128-bit value of a register pair (10_state.md R24). -/
abbrev Quad := BitVec 128

/-- A 4-bit register number (30_encoding.md R92). -/
abbrev RegNo := BitVec 4

end Sys2Proof
end

