-- ==== Sys2Proof/Syntax.lean ====
section
/-! DEFINITION. The commands of 30_encoding.md R96, one constructor per row of spec/opcode_table.json, with the fields
each row's format uses (R97), and the two pseudo-instructions of R101. -/

namespace Sys2Proof

/-- A command. A pair is named by its even register (30_encoding.md R92; checked in WellFormed). -/
inductive Instr where
  | add    (rd rs1 rs2 : RegNo)
  | sub    (rd rs1 rs2 : RegNo)
  | mul    (rd rs1 rs2 : RegNo)
  | div    (rd rs1 rs2 : RegNo)
  | mod    (rd rs1 rs2 : RegNo)
  | neg    (rd rs1 : RegNo)
  | mulwu  (rd rs1 rs2 : RegNo)
  | divq9  (rd rs1 : RegNo)
  | shl    (rd rs1 rs2 : RegNo)
  | shr    (rd rs1 rs2 : RegNo)
  | shru   (rd rs1 rs2 : RegNo)
  | shli   (rd rs1 : RegNo) (imm6 : BitVec 6)
  | shri   (rd rs1 : RegNo) (imm6 : BitVec 6)
  | shrui  (rd rs1 : RegNo) (imm6 : BitVec 6)
  | cmp    (rd rs1 rs2 : RegNo)
  | cmpu   (rd rs1 rs2 : RegNo)
  | eq     (rd rs1 rs2 : RegNo)
  | cvtf   (rd rs1 : RegNo) (uf : Bool)
  | iparse (rd : RegNo) (imm6 : BitVec 6) (uf : Bool)
  | ifmt   (rs1 : RegNo) (imm6 : BitVec 6)
  | dparse  (rd : RegNo)
  | dparser (rd : RegNo)
  | dfmt   (rs1 : RegNo)
deriving DecidableEq, Repr

/-- `MOV xd, xs` (30_encoding.md R101). -/
def Instr.mov (rd rs : RegNo) : Instr := .shli rd rs 0

/-- `CLR xd` (30_encoding.md R101). -/
def Instr.clr (rd : RegNo) : Instr := .sub rd rd rd

end Sys2Proof
end

