-- ==== Sys2Proof/WellFormed.lean ====
section
/-! DEFINITION. Which commands have a command word: every pair field is even (30_encoding.md R92, R95). -/

namespace Sys2Proof

/-- The register number names a pair (10_state.md R24). -/
def evenReg (r : RegNo) : Bool := r.getLsbD 0 == false

/-- The command is spelled by some command word (30_encoding.md R95, R97). -/
def Instr.wellFormed : Instr → Bool
  | .add _ _ _ => true
  | .sub _ _ _ => true
  | .mul _ _ _ => true
  | .div _ _ _ => true
  | .mod _ _ _ => true
  | .neg _ _ => true
  | .mulwu rd _ _ => evenReg rd
  | .divq9 _ rs1 => evenReg rs1
  | .shl _ _ _ => true
  | .shr _ _ _ => true
  | .shru _ _ _ => true
  | .shli _ _ _ => true
  | .shri _ _ _ => true
  | .shrui _ _ _ => true
  | .cmp _ _ _ => true
  | .cmpu _ _ _ => true
  | .eq _ _ _ => true
  | .cvtf _ _ _ => true
  | .iparse _ _ _ => true
  | .ifmt _ _ => true
  | .dparse rd => evenReg rd
  | .dparser rd => evenReg rd
  | .dfmt rs1 => evenReg rs1

end Sys2Proof
end

