-- ==== Sys2Proof/Decode.lean ====
section
/-! DEFINITION. Decoding and encoding of the 32-bit command word (30_encoding.md R90 to R99). -/

namespace Sys2Proof

/-- Why a word spells no command (30_encoding.md R95, 60_exceptions.md R323). -/
inductive DecodeError where
  /-- An opcode that R96 does not assign (R99). -/
  | unassignedOpcode (opc : BitVec 8)
  /-- An assigned opcode with a masked bit that differs from the match: a nonzero unused field, a nonzero bit of
  [31:27], or an odd pair register (R95). -/
  | maskedBitDiffers (mask : BusWord)
deriving DecidableEq, Repr

/-- What decoding a word answers. -/
inductive Decoded where
  | command (i : Instr)
  | rejected (e : DecodeError)
deriving DecidableEq, Repr

/-- OPC, w[7:0] (30_encoding.md R91). -/
def fieldOpc (w : BusWord) : BitVec 8 := w.extractLsb' 0 8
/-- RD, w[11:8] (30_encoding.md R91). -/
def fieldRd (w : BusWord) : RegNo := w.extractLsb' 8 4
/-- RS1, w[15:12] (30_encoding.md R91). -/
def fieldRs1 (w : BusWord) : RegNo := w.extractLsb' 12 4
/-- RS2, w[19:16] (30_encoding.md R91). -/
def fieldRs2 (w : BusWord) : RegNo := w.extractLsb' 16 4
/-- IMM6, w[25:20] (30_encoding.md R91, R93). -/
def fieldImm6 (w : BusWord) : BitVec 6 := w.extractLsb' 20 6
/-- UF, w[26] (30_encoding.md R91, R94). -/
def fieldUf (w : BusWord) : Bool := w.getLsbD 26

/-- A row of the opcode map (30_encoding.md R96): the opcode, the mask, and the command the fields spell. The match of a
row is its opcode with every other bit 0. -/
structure OpcodeRow where
  opc : BitVec 8
  mask : BusWord
  command : BusWord → Instr

/-- The format R3 (30_encoding.md R97). -/
def formatR3 (c : RegNo → RegNo → RegNo → Instr) (w : BusWord) : Instr := c (fieldRd w) (fieldRs1 w) (fieldRs2 w)
/-- The format RI (30_encoding.md R97). -/
def formatRI (c : RegNo → RegNo → BitVec 6 → Instr) (w : BusWord) : Instr := c (fieldRd w) (fieldRs1 w) (fieldImm6 w)

/-- The opcode map of 30_encoding.md R96, in its order. -/
def opcodeRows : List OpcodeRow :=
  [⟨0x01#8, 0xFFF000FF#32, formatR3 .add⟩,
   ⟨0x02#8, 0xFFF000FF#32, formatR3 .sub⟩,
   ⟨0x03#8, 0xFFF000FF#32, formatR3 .mul⟩,
   ⟨0x04#8, 0xFFF000FF#32, formatR3 .div⟩,
   ⟨0x05#8, 0xFFF000FF#32, formatR3 .mod⟩,
   ⟨0x06#8, 0xFFFF00FF#32, fun w => .neg (fieldRd w) (fieldRs1 w)⟩,
   ⟨0x08#8, 0xFFF001FF#32, formatR3 .mulwu⟩,
   ⟨0x09#8, 0xFFFF10FF#32, fun w => .divq9 (fieldRd w) (fieldRs1 w)⟩,
   ⟨0x10#8, 0xFFF000FF#32, formatR3 .shl⟩,
   ⟨0x11#8, 0xFFF000FF#32, formatR3 .shr⟩,
   ⟨0x12#8, 0xFFF000FF#32, formatR3 .shru⟩,
   ⟨0x14#8, 0xFC0F00FF#32, formatRI .shli⟩,
   ⟨0x15#8, 0xFC0F00FF#32, formatRI .shri⟩,
   ⟨0x16#8, 0xFC0F00FF#32, formatRI .shrui⟩,
   ⟨0x18#8, 0xFFF000FF#32, formatR3 .cmp⟩,
   ⟨0x19#8, 0xFFF000FF#32, formatR3 .cmpu⟩,
   ⟨0x1A#8, 0xFFF000FF#32, formatR3 .eq⟩,
   ⟨0x20#8, 0xFBFF00FF#32, fun w => .cvtf (fieldRd w) (fieldRs1 w) (fieldUf w)⟩,
   ⟨0x21#8, 0xF80FF0FF#32, fun w => .iparse (fieldRd w) (fieldImm6 w) (fieldUf w)⟩,
   ⟨0x22#8, 0xFC0F0FFF#32, fun w => .ifmt (fieldRs1 w) (fieldImm6 w)⟩,
   ⟨0x28#8, 0xFFFFF1FF#32, fun w => .dparse (fieldRd w)⟩,
   ⟨0x29#8, 0xFFFFF1FF#32, fun w => .dparser (fieldRd w)⟩,
   ⟨0x2A#8, 0xFFFF1FFF#32, fun w => .dfmt (fieldRs1 w)⟩]

/-- The match of a row (30_encoding.md R96). -/
def OpcodeRow.matchWord (r : OpcodeRow) : BusWord := r.opc.setWidth 32

/-- The row an opcode selects (30_encoding.md R96: the match opcodes differ, so there is at most one). -/
def rowOf (opc : BitVec 8) : Option OpcodeRow := opcodeRows.find? (fun r => r.opc == opc)

/-- Decode a command word (30_encoding.md R95, R96): it is the command of a row exactly when `w & mask = match`. -/
def decode (w : BusWord) : Decoded :=
  match rowOf (fieldOpc w) with
  | none => .rejected (.unassignedOpcode (fieldOpc w))
  | some r => if w &&& r.mask = r.matchWord then .command (r.command w) else .rejected (.maskedBitDiffers r.mask)

/-- The word with these fields and bits [31:27] zero (30_encoding.md R91, R103). -/
def assemble (opc : BitVec 8) (rd rs1 rs2 : RegNo) (imm6 : BitVec 6) (uf : Bool) : BusWord :=
  0#5 ++ BitVec.ofBool uf ++ imm6 ++ rs2 ++ rs1 ++ rd ++ opc

/-- The command word of a well-formed command (30_encoding.md R96, R97). -/
def encode : Instr → BusWord
  | .add rd rs1 rs2 => assemble 0x01#8 rd rs1 rs2 0 false
  | .sub rd rs1 rs2 => assemble 0x02#8 rd rs1 rs2 0 false
  | .mul rd rs1 rs2 => assemble 0x03#8 rd rs1 rs2 0 false
  | .div rd rs1 rs2 => assemble 0x04#8 rd rs1 rs2 0 false
  | .mod rd rs1 rs2 => assemble 0x05#8 rd rs1 rs2 0 false
  | .neg rd rs1 => assemble 0x06#8 rd rs1 0 0 false
  | .mulwu rd rs1 rs2 => assemble 0x08#8 rd rs1 rs2 0 false
  | .divq9 rd rs1 => assemble 0x09#8 rd rs1 0 0 false
  | .shl rd rs1 rs2 => assemble 0x10#8 rd rs1 rs2 0 false
  | .shr rd rs1 rs2 => assemble 0x11#8 rd rs1 rs2 0 false
  | .shru rd rs1 rs2 => assemble 0x12#8 rd rs1 rs2 0 false
  | .shli rd rs1 imm6 => assemble 0x14#8 rd rs1 0 imm6 false
  | .shri rd rs1 imm6 => assemble 0x15#8 rd rs1 0 imm6 false
  | .shrui rd rs1 imm6 => assemble 0x16#8 rd rs1 0 imm6 false
  | .cmp rd rs1 rs2 => assemble 0x18#8 rd rs1 rs2 0 false
  | .cmpu rd rs1 rs2 => assemble 0x19#8 rd rs1 rs2 0 false
  | .eq rd rs1 rs2 => assemble 0x1A#8 rd rs1 rs2 0 false
  | .cvtf rd rs1 uf => assemble 0x20#8 rd rs1 0 0 uf
  | .iparse rd imm6 uf => assemble 0x21#8 rd 0 0 imm6 uf
  | .ifmt rs1 imm6 => assemble 0x22#8 0 rs1 0 imm6 false
  | .dparse rd => assemble 0x28#8 rd 0 0 0 false
  | .dparser rd => assemble 0x29#8 rd 0 0 0 false
  | .dfmt rs1 => assemble 0x2A#8 0 rs1 0 0 false

/-- The command word of which `w` gives the low `nbits` bits, the others 0. -/
def tableWord (nbits w : Nat) : BusWord := BitVec.ofNat 32 (w % 2 ^ nbits)

/-- The instruction the decoder reads from an instruction whose bits are `w`, numbered as the opcode table numbers them. -/
def decodeTableWord (nbits w : Nat) : Option Instr :=
  match decode (tableWord nbits w) with
  | .command i => some i
  | .rejected _ => none

end Sys2Proof
end

