-- ==== Sys2Proof/Config.lean ====
section
/-! DEFINITION. What an implementation or the platform fixes: the fixed parameters of 00_scope.md R6 and the OPEN ones.
An OPEN parameter is an `opaque` constant: nothing can be proved about its value. LATENCY has no constant here: it is the
number of events the schedule places before a command's completion (log 2). -/

namespace Sys2Proof

/-- TB_SIZE (00_scope.md R6). -/
def Config.tbSize : Nat := 8192

/-- The size of the window in bytes (20_memory.md R60). -/
def Config.windowSize : Nat := 0x4000

/-- The ID register's word (10_state.md R41). -/
def Config.idWord : BusWord := 0x4E430100#32

/-- TB_RESET (00_scope.md R6, K1): byte `k` of the text buffer after the reset numbered `epoch`, a free value, drawn
anew at each reset. DESIGN CHOICE, log 3. -/
opaque Config.tbReset : (epoch k : Nat) → Byte

/-- The n-th read value the spec leaves open (K2, K3), a free value. DESIGN CHOICE, log 4 and log 5. -/
opaque Config.anyRead : (n : Nat) → BusWord

/-- NCU_BASE / 0x4000 (20_memory.md R61, K6), a free value. DESIGN CHOICE, log 7. -/
opaque Config.ncuIndex : Nat

/-- NCU_BASE, a multiple of 0x4000 (20_memory.md R61). -/
def Config.ncuBase : Nat := 0x4000 * Config.ncuIndex

end Sys2Proof
end

