-- ==== Sys2Proof/Machine/State.lean ====
section
/-! DEFINITION. The state of the unit (10_state.md), the events that host and platform send it, and its value after reset
(10_state.md R52). -/

namespace Sys2Proof.Machine

/-- An integer register: the 64-bit pattern and the U tag, true = unsigned (10_state.md R21). -/
structure Reg where
  v : Word
  u : Bool
deriving DecidableEq, Repr

/-- The cause of a completion (60_exceptions.md R321); the reserved codes 8..15 do not exist (K9). -/
inductive Cause where
  | none
  | illegal
  | divByZero
  | format
  | radix
  | overflow
  | inexact
  | underflow
deriving DecidableEq, Repr

/-- CTRL's two fields (10_state.md R42). -/
structure Ctrl where
  ieDone : Bool
  ieErr : Bool
deriving DecidableEq, Repr

/-- STATUS's fields (10_state.md R43). -/
structure Status where
  busy : Bool
  done : Bool
  err : Bool
  coll : Bool
  cause : Cause
deriving DecidableEq, Repr

/-- The written bytes of the text buffer: pairs (k, TB[k]) with k strictly rising. An index that is not listed has not been
written since reset and reads as the reset draw (K1, log 3). -/
abbrev Memory := List Host.Cell

/-- The width of a host access: 1, 2 or 4 bytes (20_memory.md R62). -/
inductive Width where
  | w8
  | w16
  | w32
deriving DecidableEq, Repr

/-- The value a host access moves, at its width (20_memory.md R62). -/
inductive BusData where
  | b8 (b : BitVec 8)
  | b16 (h : BitVec 16)
  | b32 (w : BitVec 32)
deriving DecidableEq, Repr

/-- The unit's response to a host access (20_memory.md R62): OKAY, with data for a read, or BUS_ERROR; the data of a
BUS_ERROR read is any value (R65). -/
inductive Response where
  | okay
  | data (d : BusData)
  | busError (d : Option BusData)
deriving DecidableEq, Repr

/-- What happens next at the unit: a host access at a window offset (20_memory.md R62), the end of the busy period
(70_reset_and_hazards.md R365 step 3), that end in one step with a host write to STATUS (10_state.md R44), or a platform
reset (70_reset_and_hazards.md R360). -/
inductive Event where
  | read (off : Nat) (width : Width)
  | write (off : Nat) (data : BusData)
  | complete
  | completeWithStatusWrite (w : BusWord)
  | reset
deriving DecidableEq, Repr

/-- The state of the unit, and the model's own fields: the schedule of events to come (log 1), the last bus response,
the number of resets so far (log 3) and the number of open read values drawn so far (log 4). -/
structure State where
  regs : Vector Reg 16
  tb : Memory
  tlen : BitVec 14
  ctrl : Ctrl
  status : Status
  cmd : BusWord
  env : List Event
  response : Option Response
  epoch : Nat
  draws : Nat
deriving DecidableEq, Repr

/-- What stops the machine. -/
inductive Fault where
  /-- A scheduled host access at an offset outside the 16 KiB window, which the unit does not decode (20_memory.md R61,
  10_state.md R47). Raised by the host access operations of Machine/Bus.lean. Safe: the model stops where the spec says
  nothing (log 6). -/
  | outsideWindow (off : Nat)
deriving DecidableEq, Repr

/-- What the model does not give a meaning. -/
inductive Refusal where
  /-- The named command has no meaning yet; raised by exec's arms alone. Safe. No arm raises it. -/
  | notModelled (mnemonic : String)
deriving DecidableEq, Repr

/-- The register {0, 0} (10_state.md R52). -/
def Reg.zero : Reg := ⟨0#64, false⟩

/-- The machine right after reset (10_state.md R52): registers {0, 0}, TLEN, CTRL, STATUS and CMD zero, no byte of TB
written, no command in flight. The model's own fields: log 8. -/
def State.reset : State where
  regs := Vector.replicate 16 Reg.zero
  tb := []
  tlen := 0#14
  ctrl := ⟨false, false⟩
  status := ⟨false, false, false, false, .none⟩
  cmd := 0#32
  env := []
  response := .none
  epoch := 0
  draws := 0

end Sys2Proof.Machine
end

