-- ==== Sys2Proof/Machine/Flags.lean ====
section
/-! DEFINITION. The control and status flags: STATUS and CTRL as words, the clearing and setting of STATUS bits, and the
interrupt line (10_state.md R42 to R44, 60_exceptions.md R321, R331). No command writes an arithmetic flag (10_state.md R27). -/

namespace Sys2Proof.Machine

/-- The cause codes of 60_exceptions.md R321. -/
def Cause.code : Cause → BitVec 4
  | .none => 0#4
  | .illegal => 1#4
  | .divByZero => 2#4
  | .format => 3#4
  | .radix => 4#4
  | .overflow => 5#4
  | .inexact => 6#4
  | .underflow => 7#4

/-- CTRL as a word: IE_DONE in bit 0, IE_ERR in bit 1, the rest 0 (10_state.md R42). -/
def Ctrl.word (c : Ctrl) : BusWord := 0#30 ++ BitVec.ofBool c.ieErr ++ BitVec.ofBool c.ieDone

/-- What a host write of `w` leaves in CTRL (10_state.md R42). -/
def Ctrl.ofWord (w : BusWord) : Ctrl := ⟨w.getLsbD 0, w.getLsbD 1⟩

/-- STATUS as a word: BUSY, DONE, ERR, COLL in bits 0 to 3, CAUSE in [11:8], the rest 0 (10_state.md R43). -/
def Status.word (t : Status) : BusWord :=
  0#20 ++ t.cause.code ++ 0#4 ++ BitVec.ofBool t.coll ++ BitVec.ofBool t.err ++ BitVec.ofBool t.done ++ BitVec.ofBool t.busy

/-- A host write of `w` to STATUS clears DONE, ERR and COLL where `w` has a 1 (10_state.md R44). -/
def Status.clear (t : Status) (w : BusWord) : Status :=
  { t with done := t.done && !w.getLsbD 1, err := t.err && !w.getLsbD 2, coll := t.coll && !w.getLsbD 3 }

/-- Acceptance of a command: BUSY <- 1, DONE <- 0 (10_state.md R45). -/
def Status.accept (t : Status) : Status := { t with busy := true, done := false }

/-- A dropped host write sets COLL (20_memory.md R73). -/
def Status.collide (t : Status) : Status := { t with coll := true }

/-- Completion with a cause: CAUSE <- cause, DONE <- 1, ERR <- ERR or (cause ≠ NONE), BUSY <- 0
(70_reset_and_hazards.md R365). -/
def Status.finish (t : Status) (c : Cause) : Status :=
  { t with busy := false, done := true, err := t.err || c != .none, cause := c }

/-- The interrupt output (60_exceptions.md R331). -/
def State.irq (s : State) : Bool := (s.ctrl.ieDone && s.status.done) || (s.ctrl.ieErr && s.status.err)

end Sys2Proof.Machine
end

