-- ==== Sys2Proof/Machine/Ops.lean ====
section
/-! DEFINITION. The named operations over registers, text buffer and STATUS that the meanings are made of, the completion
of a command with success or with a cause (the unit's one kind of exception, 60_exceptions.md R320, R322), and the
acceptance of a command word. There is no trap return (60_exceptions.md R334). -/

namespace Sys2Proof.Machine

/-! ### Registers (10_state.md R21, R24) -/

/-- `x[r]` (00_scope.md R9). -/
def State.x (s : State) (r : RegNo) : Reg := s.regs[r.toNat]'r.isLt

/-- `x[r] <- a` (00_scope.md R9). -/
def State.setX (s : State) (r : RegNo) (a : Reg) : State := { s with regs := s.regs.set r.toNat a r.isLt }

/-- The register of the high half of the pair named `r` (10_state.md R24). -/
def highReg (r : RegNo) : RegNo := r + 1#4

/-- `pair(r)`: the high half is the next register, the low half the named one (00_scope.md R9, 10_state.md R24). -/
def State.pair (s : State) (r : RegNo) : Quad := (s.x (highReg r)).v ++ (s.x r).v

/-- Write a pair with tag 1 on both halves, the low half first (41_wide.md R160, R161, 45_decimal_parse.md R260). -/
def State.setPair (s : State) (r : RegNo) (q : Quad) : State :=
  (s.setX r ⟨q.extractLsb' 0 64, true⟩).setX (highReg r) ⟨q.extractLsb' 64 64, true⟩

/-! ### The text buffer (10_state.md R30 to R32) -/

/-- The byte written at index `k`, none when nothing has written it since reset (log 3). -/
def Memory.read : Memory → Nat → Option Byte
  | [], _ => none
  | (a, b) :: m, k => if a = k then some b else Memory.read m k

/-- Write a byte, keeping the indices strictly rising. -/
def Memory.write : Memory → Nat → Byte → Memory
  | [], k, b => [(k, b)]
  | (a, c) :: m, k, b =>
    if k < a then (k, b) :: (a, c) :: m
    else if k = a then (k, b) :: m
    else (a, c) :: Memory.write m k b

/-- Write bytes at rising indices from `k`. -/
def Memory.writeAll : Memory → Nat → List Byte → Memory
  | m, _, [] => m
  | m, k, b :: bs => Memory.writeAll (Memory.write m k b) (k + 1) bs

/-- The indices are at least `lo`, below TB_SIZE and strictly rising. -/
def Memory.wfFrom : Nat → Memory → Bool
  | _, [] => true
  | lo, (a, _) :: m => decide (lo ≤ a) && decide (a < Config.tbSize) && Memory.wfFrom (a + 1) m

/-- The canonical form: strictly rising indices below TB_SIZE, each written byte listed once (log 3). -/
def Memory.wf (m : Memory) : Bool := Memory.wfFrom 0 m

/-- `TB[k]`: the byte last written, or the reset draw where nothing was written since reset (00_scope.md R9, K1). -/
def State.tbByte (s : State) (k : Nat) : Byte :=
  match Memory.read s.tb k with
  | some b => b
  | none => Config.tbReset s.epoch k

/-- The text of a command, `TB[0 .. TLEN-1]` (10_state.md R31). -/
def State.text (s : State) : List Byte := (List.range s.tlen.toNat).map s.tbByte

/-- Write an output string from `TB[0]` and its length to TLEN (10_state.md R32). -/
def State.setText (s : State) (out : List Byte) : State :=
  { s with tb := Memory.writeAll s.tb 0 out, tlen := BitVec.ofNat 14 out.length }

/-! ### Completion and acceptance (70_reset_and_hazards.md R365) -/

/-- The completion's update of STATUS, with the cause. -/
def State.finish (s : State) (c : Cause) : State := { s with status := s.status.finish c }

/-- A command ends with success: the results already written into `s`, and the completion's STATUS (60_exceptions.md R320). -/
def succeed (s : State) : Host.Outcome State Fault Refusal := .next (s.finish .none)

/-- `raise c`: the command ends with the cause and nothing else is written (60_exceptions.md R320, R322). -/
def raise (c : Cause) (s : State) : Host.Outcome State Fault Refusal := .next (s.finish c)

/-- Acceptance of a command word: CMD <- w, BUSY <- 1, DONE <- 0 (10_state.md R45). -/
def State.acceptCommand (s : State) (w : BusWord) : State := { s with cmd := w, status := s.status.accept }

/-- The command word the unit decodes at completion: the accepted word, held in CMD (70_reset_and_hazards.md R365). -/
def State.fetch (s : State) : BusWord := s.cmd

/-- Platform reset (70_reset_and_hazards.md R361, R362): every piece of state as after reset, the text buffer drawn anew,
the command in flight abandoned. The events still to come stay (log 18). -/
def State.platformReset (s : State) : State :=
  { State.reset with env := s.env, epoch := s.epoch + 1, draws := s.draws }

end Sys2Proof.Machine
end

