-- ==== Sys2Proof/Machine/Operands.lean ====
section
/-! DEFINITION. How operands are read: a register as a number (00_scope.md R8), the shift amount (42_shift.md R180), the
radix field (44_int_convert.md R224), characters and digits (00_scope.md R11, 44_int_convert.md R222, R226), and the binary64
pattern of CVTF (44_int_convert.md R221). -/

namespace Sys2Proof.Machine

/-! ### Numbers (00_scope.md R8) -/

/-- `uint(v)`. -/
def uint (v : Word) : Nat := v.toNat

/-- `sint(v)`. -/
def sint (v : Word) : Int := v.toInt

/-- `val(r)`: the pattern read as its tag says. -/
def Reg.val (a : Reg) : Int := if a.u then (uint a.v : Int) else sint a.v

/-- `wrap64(n)`, n mod 2^64. -/
def wrap64 (n : Int) : Word := BitVec.ofInt 64 n

/-- The shift amount of the register forms, `b.v[5:0]` (42_shift.md R180). -/
def shiftAmount (b : Reg) : Nat := (b.v.extractLsb' 0 6).toNat

/-! ### Characters (00_scope.md R11) -/

/-- The ASCII code of a character. -/
def ascii (c : Char) : Byte := BitVec.ofNat 8 c.toNat

/-- A string as bytes. -/
def asciiText (cs : List Char) : List Byte := cs.map ascii

/-- "-" -/
def chMinus : Byte := 0x2D#8
/-- "+" -/
def chPlus : Byte := 0x2B#8
/-- "." -/
def chPoint : Byte := 0x2E#8
/-- "E" -/
def chE : Byte := 0x45#8
/-- "0" -/
def chZero : Byte := 0x30#8

/-- The text "Infinity". -/
def infinityText : List Byte := asciiText ['I', 'n', 'f', 'i', 'n', 'i', 't', 'y']
/-- The text "NaN". -/
def nanText : List Byte := asciiText ['N', 'a', 'N']

/-! ### Radix and digits (44_int_convert.md R222, R224, R226) -/

/-- The radix a field selects: 0 selects 10, 2..36 itself, 1 and 37..63 none (44_int_convert.md R224). -/
def radixOf (imm6 : BitVec 6) : Option Nat :=
  if imm6.toNat = 0 then some 10
  else if 2 ≤ imm6.toNat ∧ imm6.toNat ≤ 36 then some imm6.toNat
  else none

/-- `dv(b)`: "0".."9", "a".."z" and "A".."Z" have the digit values 0..9, 10..35 and 10..35 (44_int_convert.md R222). -/
def digitValue (b : Byte) : Option Nat :=
  if 0x30 ≤ b.toNat ∧ b.toNat ≤ 0x39 then some (b.toNat - 0x30)
  else if 0x61 ≤ b.toNat ∧ b.toNat ≤ 0x7A then some (b.toNat - 0x61 + 10)
  else if 0x41 ≤ b.toNat ∧ b.toNat ≤ 0x5A then some (b.toNat - 0x41 + 10)
  else none

/-- The value of a byte that is a digit of radix `r` (44_int_convert.md R222). -/
def digitOf (r : Nat) (b : Byte) : Option Nat :=
  match digitValue b with
  | some d => if d < r then some d else none
  | none => none

/-- The digit values of a text, if every byte is a digit of radix `r`. -/
def digitsOf (r : Nat) : List Byte → Option (List Nat)
  | [] => some []
  | b :: bs =>
    match digitOf r b, digitsOf r bs with
    | some d, some ds => some (d :: ds)
    | _, _ => none

/-- The number with the digit values `ds` in radix `r`, most significant first (00_scope.md R12, 44_int_convert.md R222). -/
def numeral (r : Nat) (ds : List Nat) : Nat := ds.foldl (fun n d => n * r + d) 0

/-- The byte of a digit: "0".."9" below 10, "a".."z" above (44_int_convert.md R226). -/
def digitChar (d : Nat) : Byte := if d < 10 then BitVec.ofNat 8 (0x30 + d) else BitVec.ofNat 8 (0x61 + (d - 10))

/-- The digit values of `n` in radix `r`, put before `acc`; `fuel` bounds their number. -/
def digitValuesAux (r : Nat) : (fuel n : Nat) → List Nat → List Nat
  | 0, _, acc => acc
  | fuel + 1, n, acc => if n < r then n :: acc else digitValuesAux r fuel (n / r) (n % r :: acc)

/-- The digit values of `n` in radix `r ≥ 2`, most significant first, [0] for 0 (44_int_convert.md R226). The fuel, one more
than the binary logarithm of `n`, is enough in every radix. -/
def digitValues (r n : Nat) : List Nat := digitValuesAux r (n.log2 + 1) n []

/-- `digits_r(n)` (44_int_convert.md R226); with r = 10 it is `digits10(n)` (00_scope.md R12). -/
def digitText (r n : Nat) : List Byte := (digitValues r n).map digitChar

/-! ### Binary64 (44_int_convert.md R221) -/

/-- The value of a binary64 pattern: NaN, an infinity, or (-1)^neg * m * 2^e. -/
inductive Binary64 where
  | nan
  | infinite (neg : Bool)
  | finite (neg : Bool) (m : Nat) (e : Int)
deriving DecidableEq, Repr

/-- The value of a pattern (44_int_convert.md R221). -/
def binary64Value (w : Word) : Binary64 :=
  let neg := w.getLsbD 63
  let be := (w.extractLsb' 52 11).toNat
  let f := (w.extractLsb' 0 52).toNat
  if be = 0x7FF then (if f ≠ 0 then .nan else .infinite neg)
  else if be = 0 then .finite neg f (-1074)
  else .finite neg (2 ^ 52 + f) ((be : Int) - 1075)

/-- `floor(m * 2^e)`. -/
def floorScaled (m : Nat) (e : Int) : Nat := if 0 ≤ e then m <<< e.toNat else m >>> (-e).toNat

end Sys2Proof.Machine
end

