-- ==== Sys2Proof/Machine/Bus.lean ====
section
/-! DEFINITION. Host accesses to the window (20_memory.md R60 to R73; the registers 10_state.md R40 to R47). -/

namespace Sys2Proof.Machine

/-- The window offset of a host bus address, none where the unit does not decode the address (20_memory.md R61). -/
def windowOffset (addr : Nat) : Option Nat :=
  if Config.ncuBase ≤ addr ∧ addr < Config.ncuBase + Config.windowSize then some (addr - Config.ncuBase) else none

/-- The event of a host read at a bus address, none where the unit does not decode the address (20_memory.md R61). -/
def busRead (addr : Nat) (width : Width) : Option Event := (windowOffset addr).map (fun off => .read off width)

/-- The event of a host write at a bus address, none where the unit does not decode the address (20_memory.md R61). -/
def busWrite (addr : Nat) (data : BusData) : Option Event := (windowOffset addr).map (fun off => .write off data)

/-- What stands at a word of the register region (20_memory.md R69, 10_state.md R40). -/
inductive RegWord where
  | id
  | ctrl
  | status
  | cmd
  | tlen
  | xLo (r : RegNo)
  | xHi (r : RegNo)
  | xFlags (r : RegNo)
  | reserved
deriving DecidableEq, Repr

/-- The first offset of the text buffer (20_memory.md R69). -/
def tbBase : Nat := 0x2000

/-- The register number of a register window offset (10_state.md R46). -/
def slotReg (off : Nat) : RegNo := BitVec.ofNat 4 ((off - 0x100) / 16)

/-- The map of the register region, 0x0000 to 0x1FFF, at aligned word offsets (20_memory.md R69, 10_state.md R40, R47). -/
def regWordAt (off : Nat) : RegWord :=
  if off = 0x000 then .id
  else if off = 0x004 then .ctrl
  else if off = 0x008 then .status
  else if off = 0x00C then .cmd
  else if off = 0x010 then .tlen
  else if 0x100 ≤ off ∧ off < 0x200 then
    if off % 16 = 0 then .xLo (slotReg off)
    else if off % 16 = 4 then .xHi (slotReg off)
    else if off % 16 = 8 then .xFlags (slotReg off)
    else .reserved
  else .reserved

/-- The number of bytes of a width (20_memory.md R62). -/
def Width.bytes : Width → Nat
  | .w8 => 1
  | .w16 => 2
  | .w32 => 4

/-- The width of a value. -/
def BusData.width : BusData → Width
  | .b8 _ => .w8
  | .b16 _ => .w16
  | .b32 _ => .w32

/-- The region takes the width and the offset is aligned (20_memory.md R65). -/
def accessOk (off : Nat) (width : Width) : Bool :=
  if off < tbBase then decide (width = .w32) && decide (off % 4 = 0) else decide (off % width.bytes = 0)

/-- A read here returns any value while BUSY = 1 (20_memory.md R73). -/
def busyRead : RegWord → Bool
  | .tlen => true
  | .xLo _ => true
  | .xHi _ => true
  | .xFlags _ => true
  | .id => false
  | .ctrl => false
  | .status => false
  | .cmd => false
  | .reserved => false

/-- A write here is dropped while BUSY = 1 (20_memory.md R73). -/
def busyDrop : RegWord → Bool
  | .cmd => true
  | .tlen => true
  | .xLo _ => true
  | .xHi _ => true
  | .xFlags _ => true
  | .id => false
  | .ctrl => false
  | .status => false
  | .reserved => false

/-- A read at this offset returns any value while BUSY = 1 (20_memory.md R73). -/
def busyReadAt (off : Nat) : Bool := if off < tbBase then busyRead (regWordAt off) else true

/-- A write at this offset is dropped while BUSY = 1 (20_memory.md R73). -/
def busyDropAt (off : Nat) : Bool := if off < tbBase then busyDrop (regWordAt off) else true

/-! ### Reads -/

/-- The word a read of the register region returns (10_state.md R31, R40 to R47). -/
def readRegWord (s : State) : RegWord → BusWord
  | .id => Config.idWord
  | .ctrl => s.ctrl.word
  | .status => s.status.word
  | .cmd => s.cmd
  | .tlen => s.tlen.setWidth 32
  | .xLo r => (s.x r).v.extractLsb' 0 32
  | .xHi r => (s.x r).v.extractLsb' 32 32
  | .xFlags r => (BitVec.ofBool (s.x r).u).setWidth 32
  | .reserved => 0#32

/-- The bytes of the text buffer from index `k`, little-endian (20_memory.md R63). -/
def readText (s : State) (k : Nat) : Width → BusData
  | .w8 => .b8 (s.tbByte k)
  | .w16 => .b16 (s.tbByte (k + 1) ++ s.tbByte k)
  | .w32 => .b32 (s.tbByte (k + 3) ++ s.tbByte (k + 2) ++ s.tbByte (k + 1) ++ s.tbByte k)

/-- The data of an accepted read (20_memory.md R69). -/
def readData (s : State) (off : Nat) (width : Width) : BusData :=
  if off < tbBase then .b32 (readRegWord s (regWordAt off)) else readText s (off - tbBase) width

/-- The n-th open read value, at a width (20_memory.md R65, R73; log 4, log 5). -/
def anyData (n : Nat) : Width → BusData
  | .w8 => .b8 ((Config.anyRead n).extractLsb' 0 8)
  | .w16 => .b16 ((Config.anyRead n).extractLsb' 0 16)
  | .w32 => .b32 (Config.anyRead n)

/-- A host read (20_memory.md R62, R65, R68, R73). A read changes nothing but the response, and the count of open values
where its data is one. -/
def hostRead (off : Nat) (width : Width) (s : State) : Host.Outcome State Fault Refusal :=
  if Config.windowSize ≤ off then .fault (.outsideWindow off)
  else if accessOk off width = false then
    .next { s with response := some (.busError (some (anyData s.draws width))), draws := s.draws + 1 }
  else if s.status.busy && busyReadAt off then
    .next { s with response := some (.data (anyData s.draws width)), draws := s.draws + 1 }
  else .next { s with response := some (.data (readData s off width)) }

/-! ### Writes -/

/-- What a host write of `w` to TLEN stores: min(w[13:0], 8192) (10_state.md R31). -/
def tlenOfWord (w : BusWord) : BitVec 14 := BitVec.ofNat 14 (min (w.extractLsb' 0 14).toNat Config.tbSize)

/-- Write a word of the register region while it is not dropped (10_state.md R31, R40 to R47). -/
def writeRegWord (s : State) (w : BusWord) : RegWord → State
  | .id => s
  | .ctrl => { s with ctrl := Ctrl.ofWord w }
  | .status => { s with status := s.status.clear w }
  | .cmd => s.acceptCommand w
  | .tlen => { s with tlen := tlenOfWord w }
  | .xLo r => s.setX r ⟨(s.x r).v.extractLsb' 32 32 ++ w, (s.x r).u⟩
  | .xHi r => s.setX r ⟨w ++ (s.x r).v.extractLsb' 0 32, (s.x r).u⟩
  | .xFlags r => s.setX r ⟨(s.x r).v, w.getLsbD 0⟩
  | .reserved => s

/-- The bytes of a value, the byte of the lowest address first (20_memory.md R63). -/
def BusData.bytes : BusData → List Byte
  | .b8 b => [b]
  | .b16 h => [h.extractLsb' 0 8, h.extractLsb' 8 8]
  | .b32 w => [w.extractLsb' 0 8, w.extractLsb' 8 8, w.extractLsb' 16 8, w.extractLsb' 24 8]

/-- The effect of an accepted write that is not dropped (20_memory.md R68, R69). Only a 32-bit value reaches the register
region (R65). -/
def writeData (s : State) (off : Nat) (d : BusData) : State :=
  if off < tbBase then
    match d with
    | .b32 w => writeRegWord s w (regWordAt off)
    | .b16 _ => s
    | .b8 _ => s
  else { s with tb := Memory.writeAll s.tb (off - tbBase) d.bytes }

/-- A host write (20_memory.md R62, R65, R68, R73). -/
def hostWrite (off : Nat) (d : BusData) (s : State) : Host.Outcome State Fault Refusal :=
  if Config.windowSize ≤ off then .fault (.outsideWindow off)
  else if accessOk off d.width = false then .next { s with response := some (.busError none) }
  else if s.status.busy && busyDropAt off then
    .next { s with status := s.status.collide, response := some .okay }
  else .next { writeData s off d with response := some .okay }

end Sys2Proof.Machine
end

