-- ==== Sys2Proof/Machine/Compare.lean ====
section
/-! DEFINITION. CMP, CMPU, EQ (43_compare.md). The result tag is always 0 (R200). -/

namespace Sys2Proof.Machine

/-- -1 for less, 0 for equal, 1 for greater (R200). -/
def comparison (a b : Int) : Int := if a < b then -1 else if a = b then 0 else 1

/-- CMP: the values, each read with its own tag (R201). -/
def execCmp (rd rs1 rs2 : RegNo) (s : State) : Host.Outcome State Fault Refusal :=
  succeed (s.setX rd ⟨wrap64 (comparison (s.x rs1).val (s.x rs2).val), false⟩)

/-- CMPU: the patterns, unsigned (R202). -/
def execCmpu (rd rs1 rs2 : RegNo) (s : State) : Host.Outcome State Fault Refusal :=
  succeed (s.setX rd ⟨wrap64 (comparison (uint (s.x rs1).v) (uint (s.x rs2).v)), false⟩)

/-- EQ: equal patterns, unless the tags differ and both sign bits are set (R203). -/
def execEq (rd rs1 rs2 : RegNo) (s : State) : Host.Outcome State Fault Refusal :=
  let a := s.x rs1
  let b := s.x rs2
  let e := decide (a.v = b.v) && !(decide (a.u ≠ b.u) && a.v.getLsbD 63 && b.v.getLsbD 63)
  succeed (s.setX rd ⟨if e then 1#64 else 0#64, false⟩)

end Sys2Proof.Machine
end

