-- ==== Sys2Proof/Machine/IntConvert.lean ====
section
/-! DEFINITION. CVTF, IPARSE, IFMT (44_int_convert.md). -/

namespace Sys2Proof.Machine

/-- The integer a binary64 number converts to (R220): NaN gives 0, values outside the range of the result kind clamp to its
ends, others truncate toward zero. A bound of the range is an integer, so a magnitude reaches it exactly when the
magnitude's floor does (log 17). -/
def convertBinary64 (uf : Bool) : Binary64 → Word
  | .nan => 0#64
  | .infinite neg =>
    if uf then (if neg then 0#64 else 0xFFFFFFFFFFFFFFFF#64)
    else (if neg then 0x8000000000000000#64 else 0x7FFFFFFFFFFFFFFF#64)
  | .finite neg m e =>
    let t := floorScaled m e
    if uf then
      if neg then 0#64
      else if 2 ^ 64 ≤ t then 0xFFFFFFFFFFFFFFFF#64
      else wrap64 t
    else
      if neg then (if 2 ^ 63 ≤ t then 0x8000000000000000#64 else wrap64 (-(t : Int)))
      else (if 2 ^ 63 ≤ t then 0x7FFFFFFFFFFFFFFF#64 else wrap64 t)

/-- CVTF (R220). -/
def execCvtf (rd rs1 : RegNo) (uf : Bool) (s : State) : Host.Outcome State Fault Refusal :=
  succeed (s.setX rd ⟨convertBinary64 uf (binary64Value (s.x rs1).v), uf⟩)

/-- What parsing or formatting answers: the result, or the cause it raises. -/
inductive Parsed (α : Type) where
  | value (a : α)
  | fails (c : Cause)
deriving DecidableEq, Repr

/-- The digits of an integer text after its optional "-" (R222). -/
def unsignedPart (t : List Byte) : List Byte :=
  match t with
  | [] => []
  | b :: rest => if b = chMinus then rest else t

/-- The number an integer text spells, the checks in the order of R223: empty text, radix, interior "-", no digits, a byte
that is no digit. -/
def parseInteger (imm6 : BitVec 6) (t : List Byte) : Parsed Int :=
  match t, radixOf imm6 with
  | [], _ => .fails .format
  | _ :: _, none => .fails .radix
  | b :: rest, some r =>
    if rest.contains chMinus then .fails .format
    else if unsignedPart (b :: rest) = [] then .fails .format
    else
      match digitsOf r (unsignedPart (b :: rest)) with
      | none => .fails .format
      | some ds => .value (if b = chMinus then -(numeral r ds : Int) else numeral r ds)

/-- IPARSE (R223). -/
def execIparse (rd : RegNo) (imm6 : BitVec 6) (uf : Bool) (s : State) : Host.Outcome State Fault Refusal :=
  match parseInteger imm6 s.text with
  | .value v => succeed (s.setX rd ⟨wrap64 v, uf⟩)
  | .fails c => raise c s

/-- The text of an integer in radix `r`: "-" for a negative one, then the digits of its magnitude (R225). -/
def integerText (r : Nat) (n : Int) : List Byte := (if n < 0 then [chMinus] else []) ++ digitText r n.natAbs

/-- IFMT (R225). -/
def execIfmt (rs1 : RegNo) (imm6 : BitVec 6) (s : State) : Host.Outcome State Fault Refusal :=
  match radixOf imm6 with
  | none => raise .radix s
  | some r => succeed (s.setText (integerText r (s.x rs1).val))

end Sys2Proof.Machine
end

