-- ==== Sys2Proof/Machine/DecimalParse.lean ====
section
/-! DEFINITION. DPARSE and DPARSER: decimal text to a decimal128 pattern (45_decimal_parse.md). -/

namespace Sys2Proof.Machine

/-! ### Limits of the format (00_scope.md R6) -/

/-- The exponent bias. -/
def decBias : Int := 6176
/-- The least unbiased exponent. -/
def decMinExp : Int := -6176
/-- The greatest unbiased exponent. -/
def decMaxExp : Int := 6111
/-- The coefficient digits, P. -/
def decDigits : Nat := 34
/-- A text of this length or more is rejected. -/
def decTextLimit : Nat := 7000

/-! ### Patterns (R252, R262) -/

/-- `pack(s, q, C)` as the pair's 128 bits `hi : lo` (R262): the sign, q + 6176 in 14 bits, C in 113 bits. -/
def packDecimal (neg : Bool) (q : Int) (c : Nat) : Quad :=
  BitVec.ofBool neg ++ BitVec.ofInt 14 (q + decBias) ++ BitVec.ofNat 113 c

/-- Infinity with a sign (R252). -/
def infinityPattern (neg : Bool) : Quad := BitVec.ofBool neg ++ 0b11110#5 ++ 0#122

/-- The NaN the unit writes (R252). -/
def nanPattern : Quad := 0#1 ++ 0b11111#5 ++ 0#122

/-! ### The text grammar (R254) -/

/-- A text of the grammar: a special form, or sign, digits before the point, digits after it, and the explicit exponent. -/
inductive DecimalText where
  | infinity (neg : Bool)
  | nan
  | numeric (neg : Bool) (intPart fracPart : List Byte) (exp : Int)
deriving DecidableEq, Repr

/-- Take an optional sign off a text: whether it was "-", and the rest. -/
def splitSign (t : List Byte) : Bool × List Byte :=
  match t with
  | [] => (false, [])
  | b :: rest => if b = chMinus then (true, rest) else if b = chPlus then (false, rest) else (false, b :: rest)

/-- A byte "0".."9". -/
def isDecDigit (b : Byte) : Bool := decide (0x30 ≤ b.toNat) && decide (b.toNat ≤ 0x39)

/-- The digit value of a byte "0".."9". -/
def decDigit (b : Byte) : Nat := b.toNat - 0x30

/-- `int(digits)` (00_scope.md R12). -/
def decNumeral (ds : List Byte) : Nat := numeral 10 (ds.map decDigit)

/-- `("." digits)?`: the fraction digits and the rest; none where a "." has no digit after it. -/
def splitFraction (t : List Byte) : Option (List Byte × List Byte) :=
  match t with
  | [] => some ([], [])
  | b :: rest =>
    if b = chPoint then
      if rest.takeWhile isDecDigit = [] then none else some (rest.takeWhile isDecDigit, rest.dropWhile isDecDigit)
    else some ([], b :: rest)

/-- `("E" sign? digits)?` to the end of the text: the explicit exponent, 0 without "E" (R256). -/
def parseExponent (t : List Byte) : Option Int :=
  match t with
  | [] => some 0
  | b :: rest =>
    if b = chE then
      let (neg, ds) := splitSign rest
      if ds = [] then none
      else if ds.all isDecDigit then some (if neg then -(decNumeral ds : Int) else decNumeral ds)
      else none
    else none

/-- The text of the grammar of R254, none where the text does not match it. -/
def parseDecimalText (t : List Byte) : Option DecimalText :=
  let (neg, r) := splitSign t
  if r = infinityText then some (.infinity neg)
  else if r = nanText then some .nan
  else if r.takeWhile isDecDigit = [] then none
  else
    match splitFraction (r.dropWhile isDecDigit) with
    | none => none
    | some (fracPart, r') =>
      match parseExponent r' with
      | none => none
      | some e => some (.numeric neg (r.takeWhile isDecDigit) fracPart e)

/-! ### From digits and exponent to a coefficient (R256 to R261) -/

/-- A coefficient's digit values, most significant first, and its exponent. -/
structure Digits where
  g : List Nat
  q : Int
deriving DecidableEq, Repr

/-- R256: the digits without leading zeros, and the exponent lowered by the digits after the point. -/
def significant (intPart fracPart : List Byte) (e : Int) : Digits :=
  ⟨((intPart ++ fracPart).map decDigit).dropWhile (· == 0), e - fracPart.length⟩

/-- R257: the exponent of a zero, clamped. -/
def clampExp (q : Int) : Int := min (max q decMinExp) decMaxExp

/-- R258: an exponent above the maximum is absorbed by appending zeros, or raises OVERFLOW. -/
def absorbExcess (d : Digits) : Parsed Digits :=
  if decMaxExp < d.q then
    let k := (d.q - decMaxExp).toNat
    if decDigits < min d.g.length decDigits + k then .fails .overflow
    else .value ⟨d.g ++ List.replicate k 0, decMaxExp⟩
  else .value d

/-- R259: how many trailing digits must go. -/
def dropCount (d : Digits) : Nat := max (d.g.length - decDigits) (decMinExp - d.q).toNat

/-- R260's loop, on the digits least significant first: remove `m` of them, each only if it is not the last one left, is
zero, and the exponent is below the maximum. -/
def removeZeros : (rev : List Nat) → (m : Nat) → (q : Int) → Parsed (List Nat × Int)
  | [], m, q => if m = 0 then .value ([], q) else .fails .underflow
  | d :: rev, m, q =>
    if m = 0 then .value (d :: rev, q)
    else if rev = [] then .fails .underflow
    else if d ≠ 0 then .fails .inexact
    else if decMaxExp ≤ q then .fails .overflow
    else removeZeros rev (m - 1) (q + 1)

/-- `RHE(C, m)` for m ≥ 1, and C for m = 0: round half to even (00_scope.md R12). -/
def roundHalfEven (c m : Nat) : Nat :=
  if m = 0 then c
  else
    let k := c / 10 ^ m
    let r := c - k * 10 ^ m
    let h := 5 * 10 ^ (m - 1)
    if h < r ∨ (r = h ∧ k % 2 = 1) then k + 1 else k

/-- `RHE(int(G), m)` of a digit string: when more digits are removed than the string has, the result is 0, which is what
roundHalfEven gives (log 14), and 10^m is not computed. -/
def roundDigits (g : List Nat) (m : Nat) : Nat := if g.length < m then 0 else roundHalfEven (numeral 10 g) m

/-- The numeric result of DPARSE (R260). -/
def strictNumeric (neg : Bool) (d : Digits) : Parsed Quad :=
  if d.g = [] then .value (packDecimal neg (clampExp d.q) 0)
  else
    match absorbExcess d with
    | .fails c => .fails c
    | .value d' =>
      match removeZeros d'.g.reverse (dropCount d') d'.q with
      | .fails c => .fails c
      | .value (rev, q) => .value (packDecimal neg q (numeral 10 rev.reverse))

/-- The numeric result of DPARSER (R261). -/
def roundingNumeric (neg : Bool) (d : Digits) : Parsed Quad :=
  if d.g = [] then .value (packDecimal neg (clampExp d.q) 0)
  else
    match absorbExcess d with
    | .fails c => .fails c
    | .value d' =>
      let m := dropCount d'
      if m = 0 then .value (packDecimal neg d'.q (numeral 10 d'.g))
      else if decMaxExp < d'.q + m then .fails .overflow
      else
        let c := roundDigits d'.g m
        let l := d'.g.length - m
        let q := d'.q + m
        if 1 ≤ l ∧ c = 10 ^ l then
          if q < decMaxExp then .value (packDecimal neg (q + 1) (10 ^ (l - 1)))
          else .value (infinityPattern neg)
        else .value (packDecimal neg q c)

/-- The checks and special forms common to both commands (R255), then the command's own numeric rule. -/
def parseDecimal (numericRule : Bool → Digits → Parsed Quad) (t : List Byte) : Parsed Quad :=
  if decTextLimit ≤ t.length then .fails .format
  else
    match parseDecimalText t with
    | none => .fails .format
    | some (.infinity neg) => .value (infinityPattern neg)
    | some .nan => .value nanPattern
    | some (.numeric neg ip fp e) => numericRule neg (significant ip fp e)

/-- Write a parsed pattern to the pair `rd`, or raise the cause (R260, R261). -/
def finishParse (rd : RegNo) (s : State) : Parsed Quad → Host.Outcome State Fault Refusal
  | .value q => succeed (s.setPair rd q)
  | .fails c => raise c s

/-- DPARSE (R260). -/
def execDparse (rd : RegNo) (s : State) : Host.Outcome State Fault Refusal :=
  finishParse rd s (parseDecimal strictNumeric s.text)

/-- DPARSER (R261). -/
def execDparser (rd : RegNo) (s : State) : Host.Outcome State Fault Refusal :=
  finishParse rd s (parseDecimal roundingNumeric s.text)

end Sys2Proof.Machine
end

