-- ==== Sys2Proof/Machine/DecimalFormat.lean ====
section
/-! DEFINITION. DFMT: a decimal128 pattern to text (46_decimal_format.md; the layouts 45_decimal_parse.md R250 to R253). -/

namespace Sys2Proof.Machine

/-- What a decimal128 pattern stands for: NaN, an infinity, or (-1)^neg * C * 10^q. -/
inductive Decimal where
  | nan
  | infinity (neg : Bool)
  | finite (neg : Bool) (q : Int) (c : Nat)
deriving DecidableEq, Repr

/-- Read a pattern `hi : lo` (46_decimal_format.md R291, 45_decimal_parse.md R250, R251). In the 128 bits, hi[n] is bit 64 + n. -/
def unpackDecimal (p : Quad) : Decimal :=
  let neg := p.getLsbD 127
  let g := p.extractLsb' 122 5
  if g = 0b11111#5 then .nan
  else if g = 0b11110#5 then .infinity neg
  else if g.extractLsb' 3 2 = 0b11#2 then
    .finite neg ((p.extractLsb' 111 14).toNat - decBias) (2 ^ 113 + (p.extractLsb' 0 111).toNat)
  else .finite neg ((p.extractLsb' 113 14).toNat - decBias) (p.extractLsb' 0 113).toNat

/-- "E", the sign and the digits of a nonzero exponent; nothing for 0 (R295, R296). -/
def exponentText (n : Int) : List Byte :=
  if 0 < n then chE :: chPlus :: digitText 10 n.natAbs
  else if n < 0 then chE :: chMinus :: digitText 10 n.natAbs
  else []

/-- Scientific form (R295); with 35 digits, zero at the unbiased exponent (R296). -/
def scientificText (dg : List Byte) (q sci : Int) : List Byte :=
  if dg.length ≤ decDigits then
    dg.take 1 ++ (if 1 < dg.length then chPoint :: dg.drop 1 else []) ++ exponentText sci
  else chZero :: exponentText q

/-- Positional form, for q ≤ 0 (R297). -/
def positionalText (dg : List Byte) (q : Int) : List Byte :=
  let rp := (dg.length : Int) + q
  if q = 0 then dg
  else if 0 < rp then dg.take rp.toNat ++ chPoint :: dg.drop rp.toNat
  else chZero :: chPoint :: List.replicate (-rp).toNat chZero ++ dg

/-- The digits of a finite value in the notation that R294 chooses. -/
def finiteText (q : Int) (c : Nat) : List Byte :=
  let dg := digitText 10 c
  let sci := (dg.length : Int) - 1 + q
  if 34 ≤ sci ∨ sci ≤ -7 ∨ 0 < q then scientificText dg q sci else positionalText dg q

/-- The sign text (R298). -/
def signText (neg : Bool) : List Byte := if neg then [chMinus] else []

/-- The text of a pattern (R290). -/
def decimalText : Decimal → List Byte
  | .nan => nanText
  | .infinity neg => signText neg ++ infinityText
  | .finite neg q c => signText neg ++ finiteText q c

/-- DFMT (R290). -/
def execDfmt (rs1 : RegNo) (s : State) : Host.Outcome State Fault Refusal :=
  succeed (s.setText (decimalText (unpackDecimal (s.pair rs1))))

end Sys2Proof.Machine
end

