-- ==== Sys2Proof/Machine/IntArith.lean ====
section
/-! DEFINITION. ADD, SUB, MUL, DIV, MOD, NEG (40_int_arith.md). Every result has the tag of the first source (R130). -/

namespace Sys2Proof.Machine

/-- The quotient of R134: the dividend's tag selects the mode in which both patterns are read (R140). -/
def quotient (a b : Reg) : Word :=
  if a.u then wrap64 (uint a.v / uint b.v : Nat) else wrap64 ((sint a.v).tdiv (sint b.v))

/-- ADD (R131). -/
def execAdd (rd rs1 rs2 : RegNo) (s : State) : Host.Outcome State Fault Refusal :=
  let a := s.x rs1
  let b := s.x rs2
  succeed (s.setX rd ⟨wrap64 (uint a.v + uint b.v), a.u⟩)

/-- SUB (R132). -/
def execSub (rd rs1 rs2 : RegNo) (s : State) : Host.Outcome State Fault Refusal :=
  let a := s.x rs1
  let b := s.x rs2
  succeed (s.setX rd ⟨wrap64 ((uint a.v : Int) - uint b.v), a.u⟩)

/-- MUL, the low 64 bits (R133). -/
def execMul (rd rs1 rs2 : RegNo) (s : State) : Host.Outcome State Fault Refusal :=
  let a := s.x rs1
  let b := s.x rs2
  succeed (s.setX rd ⟨wrap64 (uint a.v * uint b.v), a.u⟩)

/-- DIV (R134). -/
def execDiv (rd rs1 rs2 : RegNo) (s : State) : Host.Outcome State Fault Refusal :=
  let a := s.x rs1
  let b := s.x rs2
  if b.v = 0#64 then raise .divByZero s
  else succeed (s.setX rd ⟨quotient a b, a.u⟩)

/-- MOD (R135). -/
def execMod (rd rs1 rs2 : RegNo) (s : State) : Host.Outcome State Fault Refusal :=
  let a := s.x rs1
  let b := s.x rs2
  if b.v = 0#64 then raise .divByZero s
  else succeed (s.setX rd ⟨wrap64 ((uint a.v : Int) - uint (quotient a b) * uint b.v), a.u⟩)

/-- NEG (R136). -/
def execNeg (rd rs1 : RegNo) (s : State) : Host.Outcome State Fault Refusal :=
  let a := s.x rs1
  succeed (s.setX rd ⟨wrap64 (0 - (uint a.v : Int)), a.u⟩)

end Sys2Proof.Machine
end

