-- ==== Sys2Proof/Machine/Shift.lean ====
section
/-! DEFINITION. SHL, SHR, SHRU and their immediate forms (42_shift.md). The right shifts are defined on the pattern, whatever
the tag; the result keeps the tag of the source (R180). -/

namespace Sys2Proof.Machine

/-- Shift left (R181, R184). -/
def shiftLeft (a : Reg) (n : Nat) : Reg := ⟨wrap64 (uint a.v * 2 ^ n), a.u⟩

/-- Arithmetic shift right, the floor of the signed value (R182, R185). -/
def shiftRightArith (a : Reg) (n : Nat) : Reg := ⟨wrap64 ((sint a.v).fdiv (2 ^ n)), a.u⟩

/-- Logical shift right (R183, R186). -/
def shiftRightLogic (a : Reg) (n : Nat) : Reg := ⟨wrap64 (uint a.v / 2 ^ n : Nat), a.u⟩

/-- SHL (R181). -/
def execShl (rd rs1 rs2 : RegNo) (s : State) : Host.Outcome State Fault Refusal :=
  succeed (s.setX rd (shiftLeft (s.x rs1) (shiftAmount (s.x rs2))))

/-- SHR (R182). -/
def execShr (rd rs1 rs2 : RegNo) (s : State) : Host.Outcome State Fault Refusal :=
  succeed (s.setX rd (shiftRightArith (s.x rs1) (shiftAmount (s.x rs2))))

/-- SHRU (R183). -/
def execShru (rd rs1 rs2 : RegNo) (s : State) : Host.Outcome State Fault Refusal :=
  succeed (s.setX rd (shiftRightLogic (s.x rs1) (shiftAmount (s.x rs2))))

/-- SHLI (R184). -/
def execShli (rd rs1 : RegNo) (imm6 : BitVec 6) (s : State) : Host.Outcome State Fault Refusal :=
  succeed (s.setX rd (shiftLeft (s.x rs1) imm6.toNat))

/-- SHRI (R185). -/
def execShri (rd rs1 : RegNo) (imm6 : BitVec 6) (s : State) : Host.Outcome State Fault Refusal :=
  succeed (s.setX rd (shiftRightArith (s.x rs1) imm6.toNat))

/-- SHRUI (R186). -/
def execShrui (rd rs1 : RegNo) (imm6 : BitVec 6) (s : State) : Host.Outcome State Fault Refusal :=
  succeed (s.setX rd (shiftRightLogic (s.x rs1) imm6.toNat))

end Sys2Proof.Machine
end

