-- ==== Sys2Proof/Machine/Wide.lean ====
section
/-! DEFINITION. MULWU and DIVQ9 (41_wide.md). Sources are read unsigned, results have tag 1. -/

namespace Sys2Proof.Machine

/-- MULWU (R160). -/
def execMulwu (rd rs1 rs2 : RegNo) (s : State) : Host.Outcome State Fault Refusal :=
  let p := uint (s.x rs1).v * uint (s.x rs2).v
  succeed (s.setPair rd (BitVec.ofNat 128 p))

/-- DIVQ9 (R161): the quotient's low half, its high half, then the remainder, so the remainder wins. -/
def execDivq9 (rd rs1 : RegNo) (s : State) : Host.Outcome State Fault Refusal :=
  let n := (s.pair rs1).toNat
  let q := n / 1000000000
  let r := n - q * 1000000000
  succeed ((s.setPair rs1 (BitVec.ofNat 128 q)).setX rd ⟨BitVec.ofNat 64 r, true⟩)

end Sys2Proof.Machine
end

