-- ==== Sys2Proof/Machine/Dispatch.lean ====
section
/-! DEFINITION. The meaning of each command, one arm per constructor of Instr. exec runs the command to its completion
(70_reset_and_hazards.md R365 step 3). -/

namespace Sys2Proof.Machine

def exec (i : Instr) (s : State) : Host.Outcome State Fault Refusal :=
  match i with
  | .add rd rs1 rs2 => Sys2Proof.Machine.execAdd rd rs1 rs2 s
  | .sub rd rs1 rs2 => Sys2Proof.Machine.execSub rd rs1 rs2 s
  | .mul rd rs1 rs2 => Sys2Proof.Machine.execMul rd rs1 rs2 s
  | .div rd rs1 rs2 => Sys2Proof.Machine.execDiv rd rs1 rs2 s
  | .mod rd rs1 rs2 => Sys2Proof.Machine.execMod rd rs1 rs2 s
  | .neg rd rs1 => Sys2Proof.Machine.execNeg rd rs1 s
  | .mulwu rd rs1 rs2 => Sys2Proof.Machine.execMulwu rd rs1 rs2 s
  | .divq9 rd rs1 => Sys2Proof.Machine.execDivq9 rd rs1 s
  | .shl rd rs1 rs2 => Sys2Proof.Machine.execShl rd rs1 rs2 s
  | .shr rd rs1 rs2 => Sys2Proof.Machine.execShr rd rs1 rs2 s
  | .shru rd rs1 rs2 => Sys2Proof.Machine.execShru rd rs1 rs2 s
  | .shli rd rs1 imm6 => Sys2Proof.Machine.execShli rd rs1 imm6 s
  | .shri rd rs1 imm6 => Sys2Proof.Machine.execShri rd rs1 imm6 s
  | .shrui rd rs1 imm6 => Sys2Proof.Machine.execShrui rd rs1 imm6 s
  | .cmp rd rs1 rs2 => Sys2Proof.Machine.execCmp rd rs1 rs2 s
  | .cmpu rd rs1 rs2 => Sys2Proof.Machine.execCmpu rd rs1 rs2 s
  | .eq rd rs1 rs2 => Sys2Proof.Machine.execEq rd rs1 rs2 s
  | .cvtf rd rs1 uf => Sys2Proof.Machine.execCvtf rd rs1 uf s
  | .iparse rd imm6 uf => Sys2Proof.Machine.execIparse rd imm6 uf s
  | .ifmt rs1 imm6 => Sys2Proof.Machine.execIfmt rs1 imm6 s
  | .dparse rd => Sys2Proof.Machine.execDparse rd s
  | .dparser rd => Sys2Proof.Machine.execDparser rd s
  | .dfmt rs1 => Sys2Proof.Machine.execDfmt rs1 s

end Sys2Proof.Machine
end

