-- ==== Sys2Proof/Machine/Unit.lean ====
section
/-! DEFINITION. The unit's completion of a command and the delivery of one event of the schedule
(70_reset_and_hazards.md R360, R365; 20_memory.md R71, R72). -/

namespace Sys2Proof.Machine

/-- The completion of the accepted command (70_reset_and_hazards.md R365 step 3): decode the word, run its command; a word
that spells no command completes with ILLEGAL (60_exceptions.md R323). -/
def runCommand (s : State) : Host.Outcome State Fault Refusal :=
  match decode s.fetch with
  | .command i => exec i s
  | .rejected _ => raise .illegal s

/-- The end of the busy period: the command in flight completes; without one nothing happens (10_state.md R48). -/
def completion (s : State) : Host.Outcome State Fault Refusal := if s.status.busy then runCommand s else .next s

/-- Apply `f` to the next state. -/
def andThen (o : Host.Outcome State Fault Refusal) (f : State → State) : Host.Outcome State Fault Refusal :=
  match o with
  | .next s => .next (f s)
  | .fault r => .fault r
  | .refused r => .refused r

/-- A host write of `w` to STATUS (10_state.md R44); it is honoured while BUSY = 1. -/
def statusWrite (w : BusWord) (s : State) : State := { s with status := s.status.clear w, response := some .okay }

/-- One event, already taken off the schedule. Of a completion and a STATUS write in one step the completion is first
(10_state.md R44). -/
def deliver (e : Event) (s : State) : Host.Outcome State Fault Refusal :=
  match e with
  | .read off width => hostRead off width s
  | .write off data => hostWrite off data s
  | .complete => completion s
  | .completeWithStatusWrite w => andThen (completion s) (statusWrite w)
  | .reset => .next s.platformReset

/-- One step: the next event of the schedule; with none left, a command in flight completes (70_reset_and_hazards.md R370)
and an idle unit waits (R363). -/
def unitStep (s : State) : Host.Outcome State Fault Refusal :=
  match s.env with
  | [] => completion s
  | e :: rest => deliver e { s with env := rest }

/-- The state in which the command word `w` has been accepted and completes in the next step (10_state.md R45, log 1). -/
def State.withCommand (s : State) (w : BusWord) : State :=
  { s.acceptCommand w with env := .complete :: s.env }

end Sys2Proof.Machine
end

