-- ==== Sys2Proof/Machine/Assembly.lean ====
section
/-! DEFINITION. The assembler's text of a command (30_encoding.md R100), as ASCII bytes, and the host-side notation of R102
as events. -/

namespace Sys2Proof.Machine

/-- `x0` .. `x15`. -/
def asmReg (r : RegNo) : List Byte := asciiText ['x'] ++ digitText 10 r.toNat

/-- A mnemonic and its operands, separated by commas (30_encoding.md R100). -/
def asmLine (mnemonic : String) : List (List Byte) → List Byte
  | [] => asciiText mnemonic.toList
  | op :: ops => asciiText mnemonic.toList ++ asciiText [' '] ++ op ++ (ops.map (asciiText [',', ' '] ++ ·)).flatten

/-- The optional last operand `u` (30_encoding.md R100). -/
def asmUf (uf : Bool) : List (List Byte) := if uf then [asciiText ['u']] else []

/-- The assembler text of a command (30_encoding.md R100). -/
def asmText : Instr → List Byte
  | .add rd rs1 rs2 => asmLine "ADD" [asmReg rd, asmReg rs1, asmReg rs2]
  | .sub rd rs1 rs2 => asmLine "SUB" [asmReg rd, asmReg rs1, asmReg rs2]
  | .mul rd rs1 rs2 => asmLine "MUL" [asmReg rd, asmReg rs1, asmReg rs2]
  | .div rd rs1 rs2 => asmLine "DIV" [asmReg rd, asmReg rs1, asmReg rs2]
  | .mod rd rs1 rs2 => asmLine "MOD" [asmReg rd, asmReg rs1, asmReg rs2]
  | .neg rd rs1 => asmLine "NEG" [asmReg rd, asmReg rs1]
  | .mulwu rd rs1 rs2 => asmLine "MULWU" [asmReg rd, asmReg rs1, asmReg rs2]
  | .divq9 rd rs1 => asmLine "DIVQ9" [asmReg rd, asmReg rs1]
  | .shl rd rs1 rs2 => asmLine "SHL" [asmReg rd, asmReg rs1, asmReg rs2]
  | .shr rd rs1 rs2 => asmLine "SHR" [asmReg rd, asmReg rs1, asmReg rs2]
  | .shru rd rs1 rs2 => asmLine "SHRU" [asmReg rd, asmReg rs1, asmReg rs2]
  | .shli rd rs1 imm6 => asmLine "SHLI" [asmReg rd, asmReg rs1, digitText 10 imm6.toNat]
  | .shri rd rs1 imm6 => asmLine "SHRI" [asmReg rd, asmReg rs1, digitText 10 imm6.toNat]
  | .shrui rd rs1 imm6 => asmLine "SHRUI" [asmReg rd, asmReg rs1, digitText 10 imm6.toNat]
  | .cmp rd rs1 rs2 => asmLine "CMP" [asmReg rd, asmReg rs1, asmReg rs2]
  | .cmpu rd rs1 rs2 => asmLine "CMPU" [asmReg rd, asmReg rs1, asmReg rs2]
  | .eq rd rs1 rs2 => asmLine "EQ" [asmReg rd, asmReg rs1, asmReg rs2]
  | .cvtf rd rs1 uf => asmLine "CVTF" ([asmReg rd, asmReg rs1] ++ asmUf uf)
  | .iparse rd imm6 uf => asmLine "IPARSE" ([asmReg rd, digitText 10 imm6.toNat] ++ asmUf uf)
  | .ifmt rs1 imm6 => asmLine "IFMT" [asmReg rs1, digitText 10 imm6.toNat]
  | .dparse rd => asmLine "DPARSE" [asmReg rd]
  | .dparser rd => asmLine "DPARSER" [asmReg rd]
  | .dfmt rs1 => asmLine "DFMT" [asmReg rs1]

/-! ### Host-side notation (30_encoding.md R102) -/

/-- `WR off, w`. -/
def hostWR (off : Nat) (w : BusWord) : List Event := [.write off (.b32 w)]

/-- `WRB off, b`. -/
def hostWRB (off : Nat) (b : Byte) : List Event := [.write off (.b8 b)]

/-- `RD off`. -/
def hostRD (off : Nat) : List Event := [.read off .w32]

/-- `POLL`, in a schedule where the busy period ends before its first read of STATUS, so that the one read sees BUSY = 0. -/
def hostPOLL : List Event := .complete :: hostRD 0x008

/-- `TEXT "s"`: the bytes from offset `off` on. -/
def hostBytes (off : Nat) : List Byte → List Event
  | [] => []
  | b :: bs => hostWRB off b ++ hostBytes (off + 1) bs

/-- `TEXT "s"`. -/
def hostTEXT (s : List Byte) : List Event := hostBytes 0x2000 s ++ hostWR 0x010 (BitVec.ofNat 32 s.length)

/-- `SETX xi, v, u`. -/
def hostSETX (i : RegNo) (v : Word) (u : Bool) : List Event :=
  hostWR (0x100 + 16 * i.toNat) (v.extractLsb' 0 32) ++ hostWR (0x104 + 16 * i.toNat) (v.extractLsb' 32 32) ++
    hostWR (0x108 + 16 * i.toNat) ((BitVec.ofBool u).setWidth 32)

/-- `CMD word`. -/
def hostCMD (w : BusWord) : List Event := hostWR 0x00C w ++ hostPOLL

end Sys2Proof.Machine
end

