-- ==== Sys2Proof/Safety.lean ====
section
/-! DEFINITION. The terms claims use: the invariant of the machine, the clean start (70_reset_and_hazards.md R371) and the
end of a run (R372), and what a command leaves unchanged. -/

namespace Sys2Proof.Machine

/-- The premise CLEAN (70_reset_and_hazards.md R371): idle, no completion, no error, no dropped write, cause NONE. -/
def State.clean (s : State) : Bool :=
  !s.status.busy && !s.status.done && !s.status.err && !s.status.coll && decide (s.status.cause = .none)

/-- A run has ended: the host's last access is done and the unit is idle (70_reset_and_hazards.md R372). The rule leaves open
whether a platform reset scheduled after the last access, with the unit idle, still belongs to the run. DESIGN CHOICE, log 26: it
does, since the whole schedule must be empty; a `complete` left over delays the end too, and changes nothing of the unit. -/
def State.ended (s : State) : Bool := s.env.isEmpty && !s.status.busy

/-- A run whose end, as `ended` takes it (log 26), shows no failing command and no dropped write (70_reset_and_hazards.md R372). -/
def State.endedWell (s : State) : Bool := s.ended && !s.status.err && !s.status.coll

/-- The invariant of every reachable state: the text buffer's list is in canonical form (log 3), TLEN is at most 8192
(10_state.md R31), and DONE is 0 while BUSY is 1 (10_state.md R43). -/
structure State.Inv (s : State) : Prop where
  tb : Memory.wf s.tb = true
  tlen : s.tlen.toNat ≤ Config.tbSize
  busy : s.status.busy = true → s.status.done = false

/-- Every register outside `written`, and every other register and field but STATUS, TB and TLEN, is the same in `t` as in `s`. -/
structure SameBut (written : List RegNo) (s t : State) : Prop where
  x : ∀ r, r ∉ written → t.x r = s.x r
  ctrl : t.ctrl = s.ctrl
  cmd : t.cmd = s.cmd
  env : t.env = s.env
  response : t.response = s.response
  epoch : t.epoch = s.epoch
  draws : t.draws = s.draws

/-- TLEN and every byte of TB read in `t` as in `s`. -/
structure SameText (s t : State) : Prop where
  tlen : t.tlen = s.tlen
  tb : ∀ k, t.tbByte k = s.tbByte k

/-- STATUS of `t` is that of a completion with cause `c` after `s` (70_reset_and_hazards.md R365): BUSY 0, DONE 1, CAUSE the
cause, ERR kept or set where the cause is not NONE, COLL kept. -/
structure Completed (c : Cause) (s t : State) : Prop where
  busy : t.status.busy = false
  done : t.status.done = true
  cause : t.status.cause = c
  err : t.status.err = (s.status.err || decide (c ≠ .none))
  coll : t.status.coll = s.status.coll

/-- A command that succeeds and writes no register but those listed, and neither TB nor TLEN. -/
structure WritesRegs (written : List RegNo) (s t : State) : Prop where
  done : Completed .none s t
  same : SameBut written s t
  text : SameText s t

/-- A command that succeeds and writes the text `out` to TB[0 ..] and its length to TLEN, and no register
(10_state.md R32). -/
structure WritesText (out : List Byte) (s t : State) : Prop where
  done : Completed .none s t
  same : SameBut [] s t
  tlen : t.tlen.toNat = out.length
  inside : ∀ k b, out[k]? = some b → t.tbByte k = b
  outside : ∀ k, out.length ≤ k → t.tbByte k = s.tbByte k

/-- A command that raises `c` (60_exceptions.md R320, R322): nothing but STATUS changes. -/
structure Raises (c : Cause) (s t : State) : Prop where
  done : Completed c s t
  same : SameBut [] s t
  text : SameText s t

end Sys2Proof.Machine
end

