-- ==== Sys2Proof/Certificates/Slice0/Obligations.lean ====
section
/-! DEFINITION. The statements about the machine, for the provers, and the words they are stated in. -/

namespace Sys2Proof.Claims
open Sys2Proof.Machine

/-! ### The words of the statements -/

/-- The command word of 30_encoding.md R103: OPC | RD << 8 | RS1 << 12 | RS2 << 16 | IMM6 << 20 | UF << 26. -/
def commandWord (opc : Nat) (rd rs1 rs2 : RegNo) (imm6 : BitVec 6) (uf : Bool) : BusWord :=
  BitVec.ofNat 32 (opc + rd.toNat * 2 ^ 8 + rs1.toNat * 2 ^ 12 + rs2.toNat * 2 ^ 16 + imm6.toNat * 2 ^ 20 + uf.toNat * 2 ^ 26)

/-- The 64-bit pattern `v` is the integer `n` modulo 2^64 (00_scope.md R8, wrap64). -/
def IsWrapped (v : Word) (n : Int) : Prop := (v.toNat : Int) = n % 2 ^ 64

/-- The command `i` run from `s` succeeds, writes no register but `d`, neither TB nor TLEN, and leaves `d` with the tag `u`
and a pattern that is `n` modulo 2^64. -/
def WritesNumber (i : Instr) (s : State) (d : RegNo) (n : Int) (u : Bool) : Prop :=
  ∃ t, exec i s = .next t ∧ WritesRegs [d] s t ∧ IsWrapped (t.x d).v n ∧ (t.x d).u = u

/-- The command `i` run from `s` succeeds and writes the register `d` and nothing else of the registers, TB and TLEN. -/
def WritesReg (i : Instr) (s : State) (d : RegNo) (a : Reg) : Prop :=
  ∃ t, exec i s = .next t ∧ WritesRegs [d] s t ∧ t.x d = a

/-- The command `i` run from `s` succeeds and writes the 128-bit number `p` to the pair at `d`, with tag 1 on both halves, and
nothing else of the registers, TB and TLEN. -/
def WritesPair (i : Instr) (s : State) (d : RegNo) (p : Nat) : Prop :=
  ∃ t, exec i s = .next t ∧ WritesRegs [d, highReg d] s t ∧
    t.x d = ⟨BitVec.ofNat 64 p, true⟩ ∧ t.x (highReg d) = ⟨BitVec.ofNat 64 (p / 2 ^ 64), true⟩

/-- The command `i` run from `s` succeeds and writes the text `out` to TB and TLEN, and no register. -/
def WritesOutput (i : Instr) (s : State) (out : List Byte) : Prop := ∃ t, exec i s = .next t ∧ WritesText out s t

/-- The command `i` run from `s` raises `c` and changes nothing but STATUS. -/
def RaisesCause (i : Instr) (s : State) (c : Cause) : Prop := ∃ t, exec i s = .next t ∧ Raises c s t

/-- The shift amounts of the register form and of the immediate form both shift by `n` (42_shift.md R180). -/
def amountOf (b : Reg) : Nat := b.v.toNat % 64

/-- The value of a binary64 pattern whose exponent field is not 0x7FF (44_int_convert.md R221). -/
def binary64Rat (w : Word) : ℚ :=
  let sgn : ℚ := if w.getLsbD 63 then -1 else 1
  let be := (w.extractLsb' 52 11).toNat
  let f := (w.extractLsb' 0 52).toNat
  if be = 0 then sgn * f * 2 ^ (-1074 : ℤ) else sgn * (2 ^ 52 + f) * 2 ^ ((be : ℤ) - 1075)

/-- A rational number rounded toward zero (00_scope.md R8). -/
def truncRat (f : ℚ) : ℤ := if 0 ≤ f then ⌊f⌋ else ⌈f⌉

/-- A value clamped to a range. -/
def clampInt (lo hi n : ℤ) : ℤ := max lo (min hi n)

/-- The byte `b` is a digit with value `d`: "0".."9", "a".."z", "A".."Z" (44_int_convert.md R222). -/
def DigitByte (b : Byte) (d : Nat) : Prop :=
  (d < 10 ∧ b.toNat = 0x30 + d) ∨ (10 ≤ d ∧ d < 36 ∧ b.toNat = 0x61 + (d - 10)) ∨
    (10 ≤ d ∧ d < 36 ∧ b.toNat = 0x41 + (d - 10))

/-- The text `t` is an integer text of radix `r` with the value `v`: "-"? digit+ (44_int_convert.md R222). -/
def IntegerText (r : Nat) (t : List Byte) (v : Int) : Prop :=
  ∃ (ds : List Byte) (vs : List Nat), ds ≠ [] ∧ List.Forall₂ DigitByte ds vs ∧ (∀ d ∈ vs, d < r) ∧
    ((t = ds ∧ v = Nat.ofDigits r vs.reverse) ∨ (t = 0x2D#8 :: ds ∧ v = -(Nat.ofDigits r vs.reverse : Int)))

/-- The radix that a radix field selects (44_int_convert.md R224). -/
def Radix (imm6 : BitVec 6) (r : Nat) : Prop := (imm6 = 0#6 ∧ r = 10) ∨ (2 ≤ imm6.toNat ∧ imm6.toNat ≤ 36 ∧ r = imm6.toNat)

/-- A radix field outside the range (44_int_convert.md R224). -/
def RadixOutOfRange (imm6 : BitVec 6) : Prop := imm6.toNat = 1 ∨ 37 ≤ imm6.toNat

/-- The byte of a digit in an output text: "0".."9", then lowercase letters (44_int_convert.md R226). -/
def outByte (d : Nat) : Byte := BitVec.ofNat 8 (if d < 10 then 0x30 + d else 0x57 + d)

/-- `digits_r(n)`: the shortest digit string of `n` in radix `r`, "0" for 0 (44_int_convert.md R226, 00_scope.md R12). -/
def outDigits (r n : Nat) : List Byte := if n = 0 then [0x30#8] else ((Nat.digits r n).map outByte).reverse

/-! ### Decimal texts (45_decimal_parse.md R254, R256) -/

/-- A string of decimal digits. -/
def DecDigits (ds : List Byte) : Prop := ∀ b ∈ ds, 0x30 ≤ b.toNat ∧ b.toNat ≤ 0x39

/-- `int(digits)` (00_scope.md R12). -/
def decInt (ds : List Byte) : Nat := Nat.ofDigits 10 (ds.reverse.map (fun b => b.toNat - 0x30))

/-- `sign?`, and whether it is "-". -/
def SignPart (neg : Bool) (t : List Byte) : Prop := (neg = false ∧ (t = [] ∨ t = [0x2B#8])) ∨ (neg = true ∧ t = [0x2D#8])

/-- `("." digits)?` with its digits. -/
def FractionPart (t fp : List Byte) : Prop := (t = [] ∧ fp = []) ∨ (fp ≠ [] ∧ DecDigits fp ∧ t = 0x2E#8 :: fp)

/-- `("E" sign? digits)?` with its value, 0 where it is absent. -/
def ExponentPart (t : List Byte) (e : Int) : Prop :=
  (t = [] ∧ e = 0) ∨
    ∃ neg sg ds, SignPart neg sg ∧ ds ≠ [] ∧ DecDigits ds ∧ t = 0x45#8 :: (sg ++ ds) ∧
      e = if neg then -(decInt ds : Int) else (decInt ds : Int)

/-- The text `t` is `sign? digits ("." digits)? ("E" sign? digits)?` and its value is (-1)^neg * c * 10^q. -/
def NumericText (t : List Byte) (neg : Bool) (c : Nat) (q : Int) : Prop :=
  ∃ sg ip ft fp et e, SignPart neg sg ∧ ip ≠ [] ∧ DecDigits ip ∧ FractionPart ft fp ∧ ExponentPart et e ∧
    t = sg ++ ip ++ ft ++ et ∧ c = decInt (ip ++ fp) ∧ q = e - fp.length

/-- The text `t` is `sign? "Infinity"`. -/
def InfinityForm (t : List Byte) (neg : Bool) : Prop :=
  ∃ sg, SignPart neg sg ∧ t = sg ++ [0x49#8, 0x6E#8, 0x66#8, 0x69#8, 0x6E#8, 0x69#8, 0x74#8, 0x79#8]

/-- The text `t` is `sign? "NaN"`. -/
def NanForm (t : List Byte) : Prop := ∃ neg sg, SignPart neg sg ∧ t = sg ++ [0x4E#8, 0x61#8, 0x4E#8]

/-- The decimal128 pattern of layout 1 as a number: sign, q + 6176, C (45_decimal_parse.md R262). -/
def finitePattern (neg : Bool) (q : Int) (c : Nat) : Nat := neg.toNat * 2 ^ 127 + (q + 6176).toNat * 2 ^ 113 + c

/-- The pattern of an Infinity: hi = 0x7800_0000_0000_0000 or 0xF800_0000_0000_0000, lo = 0 (45_decimal_parse.md R252). -/
def infinityNumber (neg : Bool) : Nat := neg.toNat * 2 ^ 127 + 0x7800000000000000 * 2 ^ 64

/-- The NaN pattern: hi = 0x7C00_0000_0000_0000, lo = 0 (45_decimal_parse.md R252). -/
def nanNumber : Nat := 0x7C00000000000000 * 2 ^ 64

/-- The number of decimal digits of `c` (00_scope.md R12). -/
def digitCount (c : Nat) : Nat := (outDigits 10 c).length

/-- `RHE(C, m)` for m ≥ 1: C / 10^m rounded to nearest, ties to even (00_scope.md R12). -/
def rhe (c m : Nat) : Nat :=
  let k := c / 10 ^ m
  let r := c % 10 ^ m
  if 10 ^ m < 2 * r ∨ (2 * r = 10 ^ m ∧ k % 2 = 1) then k + 1 else k

/-- The digits of exponent text: "E+" or "E-" and the digits of the magnitude, nothing for 0 (46_decimal_format.md R295, R296). -/
def expText (n : Int) : List Byte :=
  if n = 0 then [] else [0x45#8, if 0 < n then 0x2B#8 else 0x2D#8] ++ outDigits 10 n.natAbs

/-- The text of the magnitude c * 10^q (46_decimal_format.md R293 to R297). -/
def magnitudeText (c : Nat) (q : Int) : List Byte :=
  let dg := outDigits 10 c
  let sd := dg.length
  let sci : Int := (sd : Int) - 1 + q
  if 34 ≤ sci ∨ sci ≤ -7 ∨ 0 < q then
    if sd ≤ 34 then dg.take 1 ++ (if 1 < sd then 0x2E#8 :: dg.drop 1 else []) ++ expText sci
    else 0x30#8 :: expText q
  else if q = 0 then dg
  else if 0 < (sd : Int) + q then dg.take ((sd : Int) + q).toNat ++ 0x2E#8 :: dg.drop ((sd : Int) + q).toNat
  else [0x30#8, 0x2E#8] ++ List.replicate (-((sd : Int) + q)).toNat 0x30#8 ++ dg

/-- "-" for a set sign bit (46_decimal_format.md R298). -/
def minusText (neg : Bool) : List Byte := if neg then [0x2D#8] else []

/-- The bytes of TB, the registers, TLEN, CTRL, STATUS, CMD and the resets counted are the same: the two states differ at most
in the schedule, the last response and the count of open read values. -/
structure SameUnit (s t : State) : Prop where
  x : ∀ r, t.x r = s.x r
  tb : ∀ k, t.tbByte k = s.tbByte k
  tlen : t.tlen = s.tlen
  ctrl : t.ctrl = s.ctrl
  status : t.status = s.status
  cmd : t.cmd = s.cmd
  epoch : t.epoch = s.epoch

/-- The events of a schedule are accesses inside the window, completions and resets. -/
def InWindow (e : Event) : Prop :=
  match e with
  | .read off _ => off < 0x4000
  | .write off _ => off < 0x4000
  | .complete => True
  | .completeWithStatusWrite _ => True
  | .reset => True

/-- The schedule's next event is `e`, and `u` is the state without it. -/
def Next (s : State) (e : Event) (u : State) : Prop := ∃ rest, s.env = e :: rest ∧ u = { s with env := rest }

end Sys2Proof.Claims

open Sys2Proof Sys2Proof.Machine Sys2Proof.Claims

/-! ### Encoding -/

/-- 30_encoding.md R95, R96, R97: the word written for a well-formed command decodes to it, with every operand at every value. -/
def Obligations.DecodeInvertsEncode : Prop := ∀ i : Instr, i.wellFormed = true → decode (encode i) = .command i

/-- 30_encoding.md R95, R96: a word that decodes is the word of the command it decodes to, which is well formed; no two words
spell one command. -/
def Obligations.EncodeInvertsDecode : Prop :=
  ∀ (w : BusWord) (i : Instr), decode w = .command i → i.wellFormed = true ∧ encode i = w

/-- 30_encoding.md R96: the matches and masks are the table's, a word is the command of a row exactly when w & mask = match,
and no two rows match one word. -/
def Obligations.DecodeFollowsOpcodeMap : Prop :=
  opcodeRows.map (fun r => (r.matchWord, r.mask)) =
      [(0x00000001#32, 0xFFF000FF#32), (0x00000002#32, 0xFFF000FF#32), (0x00000003#32, 0xFFF000FF#32),
       (0x00000004#32, 0xFFF000FF#32), (0x00000005#32, 0xFFF000FF#32), (0x00000006#32, 0xFFFF00FF#32),
       (0x00000008#32, 0xFFF001FF#32), (0x00000009#32, 0xFFFF10FF#32), (0x00000010#32, 0xFFF000FF#32),
       (0x00000011#32, 0xFFF000FF#32), (0x00000012#32, 0xFFF000FF#32), (0x00000014#32, 0xFC0F00FF#32),
       (0x00000015#32, 0xFC0F00FF#32), (0x00000016#32, 0xFC0F00FF#32), (0x00000018#32, 0xFFF000FF#32),
       (0x00000019#32, 0xFFF000FF#32), (0x0000001A#32, 0xFFF000FF#32), (0x00000020#32, 0xFBFF00FF#32),
       (0x00000021#32, 0xF80FF0FF#32), (0x00000022#32, 0xFC0F0FFF#32), (0x00000028#32, 0xFFFFF1FF#32),
       (0x00000029#32, 0xFFFFF1FF#32), (0x0000002A#32, 0xFFFF1FFF#32)] ∧
    (∀ (w : BusWord) (i : Instr),
      decode w = .command i ↔ ∃ r ∈ opcodeRows, w &&& r.mask = r.matchWord ∧ i = r.command w) ∧
    opcodeRows.Pairwise (fun r r' => ∀ w : BusWord, ¬ (w &&& r.mask = r.matchWord ∧ w &&& r'.mask = r'.matchWord))

/-- 30_encoding.md R103, which the spec derives from R91 and R96: sample words of every family and words that spell no command. -/
def Obligations.SampleWordsDecode : Prop :=
  decode 0x00045501#32 = .command (.add 5 5 4) ∧ decode 0x00021408#32 = .command (.mulwu 4 1 2) ∧
  decode 0x00000209#32 = .command (.divq9 2 0) ∧ decode 0x03F02115#32 = .command (.shri 1 2 63) ∧
  decode 0x0001561A#32 = .command (.eq 6 5 1) ∧ decode 0x04002120#32 = .command (.cvtf 1 2 true) ∧
  decode 0x04A00121#32 = .command (.iparse 1 10 true) ∧ decode 0x00000A29#32 = .command (.dparser 10) ∧
  decode 0x0000802A#32 = .command (.dfmt 8) ∧
  decode 0x00000000#32 = .rejected (.unassignedOpcode 0) ∧ decode 0x00000908#32 = .rejected (.maskedBitDiffers 0xFFF001FF) ∧
  decode 0x04000001#32 = .rejected (.maskedBitDiffers 0xFFF000FF)

/-- 30_encoding.md R101, which the spec derives from R184 and R132: MOV is SHLI by 0 and copies
pattern and tag; CLR is SUB of a register from itself and keeps the tag. -/
def Obligations.PseudoInstructionsMovAndClr : Prop :=
  ∀ (rd rs : RegNo) (s : State),
    (Instr.mov rd rs = .shli rd rs 0 ∧ WritesReg (Instr.mov rd rs) s rd (s.x rs)) ∧
    (Instr.clr rd = .sub rd rd rd ∧ WritesReg (Instr.clr rd) s rd ⟨0#64, (s.x rd).u⟩)

/-! ### The step -/

/-- How a step runs the accepted command (70_reset_and_hazards.md R365): with nothing left in the schedule, at a `complete`
event, and at a completion that shares its step with a host write to STATUS, which is applied after it (10_state.md R44). An
idle unit with nothing in the schedule stays as it is (R363). The schedule is the model's own (log 1, log 2). -/
def Obligations.StepRunsDecodedCommand : Prop :=
  (∀ (s : State) (i : Instr), s.status.busy = true → decode s.cmd = .command i → s.env = [] → step s = exec i s) ∧
  (∀ (s u : State) (i : Instr), s.status.busy = true → decode s.cmd = .command i → Next s .complete u → step s = exec i u) ∧
  (∀ (s u t : State) (i : Instr) (w : BusWord), s.status.busy = true → decode s.cmd = .command i →
    Next s (.completeWithStatusWrite w) u → exec i u = .next t →
    step s = .next { t with
      status := ⟨t.status.busy, t.status.done && !w.getLsbD 1, t.status.err && !w.getLsbD 2, t.status.coll && !w.getLsbD 3,
        t.status.cause⟩
      response := some .okay }) ∧
  (∀ s : State, s.status.busy = false → s.env = [] → step s = .next s)

/-- 60_exceptions.md R323, 30_encoding.md R95, R99: a word that is the command of no row completes with ILLEGAL, and nothing
but STATUS changes. -/
def Obligations.IllegalWordRaisesIllegal : Prop :=
  (∀ s : State, s.status.busy = true → s.env = [] → (∀ r ∈ opcodeRows, s.cmd &&& r.mask ≠ r.matchWord) →
    ∃ t, step s = .next t ∧ Raises .illegal s t) ∧
  (∀ s u : State, s.status.busy = true → Next s .complete u → (∀ r ∈ opcodeRows, s.cmd &&& r.mask ≠ r.matchWord) →
    ∃ t, step s = .next t ∧ Raises .illegal u t)

/-- 60_exceptions.md R320, R322: every command completes in every state, with success, or with a cause and then nothing but
STATUS changed. -/
def Obligations.CommandEndsInSuccessOrPreciseError : Prop :=
  ∀ (i : Instr) (s : State), ∃ t, exec i s = .next t ∧
    t.ctrl = s.ctrl ∧ t.cmd = s.cmd ∧ t.env = s.env ∧ t.response = s.response ∧ t.epoch = s.epoch ∧ t.draws = s.draws ∧
    (Completed .none s t ∨ ∃ c, c ≠ .none ∧ Raises c s t)

/-- 60_exceptions.md R321: the codes of the causes, and the commands that raise each; ILLEGAL is raised by none. -/
def Obligations.CausesComeFromTheirCommands : Prop :=
  [Cause.none, .illegal, .divByZero, .format, .radix, .overflow, .inexact, .underflow].map Cause.code = [0, 1, 2, 3, 4, 5, 6, 7] ∧
  (∀ s : State, s.status.word.extractLsb' 8 4 = s.status.cause.code) ∧
  ∀ (i : Instr) (s t : State), exec i s = .next t →
    (t.status.cause ≠ .illegal) ∧
    (t.status.cause = .divByZero → ∃ a b c, i = .div a b c ∨ i = .mod a b c) ∧
    (t.status.cause = .format → ∃ a b c, i = .iparse a b c ∨ i = .dparse a ∨ i = .dparser a) ∧
    (t.status.cause = .radix → ∃ a b c d, i = .iparse a b c ∨ i = .ifmt d b) ∧
    (t.status.cause = .overflow → ∃ a, i = .dparse a ∨ i = .dparser a) ∧
    (t.status.cause = .inexact → ∃ a, i = .dparse a) ∧
    (t.status.cause = .underflow → ∃ a, i = .dparse a)

/-- 70_reset_and_hazards.md R370, in the model's schedule (log 2): whatever the host does inside the window, after at most one
step more than the schedule holds the busy period has ended. -/
def Obligations.BusyPeriodEnds : Prop :=
  ∀ s : State, s.status.busy = true → (∀ e ∈ s.env, InWindow e) →
    ∃ n t, 1 ≤ n ∧ n ≤ s.env.length + 1 ∧ Sys2Proof.core.run n s = .next t ∧ t.status.busy = false

/-! ### Integer arithmetic -/

/-- 40_int_arith.md R131. -/
def Obligations.AddWritesWrappedSum : Prop :=
  ∀ (rd rs1 rs2 : RegNo) (s : State),
    decode (commandWord 0x01 rd rs1 rs2 0 false) = .command (.add rd rs1 rs2) ∧
    WritesNumber (.add rd rs1 rs2) s rd ((s.x rs1).v.toNat + (s.x rs2).v.toNat) (s.x rs1).u

/-- 40_int_arith.md R132. -/
def Obligations.SubWritesWrappedDifference : Prop :=
  ∀ (rd rs1 rs2 : RegNo) (s : State),
    decode (commandWord 0x02 rd rs1 rs2 0 false) = .command (.sub rd rs1 rs2) ∧
    WritesNumber (.sub rd rs1 rs2) s rd ((s.x rs1).v.toNat - (s.x rs2).v.toNat) (s.x rs1).u

/-- 40_int_arith.md R133: the low 64 bits, the same for unsigned and signed readings of the sources. -/
def Obligations.MulWritesLowProduct : Prop :=
  ∀ (rd rs1 rs2 : RegNo) (s : State),
    decode (commandWord 0x03 rd rs1 rs2 0 false) = .command (.mul rd rs1 rs2) ∧
    WritesNumber (.mul rd rs1 rs2) s rd ((s.x rs1).v.toNat * (s.x rs2).v.toNat) (s.x rs1).u ∧
    WritesNumber (.mul rd rs1 rs2) s rd ((s.x rs1).v.toInt * (s.x rs2).v.toInt) (s.x rs1).u

/-- 40_int_arith.md R136. -/
def Obligations.NegWritesWrappedNegation : Prop :=
  ∀ (rd rs1 : RegNo) (s : State),
    decode (commandWord 0x06 rd rs1 0 0 false) = .command (.neg rd rs1) ∧
    WritesNumber (.neg rd rs1) s rd (0 - (s.x rs1).v.toNat) (s.x rs1).u

/-- 40_int_arith.md R134, R140: the dividend's tag selects how both patterns are read; a zero divisor raises. -/
def Obligations.DivWritesQuotient : Prop :=
  ∀ (rd rs1 rs2 : RegNo) (s : State),
    decode (commandWord 0x04 rd rs1 rs2 0 false) = .command (.div rd rs1 rs2) ∧
    ((s.x rs2).v = 0#64 → RaisesCause (.div rd rs1 rs2) s .divByZero) ∧
    ((s.x rs2).v ≠ 0#64 → (s.x rs1).u = true →
      WritesNumber (.div rd rs1 rs2) s rd ((s.x rs1).v.toNat / (s.x rs2).v.toNat : Nat) true) ∧
    ((s.x rs2).v ≠ 0#64 → (s.x rs1).u = false →
      WritesNumber (.div rd rs1 rs2) s rd ((s.x rs1).v.toInt.tdiv (s.x rs2).v.toInt) false)

/-- 40_int_arith.md R135: the dividend minus the product of DIV's quotient and the divisor, modulo 2^64; that is the remainder of
the truncated quotient, in the dividend's mode; a zero divisor raises. -/
def Obligations.ModWritesRemainder : Prop :=
  ∀ (rd rs1 rs2 : RegNo) (s : State),
    decode (commandWord 0x05 rd rs1 rs2 0 false) = .command (.mod rd rs1 rs2) ∧
    ((s.x rs2).v = 0#64 → RaisesCause (.mod rd rs1 rs2) s .divByZero) ∧
    ((s.x rs2).v ≠ 0#64 → ∀ (d : RegNo), ∃ t, exec (.div d rs1 rs2) s = .next t ∧
      WritesNumber (.mod rd rs1 rs2) s rd ((s.x rs1).v.toNat - (t.x d).v.toNat * (s.x rs2).v.toNat) (s.x rs1).u) ∧
    ((s.x rs2).v ≠ 0#64 → (s.x rs1).u = true →
      WritesNumber (.mod rd rs1 rs2) s rd ((s.x rs1).v.toNat % (s.x rs2).v.toNat : Nat) true) ∧
    ((s.x rs2).v ≠ 0#64 → (s.x rs1).u = false →
      WritesNumber (.mod rd rs1 rs2) s rd ((s.x rs1).v.toInt.tmod (s.x rs2).v.toInt) false)

/-- 40_int_arith.md R139, which the spec derives from R134 and R135: DIV and MOD of a signed dividend by magnitudes and signs. -/
def Obligations.SignedDivisionSigns : Prop :=
  ∀ (rd rs1 rs2 : RegNo) (s : State), (s.x rs1).u = false →
    let a := (s.x rs1).v.toInt
    let b := (s.x rs2).v.toInt
    let q : Nat := a.natAbs / b.natAbs
    let r : Nat := a.natAbs - q * b.natAbs
    (0 ≤ a → 0 < b → WritesNumber (.div rd rs1 rs2) s rd q false ∧ WritesNumber (.mod rd rs1 rs2) s rd r false) ∧
    (a < 0 → 0 < b → WritesNumber (.div rd rs1 rs2) s rd (-q) false ∧ WritesNumber (.mod rd rs1 rs2) s rd (-r) false) ∧
    (0 ≤ a → b < 0 → WritesNumber (.div rd rs1 rs2) s rd (-q) false ∧ WritesNumber (.mod rd rs1 rs2) s rd r false) ∧
    (a < 0 → b < 0 → WritesNumber (.div rd rs1 rs2) s rd q false ∧ WritesNumber (.mod rd rs1 rs2) s rd (-r) false) ∧
    (b = 0 → RaisesCause (.div rd rs1 rs2) s .divByZero ∧ RaisesCause (.mod rd rs1 rs2) s .divByZero)

/-- 40_int_arith.md R137, which the spec derives from R134 and R135: the division identity bit for bit,
the tags, and the bounds of the remainder. -/
def Obligations.DivisionIdentity : Prop :=
  ∀ (rd rs1 rs2 : RegNo) (s : State), (s.x rs2).v ≠ 0#64 →
    ∃ t t', exec (.div rd rs1 rs2) s = .next t ∧ exec (.mod rd rs1 rs2) s = .next t' ∧
      (t.x rd).v * (s.x rs2).v + (t'.x rd).v = (s.x rs1).v ∧ (t.x rd).u = (s.x rs1).u ∧ (t'.x rd).u = (s.x rs1).u ∧
      ((s.x rs1).u = true → (t'.x rd).v.toNat < (s.x rs2).v.toNat) ∧
      ((s.x rs1).u = false → ¬ ((s.x rs1).v.toInt = -2 ^ 63 ∧ (s.x rs2).v.toInt = -1) →
        (t'.x rd).v.toInt.natAbs < (s.x rs2).v.toInt.natAbs ∧
        ((t'.x rd).v = 0#64 ∨ (t'.x rd).v.toInt.sign = (s.x rs1).v.toInt.sign))

/-! ### Wide steps -/

/-- 41_wide.md R160; an odd RD spells no command. -/
def Obligations.MulwuWritesProductPair : Prop :=
  ∀ (rd rs1 rs2 : RegNo) (s : State),
    (evenReg rd = true → decode (commandWord 0x08 rd rs1 rs2 0 false) = .command (.mulwu rd rs1 rs2) ∧
      WritesPair (.mulwu rd rs1 rs2) s rd ((s.x rs1).v.toNat * (s.x rs2).v.toNat)) ∧
    (evenReg rd = false → ∀ i, decode (commandWord 0x08 rd rs1 rs2 0 false) ≠ .command i)

/-- 41_wide.md R161: the pair becomes the quotient and RD the remainder, whose write wins where RD is in the pair; an odd RS1
spells no command. -/
def Obligations.Divq9DividesPair : Prop :=
  ∀ (rd rs1 : RegNo) (s : State),
    (evenReg rs1 = true →
      let n := (s.x (highReg rs1)).v.toNat * 2 ^ 64 + (s.x rs1).v.toNat
      decode (commandWord 0x09 rd rs1 0 0 false) = .command (.divq9 rd rs1) ∧
      ∃ t, exec (.divq9 rd rs1) s = .next t ∧ WritesRegs [rs1, highReg rs1, rd] s t ∧
        t.x rd = ⟨BitVec.ofNat 64 (n % 1000000000), true⟩ ∧
        (rd ≠ rs1 → t.x rs1 = ⟨BitVec.ofNat 64 (n / 1000000000), true⟩) ∧
        (rd ≠ highReg rs1 → t.x (highReg rs1) = ⟨BitVec.ofNat 64 (n / 1000000000 / 2 ^ 64), true⟩)) ∧
    (evenReg rs1 = false → ∀ i, decode (commandWord 0x09 rd rs1 0 0 false) ≠ .command i)

/-- 41_wide.md R162, which the spec derives from R160 and R161: MULWU's pair is the product and its
low half is MUL's pattern; DIVQ9's results rebuild the dividend. -/
def Obligations.WideStepLaws : Prop :=
  (∀ (rd d rs1 rs2 : RegNo) (s : State), evenReg rd = true →
    ∃ t t', exec (.mulwu rd rs1 rs2) s = .next t ∧ exec (.mul d rs1 rs2) s = .next t' ∧
      (t.x (highReg rd)).v.toNat * 2 ^ 64 + (t.x rd).v.toNat = (s.x rs1).v.toNat * (s.x rs2).v.toNat ∧
      (t.x rd).v = (t'.x d).v) ∧
  (∀ (rd rs1 : RegNo) (s : State), evenReg rs1 = true → rd ≠ rs1 → rd ≠ highReg rs1 →
    ∃ t, exec (.divq9 rd rs1) s = .next t ∧
      ((t.x (highReg rs1)).v.toNat * 2 ^ 64 + (t.x rs1).v.toNat) * 1000000000 + (t.x rd).v.toNat =
        (s.x (highReg rs1)).v.toNat * 2 ^ 64 + (s.x rs1).v.toNat ∧
      (t.x rd).v.toNat < 1000000000)

/-! ### Shifts -/

/-- 42_shift.md R180, R181, R184: SHL by the low 6 bits of RS2 and SHLI by IMM6 move the bits left, filling with 0. -/
def Obligations.LeftShiftsMoveBits : Prop :=
  ∀ (rd rs1 rs2 : RegNo) (imm6 : BitVec 6) (s : State),
    decode (commandWord 0x10 rd rs1 rs2 0 false) = .command (.shl rd rs1 rs2) ∧
    decode (commandWord 0x14 rd rs1 0 imm6 false) = .command (.shli rd rs1 imm6) ∧
    WritesReg (.shl rd rs1 rs2) s rd ⟨(s.x rs1).v <<< amountOf (s.x rs2), (s.x rs1).u⟩ ∧
    WritesReg (.shli rd rs1 imm6) s rd ⟨(s.x rs1).v <<< imm6.toNat, (s.x rs1).u⟩

/-- 42_shift.md R180, R182, R185: SHR and SHRI copy bit 63 into the vacated bits, whatever the tag. -/
def Obligations.ArithmeticShiftsCopySign : Prop :=
  ∀ (rd rs1 rs2 : RegNo) (imm6 : BitVec 6) (s : State),
    decode (commandWord 0x11 rd rs1 rs2 0 false) = .command (.shr rd rs1 rs2) ∧
    decode (commandWord 0x15 rd rs1 0 imm6 false) = .command (.shri rd rs1 imm6) ∧
    WritesReg (.shr rd rs1 rs2) s rd ⟨(s.x rs1).v.sshiftRight (amountOf (s.x rs2)), (s.x rs1).u⟩ ∧
    WritesReg (.shri rd rs1 imm6) s rd ⟨(s.x rs1).v.sshiftRight imm6.toNat, (s.x rs1).u⟩

/-- 42_shift.md R180, R183, R186: SHRU and SHRUI fill the vacated bits with 0, whatever the tag. -/
def Obligations.LogicalShiftsFillZero : Prop :=
  ∀ (rd rs1 rs2 : RegNo) (imm6 : BitVec 6) (s : State),
    decode (commandWord 0x12 rd rs1 rs2 0 false) = .command (.shru rd rs1 rs2) ∧
    decode (commandWord 0x16 rd rs1 0 imm6 false) = .command (.shrui rd rs1 imm6) ∧
    WritesReg (.shru rd rs1 rs2) s rd ⟨(s.x rs1).v >>> amountOf (s.x rs2), (s.x rs1).u⟩ ∧
    WritesReg (.shrui rd rs1 imm6) s rd ⟨(s.x rs1).v >>> imm6.toNat, (s.x rs1).u⟩

/-- 42_shift.md R187, which the spec derives from R181 to R186: SHLI by n is MUL by 2^n; SHRUI by n has the pattern of the DIV of
the same pattern with tag 1 by 2^n; SHRI is SHRUI where bit 63 is 0; a register form is the immediate form with the amount
modulo 64. -/
def Obligations.ShiftLaws : Prop :=
  ∀ (rd rs1 rs2 ra d : RegNo) (imm6 : BitVec 6) (s : State),
    ((s.x rs2).v.toNat = 2 ^ imm6.toNat → exec (.shli rd rs1 imm6) s = exec (.mul rd rs1 rs2) s) ∧
    ((s.x rs2).v.toNat = 2 ^ imm6.toNat → (s.x ra).v = (s.x rs1).v → (s.x ra).u = true →
      ∃ t t', exec (.shrui rd rs1 imm6) s = .next t ∧ exec (.div d ra rs2) s = .next t' ∧ (t.x rd).v = (t'.x d).v) ∧
    ((s.x rs1).v.getLsbD 63 = false → exec (.shri rd rs1 imm6) s = exec (.shrui rd rs1 imm6) s) ∧
    (imm6.toNat = amountOf (s.x rs2) →
      exec (.shl rd rs1 rs2) s = exec (.shli rd rs1 imm6) s ∧ exec (.shr rd rs1 rs2) s = exec (.shri rd rs1 imm6) s ∧
      exec (.shru rd rs1 rs2) s = exec (.shrui rd rs1 imm6) s)

/-! ### Comparison -/

/-- 43_compare.md R201: the values, each with its own tag, are compared as numbers; the result has tag 0. -/
def Obligations.CmpComparesValues : Prop :=
  ∀ (rd rs1 rs2 : RegNo) (s : State),
    let val := fun a : Reg => if a.u then (a.v.toNat : Int) else a.v.toInt
    decode (commandWord 0x18 rd rs1 rs2 0 false) = .command (.cmp rd rs1 rs2) ∧
    (val (s.x rs1) < val (s.x rs2) → WritesReg (.cmp rd rs1 rs2) s rd ⟨0xFFFFFFFFFFFFFFFF#64, false⟩) ∧
    (val (s.x rs1) = val (s.x rs2) → WritesReg (.cmp rd rs1 rs2) s rd ⟨0#64, false⟩) ∧
    (val (s.x rs2) < val (s.x rs1) → WritesReg (.cmp rd rs1 rs2) s rd ⟨1#64, false⟩)

/-- 43_compare.md R202: the patterns are compared unsigned; after ADD the comparison of the sum with an addend is -1 exactly when
the addition carried out of bit 63. -/
def Obligations.CmpuComparesPatternsAndShowsCarry : Prop :=
  ∀ (rd rs1 rs2 : RegNo) (s : State),
    decode (commandWord 0x19 rd rs1 rs2 0 false) = .command (.cmpu rd rs1 rs2) ∧
    ((s.x rs1).v.toNat < (s.x rs2).v.toNat → WritesReg (.cmpu rd rs1 rs2) s rd ⟨0xFFFFFFFFFFFFFFFF#64, false⟩) ∧
    ((s.x rs1).v = (s.x rs2).v → WritesReg (.cmpu rd rs1 rs2) s rd ⟨0#64, false⟩) ∧
    ((s.x rs2).v.toNat < (s.x rs1).v.toNat → WritesReg (.cmpu rd rs1 rs2) s rd ⟨1#64, false⟩) ∧
    (∀ d : RegNo, d ≠ rs2 → ∃ t t', exec (.add d rs1 rs2) s = .next t ∧ exec (.cmpu rd d rs2) t = .next t' ∧
      ((t'.x rd).v = 0xFFFFFFFFFFFFFFFF#64 ↔ 2 ^ 64 ≤ (s.x rs1).v.toNat + (s.x rs2).v.toNat))

/-- 43_compare.md R203: equal patterns give 1, but for both sign bits set and the tags different; else 0; tag 0. -/
def Obligations.EqTestsEquality : Prop :=
  ∀ (rd rs1 rs2 : RegNo) (s : State),
    let e := (s.x rs1).v = (s.x rs2).v ∧
      ¬ ((s.x rs1).u ≠ (s.x rs2).u ∧ (s.x rs1).v.getLsbD 63 = true ∧ (s.x rs2).v.getLsbD 63 = true)
    decode (commandWord 0x1A rd rs1 rs2 0 false) = .command (.eq rd rs1 rs2) ∧
    (e → WritesReg (.eq rd rs1 rs2) s rd ⟨1#64, false⟩) ∧ (¬ e → WritesReg (.eq rd rs1 rs2) s rd ⟨0#64, false⟩)

/-- 43_compare.md R204, which the spec derives from R201 to R203: EQ gives 1 exactly when CMP gives 0;
when CMP and CMPU agree; CMP is antisymmetric and transitive. -/
def Obligations.ComparisonLaws : Prop :=
  ∀ (rd a b c : RegNo) (s : State),
    ∃ ab ba bc ac eq un, exec (.cmp rd a b) s = .next ab ∧ exec (.cmp rd b a) s = .next ba ∧
      exec (.cmp rd b c) s = .next bc ∧ exec (.cmp rd a c) s = .next ac ∧
      exec (.eq rd a b) s = .next eq ∧ exec (.cmpu rd a b) s = .next un ∧
      ((eq.x rd).v = 1#64 ↔ (ab.x rd).v = 0#64) ∧
      ((eq.x rd).v = 1#64 ↔
        (if (s.x a).u then ((s.x a).v.toNat : Int) else (s.x a).v.toInt) =
          (if (s.x b).u then ((s.x b).v.toNat : Int) else (s.x b).v.toInt)) ∧
      ((s.x a).u = true → (s.x b).u = true → ab.x rd = un.x rd) ∧
      ((s.x a).u = false → (s.x b).u = false → (s.x a).v.getLsbD 63 = (s.x b).v.getLsbD 63 → ab.x rd = un.x rd) ∧
      (ab.x rd).v = -(ba.x rd).v ∧
      ((ab.x rd).v = 0xFFFFFFFFFFFFFFFF#64 → (bc.x rd).v = 0xFFFFFFFFFFFFFFFF#64 → (ac.x rd).v = 0xFFFFFFFFFFFFFFFF#64)

/-! ### Integer conversions -/

/-- 44_int_convert.md R220, R221: NaN gives 0, infinities and values out of range clamp, others truncate toward zero. -/
def Obligations.CvtfConvertsBinary64 : Prop :=
  ∀ (rd rs1 : RegNo) (uf : Bool) (s : State),
    let w := (s.x rs1).v
    let lo : ℤ := if uf then 0 else -2 ^ 63
    let hi : ℤ := if uf then 2 ^ 64 - 1 else 2 ^ 63 - 1
    decode (commandWord 0x20 rd rs1 0 0 uf) = .command (.cvtf rd rs1 uf) ∧
    (w.extractLsb' 52 11 = 0x7FF#11 → w.extractLsb' 0 52 ≠ 0#52 → WritesNumber (.cvtf rd rs1 uf) s rd 0 uf) ∧
    (w.extractLsb' 52 11 = 0x7FF#11 → w.extractLsb' 0 52 = 0#52 →
      WritesNumber (.cvtf rd rs1 uf) s rd (if w.getLsbD 63 then lo else hi) uf) ∧
    (w.extractLsb' 52 11 ≠ 0x7FF#11 →
      WritesNumber (.cvtf rd rs1 uf) s rd (clampInt lo hi (truncRat (binary64Rat w))) uf)

/-- 44_int_convert.md R222, R223, R224: an empty text raises FORMAT, then a radix out of range raises RADIX, then a text that is no
integer text of the radix raises FORMAT; an integer text gives its value modulo 2^64, with the tag UF. -/
def Obligations.IparseReadsIntegerText : Prop :=
  ∀ (rd : RegNo) (imm6 : BitVec 6) (uf : Bool) (s : State),
    decode (commandWord 0x21 rd 0 0 imm6 uf) = .command (.iparse rd imm6 uf) ∧
    (s.tlen = 0#14 → RaisesCause (.iparse rd imm6 uf) s .format) ∧
    (s.tlen ≠ 0#14 → RadixOutOfRange imm6 → RaisesCause (.iparse rd imm6 uf) s .radix) ∧
    (∀ r, s.tlen ≠ 0#14 → Radix imm6 r → (∀ v, ¬ IntegerText r s.text v) → RaisesCause (.iparse rd imm6 uf) s .format) ∧
    (∀ (r : Nat) (v : Int), Radix imm6 r → IntegerText r s.text v → WritesNumber (.iparse rd imm6 uf) s rd v uf)

/-- 44_int_convert.md R225, R226: "-" for a negative value, then the shortest digit string of the magnitude. -/
def Obligations.IfmtWritesShortestText : Prop :=
  ∀ (rs1 : RegNo) (imm6 : BitVec 6) (s : State),
    let a := s.x rs1
    let n : Int := if a.u then (a.v.toNat : Int) else a.v.toInt
    decode (commandWord 0x22 0 rs1 0 imm6 false) = .command (.ifmt rs1 imm6) ∧
    (∀ r, Radix imm6 r → WritesOutput (.ifmt rs1 imm6) s (minusText (decide (n < 0)) ++ outDigits r n.natAbs)) ∧
    (RadixOutOfRange imm6 → RaisesCause (.ifmt rs1 imm6) s .radix)

/-- 44_int_convert.md R227, which the spec derives from R223 and R225: the integer text round trip, in every radix. -/
def Obligations.IntegerTextRoundTrip : Prop :=
  ∀ (rs1 rd : RegNo) (imm6 : BitVec 6) (r : Nat) (s : State), Radix imm6 r →
    ∃ t t', exec (.ifmt rs1 imm6) s = .next t ∧ exec (.iparse rd imm6 (s.x rs1).u) t = .next t' ∧
      WritesRegs [rd] t t' ∧ t'.x rd = s.x rs1

/-! ### Decimal parsing -/

/-- 45_decimal_parse.md R256, R259, R262: a nonzero number whose coefficient and exponent fit is written exactly by both commands;
an odd RD spells no command. -/
def Obligations.DecimalParseKeepsFittingNumber : Prop :=
  ∀ (rd : RegNo) (s : State) (neg : Bool) (c : Nat) (q : Int),
    (evenReg rd = true →
      decode (commandWord 0x28 rd 0 0 0 false) = .command (.dparse rd) ∧
      decode (commandWord 0x29 rd 0 0 0 false) = .command (.dparser rd) ∧
      (s.tlen.toNat < 7000 → NumericText s.text neg c q → 0 < c → c < 10 ^ 34 → -6176 ≤ q → q ≤ 6111 →
        WritesPair (.dparse rd) s rd (finitePattern neg q c) ∧ WritesPair (.dparser rd) s rd (finitePattern neg q c))) ∧
    (evenReg rd = false → ∀ i, decode (commandWord 0x28 rd 0 0 0 false) ≠ .command i ∧
      decode (commandWord 0x29 rd 0 0 0 false) ≠ .command i)

/-- 45_decimal_parse.md R257: a zero coefficient keeps its sign and its exponent, clamped to the range. -/
def Obligations.DecimalZeroClampsExponent : Prop :=
  ∀ (rd : RegNo) (s : State) (neg : Bool) (q : Int), evenReg rd = true → s.tlen.toNat < 7000 → NumericText s.text neg 0 q →
    WritesPair (.dparse rd) s rd (finitePattern neg (min (max q (-6176)) 6111) 0) ∧
    WritesPair (.dparser rd) s rd (finitePattern neg (min (max q (-6176)) 6111) 0)

/-- 45_decimal_parse.md R252, R255: the special forms give the special patterns; the sign of a NaN is dropped. -/
def Obligations.DecimalSpecialForms : Prop :=
  ∀ (rd : RegNo) (s : State), evenReg rd = true →
    (∀ neg, InfinityForm s.text neg →
      WritesPair (.dparse rd) s rd (infinityNumber neg) ∧ WritesPair (.dparser rd) s rd (infinityNumber neg)) ∧
    (NanForm s.text → WritesPair (.dparse rd) s rd nanNumber ∧ WritesPair (.dparser rd) s rd nanNumber)

/-- 45_decimal_parse.md R254, R255, 60_exceptions.md R325: a text of 7000 bytes or more, and a text outside the grammar, raises
FORMAT in both commands. -/
def Obligations.DecimalMalformedRaisesFormat : Prop :=
  ∀ (rd : RegNo) (s : State),
    (7000 ≤ s.tlen.toNat → RaisesCause (.dparse rd) s .format ∧ RaisesCause (.dparser rd) s .format) ∧
    ((∀ neg, ¬ InfinityForm s.text neg) → ¬ NanForm s.text → (∀ neg c q, ¬ NumericText s.text neg c q) →
      RaisesCause (.dparse rd) s .format ∧ RaisesCause (.dparser rd) s .format)

/-- 45_decimal_parse.md R258, 60_exceptions.md R327: an exponent above 6111 is absorbed by spare digit positions, or both commands
raise OVERFLOW. -/
def Obligations.DecimalExcessExponent : Prop :=
  ∀ (rd : RegNo) (s : State) (neg : Bool) (c : Nat) (q : Int), evenReg rd = true → s.tlen.toNat < 7000 →
    NumericText s.text neg c q → 0 < c → 6111 < q →
    (34 < min (digitCount c : Int) 34 + (q - 6111) →
      RaisesCause (.dparse rd) s .overflow ∧ RaisesCause (.dparser rd) s .overflow) ∧
    (min (digitCount c : Int) 34 + (q - 6111) ≤ 34 →
      WritesPair (.dparse rd) s rd (finitePattern neg 6111 (c * 10 ^ (q - 6111).toNat)) ∧
      WritesPair (.dparser rd) s rd (finitePattern neg 6111 (c * 10 ^ (q - 6111).toNat)))

/-- 45_decimal_parse.md R260: when digits must go (m of them), DPARSE drops zeros exactly, and fails at the first removal, from the
last digit, that meets the last digit left (UNDERFLOW), a nonzero digit (INEXACT) or the greatest exponent (OVERFLOW). Here
c = 10^z * c' with c' not a multiple of 10, so that z is the number of trailing zeros. -/
def Obligations.StrictParseDropsOnlyZeros : Prop :=
  ∀ (rd : RegNo) (s : State) (neg : Bool) (c c' z m : Nat) (q : Int), evenReg rd = true → s.tlen.toNat < 7000 →
    NumericText s.text neg c q → c = 10 ^ z * c' → c' % 10 ≠ 0 → q ≤ 6111 →
    (m : Int) = max 0 (max ((digitCount c : Int) - 34) (-6176 - q)) →
    (m ≤ z → q + m ≤ 6111 → WritesPair (.dparse rd) s rd (finitePattern neg (q + m) (c / 10 ^ m))) ∧
    (z < m → z + 1 < digitCount c → q + z ≤ 6111 → RaisesCause (.dparse rd) s .inexact) ∧
    (z < m → z + 1 = digitCount c → q + z ≤ 6111 → RaisesCause (.dparse rd) s .underflow) ∧
    (6111 < q + min z m → RaisesCause (.dparse rd) s .overflow)

/-- 45_decimal_parse.md R260 ("no silent precision loss in strict mode"): where DPARSE of a number succeeds, the pair holds exactly
the number's value, in a coefficient of at most 34 digits at an exponent in range. -/
def Obligations.StrictParseIsExact : Prop :=
  ∀ (rd : RegNo) (s t : State) (neg : Bool) (c : Nat) (q : Int), evenReg rd = true → NumericText s.text neg c q →
    exec (.dparse rd) s = .next t → t.status.cause = .none →
    ∃ (c' : Nat) (q' : Int), c' < 10 ^ 34 ∧ -6176 ≤ q' ∧ q' ≤ 6111 ∧
      (c' : ℚ) * 10 ^ (q' : ℤ) = (c : ℚ) * 10 ^ (if c = 0 then q' else q) ∧
      t.x rd = ⟨BitVec.ofNat 64 (finitePattern neg q' c'), true⟩ ∧
      t.x (highReg rd) = ⟨BitVec.ofNat 64 (finitePattern neg q' c' / 2 ^ 64), true⟩

/-- 45_decimal_parse.md R261, 00_scope.md R12: when digits must go (m of them), DPARSER rounds half to even; a carry out of the kept
digits raises the exponent, or gives Infinity at the greatest one; too great an exponent raises OVERFLOW. -/
def Obligations.RoundingParseRoundsHalfEven : Prop :=
  ∀ (rd : RegNo) (s : State) (neg : Bool) (c m : Nat) (q : Int), evenReg rd = true → s.tlen.toNat < 7000 →
    NumericText s.text neg c q → 0 < c → q ≤ 6111 → 0 < m →
    (m : Int) = max ((digitCount c : Int) - 34) (-6176 - q) →
    (6111 < q + m → RaisesCause (.dparser rd) s .overflow) ∧
    (q + m ≤ 6111 → ¬ (m < digitCount c ∧ rhe c m = 10 ^ (digitCount c - m)) →
      WritesPair (.dparser rd) s rd (finitePattern neg (q + m) (rhe c m))) ∧
    (q + m < 6111 → m < digitCount c → rhe c m = 10 ^ (digitCount c - m) →
      WritesPair (.dparser rd) s rd (finitePattern neg (q + m + 1) (10 ^ (digitCount c - m - 1)))) ∧
    (q + m = 6111 → m < digitCount c → rhe c m = 10 ^ (digitCount c - m) →
      WritesPair (.dparser rd) s rd (infinityNumber neg))

/-- 45_decimal_parse.md R261 ("a text DPARSE accepts gives the same pattern in DPARSER"), over every state. -/
def Obligations.RoundingAgreesWithStrict : Prop :=
  ∀ (rd : RegNo) (s t : State), exec (.dparse rd) s = .next t → t.status.cause = .none → exec (.dparser rd) s = .next t

/-! ### Decimal formatting -/

/-- 46_decimal_format.md R290, R291, R293 to R298, 45_decimal_parse.md R250, R251: NaN and Infinity by the combination field alone,
whatever the other bits, and the text of every finite pattern of both layouts; an odd RS1 spells no command. -/
def Obligations.DfmtWritesText : Prop :=
  ∀ (rs1 : RegNo) (s : State),
    (evenReg rs1 = true →
      let hi := (s.x (highReg rs1)).v
      let lo := (s.x rs1).v
      decode (commandWord 0x2A 0 rs1 0 0 false) = .command (.dfmt rs1) ∧
      (hi.extractLsb' 58 5 = 0b11111#5 → WritesOutput (.dfmt rs1) s [0x4E#8, 0x61#8, 0x4E#8]) ∧
      (hi.extractLsb' 58 5 = 0b11110#5 →
        WritesOutput (.dfmt rs1) s
          (minusText (hi.getLsbD 63) ++ [0x49#8, 0x6E#8, 0x66#8, 0x69#8, 0x6E#8, 0x69#8, 0x74#8, 0x79#8])) ∧
      (hi.extractLsb' 61 2 ≠ 0b11#2 →
        WritesOutput (.dfmt rs1) s (minusText (hi.getLsbD 63) ++
          magnitudeText ((hi.extractLsb' 0 49).toNat * 2 ^ 64 + lo.toNat) ((hi.extractLsb' 49 14).toNat - 6176))) ∧
      (hi.extractLsb' 61 2 = 0b11#2 → hi.extractLsb' 59 2 ≠ 0b11#2 →
        WritesOutput (.dfmt rs1) s (minusText (hi.getLsbD 63) ++
          magnitudeText (2 ^ 113 + (hi.extractLsb' 0 47).toNat * 2 ^ 64 + lo.toNat) ((hi.extractLsb' 47 14).toNat - 6176)))) ∧
    (evenReg rs1 = false → ∀ i, decode (commandWord 0x2A 0 rs1 0 0 false) ≠ .command i)

/-- 46_decimal_format.md R299, which the spec derives from R294 to R298: DFMT writes 1 to 43 bytes and IFMT,
where it succeeds, 1 to 65; the rest of TB is unchanged. -/
def Obligations.TextOutputsFitBuffer : Prop :=
  (∀ (rs1 : RegNo) (s : State), ∃ t out, exec (.dfmt rs1) s = .next t ∧ WritesText out s t ∧
    1 ≤ out.length ∧ out.length ≤ 43) ∧
  (∀ (rs1 : RegNo) (imm6 : BitVec 6) (r : Nat) (s : State), Radix imm6 r →
    ∃ t out, exec (.ifmt rs1 imm6) s = .next t ∧ WritesText out s t ∧ 1 ≤ out.length ∧ out.length ≤ 65)

/-- 45_decimal_parse.md R263, which the spec derives from R260 and R290: DFMT then DPARSE gives back every pattern that DPARSE can
produce: the canonical finite patterns of layout 1, the two Infinities and the NaN. -/
def Obligations.StrictDecimalRoundTrip : Prop :=
  ∀ (rs1 rd : RegNo) (s : State), evenReg rs1 = true → evenReg rd = true →
    let p := (s.x (highReg rs1)).v.toNat * 2 ^ 64 + (s.x rs1).v.toNat
    ((∃ neg q c, c < 10 ^ 34 ∧ -6176 ≤ q ∧ q ≤ 6111 ∧ p = finitePattern neg q c) ∨ (∃ neg, p = infinityNumber neg) ∨
      p = nanNumber) →
    ∃ t, exec (.dfmt rs1) s = .next t ∧ WritesPair (.dparse rd) t rd p

/-- 10_state.md R23, 44_int_convert.md R220: CMPU, MULWU, DIVQ9, DFMT and CVTF do not depend on the tags of their sources, nor does
the pattern that SHRU writes. -/
def Obligations.UnsignedCommandsIgnoreTags : Prop :=
  ∀ (s s' : State), (∀ r, (s.x r).v = (s'.x r).v) →
    (∀ rd a b, ∃ t t', exec (.cmpu rd a b) s = .next t ∧ exec (.cmpu rd a b) s' = .next t' ∧ t.x rd = t'.x rd) ∧
    (∀ rd a b, ∃ t t', exec (.shru rd a b) s = .next t ∧ exec (.shru rd a b) s' = .next t' ∧ (t.x rd).v = (t'.x rd).v) ∧
    (∀ rd a uf, ∃ t t', exec (.cvtf rd a uf) s = .next t ∧ exec (.cvtf rd a uf) s' = .next t' ∧ t.x rd = t'.x rd) ∧
    (∀ rd a b, ∃ t t', exec (.mulwu rd a b) s = .next t ∧ exec (.mulwu rd a b) s' = .next t' ∧
      t.x rd = t'.x rd ∧ t.x (highReg rd) = t'.x (highReg rd)) ∧
    (∀ rd a, ∃ t t', exec (.divq9 rd a) s = .next t ∧ exec (.divq9 rd a) s' = .next t' ∧
      t.x rd = t'.x rd ∧ t.x a = t'.x a ∧ t.x (highReg a) = t'.x (highReg a)) ∧
    (∀ a, ∃ t t', exec (.dfmt a) s = .next t ∧ exec (.dfmt a) s' = .next t' ∧ t.text = t'.text)

/-! ### Host accesses -/

/-- 20_memory.md R65: an access of a width the region does not take, or misaligned, gets BUS_ERROR and changes no state, whether
the unit is idle or busy; every other access of the window gets an OKAY response, a read's with data. -/
def Obligations.BadAccessGetsBusError : Prop :=
  ∀ (s u : State) (off n : Nat) (width : Width) (d : BusData), off < 0x4000 →
    n = (match width with | .w8 => 1 | .w16 => 2 | .w32 => 4) → d.width = width →
    (((off < 0x2000 ∧ (n ≠ 4 ∨ off % 4 ≠ 0)) ∨ (0x2000 ≤ off ∧ off % n ≠ 0)) →
      (Next s (.read off width) u →
        ∃ t d', step s = .next t ∧ t.response = some (.busError (some d')) ∧ SameUnit u t ∧ t.env = u.env) ∧
      (Next s (.write off d) u → ∃ t, step s = .next t ∧ t.response = some (.busError none) ∧ SameUnit u t ∧ t.env = u.env)) ∧
    (((off < 0x2000 ∧ n = 4 ∧ off % 4 = 0) ∨ (0x2000 ≤ off ∧ off % n = 0)) →
      (Next s (.read off width) u → ∃ t d', step s = .next t ∧ t.response = some (.data d') ∧ d'.width = width) ∧
      (Next s (.write off d) u → ∃ t, step s = .next t ∧ t.response = some .okay))

/-- 20_memory.md R68: a read changes nothing of the unit, in every state and at every offset of the window. -/
def Obligations.ReadsHaveNoSideEffects : Prop :=
  ∀ (s u : State) (off : Nat) (width : Width), off < 0x4000 → Next s (.read off width) u →
    ∃ t, step s = .next t ∧ SameUnit u t ∧ t.env = u.env

/-- 20_memory.md R69, 10_state.md R41 to R47: what an aligned word read of the register region returns while the unit is idle. -/
def Obligations.IdleReadsFollowTheMap : Prop :=
  ∀ (s u : State) (off : Nat), Next s (.read off .w32) u → s.status.busy = false → off < 0x2000 → off % 4 = 0 →
    ∃ t w, step s = .next t ∧ t.response = some (.data (.b32 w)) ∧
      (off = 0x000 → w = 0x4E430100#32) ∧
      (off = 0x004 → w.toNat = s.ctrl.ieDone.toNat + 2 * s.ctrl.ieErr.toNat) ∧
      (off = 0x008 → w.toNat = 2 * s.status.done.toNat + 4 * s.status.err.toNat + 8 * s.status.coll.toNat +
        256 * s.status.cause.code.toNat) ∧
      (off = 0x00C → w = s.cmd) ∧ (off = 0x010 → w.toNat = s.tlen.toNat) ∧
      (∀ r : RegNo, off = 0x100 + 16 * r.toNat → w = (s.x r).v.extractLsb' 0 32) ∧
      (∀ r : RegNo, off = 0x104 + 16 * r.toNat → w = (s.x r).v.extractLsb' 32 32) ∧
      (∀ r : RegNo, off = 0x108 + 16 * r.toNat → w.toNat = (s.x r).u.toNat) ∧
      ((0x014 ≤ off ∧ off < 0x100) ∨ (∃ r : RegNo, off = 0x10C + 16 * r.toNat) ∨ 0x200 ≤ off → w = 0#32)

/-- 10_state.md R31, R42, R44, R46, R47: what an aligned word write of the register region stores while the unit is idle, and that
it stores nothing else. CMD is left to CommandWriteIsAccepted. -/
def Obligations.IdleWritesStoreTheirData : Prop :=
  ∀ (s u : State) (off : Nat) (w : BusWord), Next s (.write off (.b32 w)) u → s.status.busy = false → off < 0x2000 →
    off % 4 = 0 → off ≠ 0x00C →
    ∃ t, step s = .next t ∧ t.response = some .okay ∧ t.env = u.env ∧ t.cmd = s.cmd ∧ t.epoch = s.epoch ∧
      (∀ k, t.tbByte k = s.tbByte k) ∧
      t.ctrl = (if off = 0x004 then ⟨w.getLsbD 0, w.getLsbD 1⟩ else s.ctrl) ∧
      t.status = (if off = 0x008 then
        ⟨s.status.busy, s.status.done && !w.getLsbD 1, s.status.err && !w.getLsbD 2, s.status.coll && !w.getLsbD 3,
          s.status.cause⟩ else s.status) ∧
      t.tlen.toNat = (if off = 0x010 then min (w.toNat % 2 ^ 14) 8192 else s.tlen.toNat) ∧
      (∀ r : RegNo, (t.x r).v.extractLsb' 0 32 = if off = 0x100 + 16 * r.toNat then w else (s.x r).v.extractLsb' 0 32) ∧
      (∀ r : RegNo, (t.x r).v.extractLsb' 32 32 = if off = 0x104 + 16 * r.toNat then w else (s.x r).v.extractLsb' 32 32) ∧
      (∀ r : RegNo, (t.x r).u = if off = 0x108 + 16 * r.toNat then w.getLsbD 0 else (s.x r).u)

/-- 20_memory.md R63, 10_state.md R30: TB is little-endian at every width; a write stores its bytes and no other, and a read returns
the bytes that stand there. -/
def Obligations.TextBufferIsLittleEndian : Prop :=
  (∀ (s u : State) (k : Nat) (d : BusData), Next s (.write (0x2000 + k) d) u → s.status.busy = false → k < 8192 →
    k % (match d with | .b8 _ => 1 | .b16 _ => 2 | .b32 _ => 4) = 0 →
    ∃ t, step s = .next t ∧ t.response = some .okay ∧ t.tlen = s.tlen ∧ (∀ r, t.x r = s.x r) ∧ t.ctrl = s.ctrl ∧
      t.status = s.status ∧ t.cmd = s.cmd ∧ t.env = u.env ∧ t.epoch = s.epoch ∧
      (∀ j, t.tbByte j =
        match d with
        | .b8 b => if j = k then b else s.tbByte j
        | .b16 h => if j = k then h.extractLsb' 0 8 else if j = k + 1 then h.extractLsb' 8 8 else s.tbByte j
        | .b32 w => if j = k then w.extractLsb' 0 8 else if j = k + 1 then w.extractLsb' 8 8
            else if j = k + 2 then w.extractLsb' 16 8 else if j = k + 3 then w.extractLsb' 24 8 else s.tbByte j)) ∧
  (∀ (s u : State) (k : Nat) (width : Width), Next s (.read (0x2000 + k) width) u → s.status.busy = false → k < 8192 →
    k % (match width with | .w8 => 1 | .w16 => 2 | .w32 => 4) = 0 →
    ∃ t d, step s = .next t ∧ t.response = some (.data d) ∧
      (match d with
        | .b8 b => width = .w8 ∧ b.toNat = (s.tbByte k).toNat
        | .b16 h => width = .w16 ∧ h.toNat = (s.tbByte k).toNat + 2 ^ 8 * (s.tbByte (k + 1)).toNat
        | .b32 w => width = .w32 ∧ w.toNat = (s.tbByte k).toNat + 2 ^ 8 * (s.tbByte (k + 1)).toNat +
            2 ^ 16 * (s.tbByte (k + 2)).toNat + 2 ^ 24 * (s.tbByte (k + 3)).toNat))

/-- 10_state.md R45: a write to CMD while BUSY = 0 is accepted, whatever the word: CMD, BUSY and DONE change and nothing else; while
BUSY = 1 it is dropped and sets COLL; a read of CMD returns the last accepted word, 0 after reset. -/
def Obligations.CommandWriteIsAccepted : Prop :=
  (∀ (s u : State) (w : BusWord), Next s (.write 0x00C (.b32 w)) u → s.status.busy = false →
    ∃ t, step s = .next t ∧ t.response = some .okay ∧ t.cmd = w ∧
      t.status = ⟨true, false, s.status.err, s.status.coll, s.status.cause⟩ ∧
      (∀ r, t.x r = s.x r) ∧ (∀ k, t.tbByte k = s.tbByte k) ∧ t.tlen = s.tlen ∧ t.ctrl = s.ctrl ∧ t.env = u.env ∧
      t.epoch = s.epoch) ∧
  (∀ (s u : State) (w : BusWord), Next s (.write 0x00C (.b32 w)) u → s.status.busy = true →
    ∃ t, step s = .next t ∧ t.response = some .okay ∧ SameUnit { u with status := { s.status with coll := true } } t) ∧
  (∀ s u : State, Next s (.read 0x00C .w32) u → ∃ t, step s = .next t ∧ t.response = some (.data (.b32 s.cmd))) ∧
  State.reset.cmd = 0#32

/-- 20_memory.md R73: while BUSY = 1 a write to CMD, TLEN, a register word or TB is dropped with an OKAY response and sets COLL; a
read of TLEN, a register word or TB answers some data and changes nothing; ID, CTRL, STATUS and the reserved offsets are read and
written as when idle, and a read of CMD returns the command in flight. -/
def Obligations.BusyWritesAreDropped : Prop :=
  ∀ (s u : State), s.status.busy = true →
    let slot := fun off => ∃ r : RegNo, off = 0x100 + 16 * r.toNat ∨ off = 0x104 + 16 * r.toNat ∨ off = 0x108 + 16 * r.toNat
    let reserved := fun off => (0x014 ≤ off ∧ off < 0x100) ∨ (∃ r : RegNo, off = 0x10C + 16 * r.toNat) ∨
      (0x200 ≤ off ∧ off < 0x2000)
    let aligned := fun (off : Nat) (width : Width) => off % (match width with | .w8 => 1 | .w16 => 2 | .w32 => 4) = 0
    (∀ (off : Nat) (d : BusData), Next s (.write off d) u →
      (((off = 0x00C ∨ off = 0x010 ∨ slot off) ∧ d.width = .w32) ∨ (0x2000 ≤ off ∧ off < 0x4000 ∧ aligned off d.width)) →
      ∃ t, step s = .next t ∧ t.response = some .okay ∧ SameUnit { u with status := { u.status with coll := true } } t) ∧
    (∀ (off : Nat) (width : Width), Next s (.read off width) u →
      (((off = 0x010 ∨ slot off) ∧ width = .w32) ∨ (0x2000 ≤ off ∧ off < 0x4000 ∧ aligned off width)) →
      ∃ t d, step s = .next t ∧ t.response = some (.data d) ∧ d.width = width ∧ SameUnit u t) ∧
    (∀ w : BusWord, Next s (.write 0x004 (.b32 w)) u →
      ∃ t, step s = .next t ∧ t.response = some .okay ∧ SameUnit { u with ctrl := ⟨w.getLsbD 0, w.getLsbD 1⟩ } t) ∧
    (∀ w : BusWord, Next s (.write 0x008 (.b32 w)) u →
      ∃ t, step s = .next t ∧ t.response = some .okay ∧
        SameUnit { u with status := ⟨true, s.status.done && !w.getLsbD 1, s.status.err && !w.getLsbD 2,
          s.status.coll && !w.getLsbD 3, s.status.cause⟩ } t) ∧
    (∀ (off : Nat) (w : BusWord), Next s (.write off (.b32 w)) u → off % 4 = 0 → off = 0x000 ∨ reserved off →
      ∃ t, step s = .next t ∧ t.response = some .okay ∧ SameUnit u t) ∧
    (∀ off : Nat, Next s (.read off .w32) u → off % 4 = 0 →
      off = 0x000 ∨ off = 0x004 ∨ off = 0x008 ∨ off = 0x00C ∨ reserved off →
      ∃ t w, step s = .next t ∧ t.response = some (.data (.b32 w)) ∧ SameUnit u t ∧
        (off = 0x000 → w = 0x4E430100#32) ∧
        (off = 0x004 → w.toNat = s.ctrl.ieDone.toNat + 2 * s.ctrl.ieErr.toNat) ∧
        (off = 0x008 → w.toNat = 1 + 2 * s.status.done.toNat + 4 * s.status.err.toNat + 8 * s.status.coll.toNat +
          256 * s.status.cause.code.toNat) ∧
        (off = 0x00C → w = s.cmd) ∧ (reserved off → w = 0#32))

/-- 10_state.md R48, which the spec derives from R45 and R73: while a command is in flight no host access
changes its word or its operands, and the command stays in flight. -/
def Obligations.InFlightOperandsAreFixed : Prop :=
  ∀ (s u : State) (e : Event), s.status.busy = true → Next s e u →
    (∃ off, off < 0x4000 ∧ ((∃ width, e = .read off width) ∨ ∃ d, e = .write off d)) →
    ∃ t, step s = .next t ∧ t.cmd = s.cmd ∧ (∀ r, t.x r = s.x r) ∧ (∀ k, t.tbByte k = s.tbByte k) ∧ t.tlen = s.tlen ∧
      t.text = s.text ∧ t.status.busy = true

/-- 60_exceptions.md R331: the value of IRQ in every state; then what it is after a command's completion, after an acknowledgement in
STATUS, after a write of the enables in CTRL, after an acceptance, which clears DONE's term and not ERR's, and after reset. -/
def Obligations.InterruptLineFollowsDoneAndErr : Prop :=
  (∀ s : State, s.irq = true ↔
    (s.ctrl.ieDone = true ∧ s.status.done = true) ∨ (s.ctrl.ieErr = true ∧ s.status.err = true)) ∧
  (∀ (i : Instr) (s t : State), exec i s = .next t →
    t.irq = (s.ctrl.ieDone || (s.ctrl.ieErr && (s.status.err || decide (t.status.cause ≠ .none))))) ∧
  (∀ (s u : State) (w : BusWord), Next s (.write 0x008 (.b32 w)) u →
    ∃ t, step s = .next t ∧
      t.irq = ((s.ctrl.ieDone && s.status.done && !w.getLsbD 1) || (s.ctrl.ieErr && s.status.err && !w.getLsbD 2))) ∧
  (∀ (s u : State) (w : BusWord), Next s (.write 0x004 (.b32 w)) u →
    ∃ t, step s = .next t ∧ t.irq = ((w.getLsbD 0 && s.status.done) || (w.getLsbD 1 && s.status.err))) ∧
  (∀ (s u : State) (w : BusWord), Next s (.write 0x00C (.b32 w)) u → s.status.busy = false →
    ∃ t, step s = .next t ∧ t.irq = (s.ctrl.ieErr && s.status.err)) ∧
  State.reset.irq = false

/-- 70_reset_and_hazards.md R361, R362, 10_state.md R52: reset at any moment, a busy period included, leaves every register {0, 0},
TLEN, CTRL, STATUS and CMD zero, IRQ 0 and no command in flight; ID still reads its constant. That the events still to come survive
the reset (`t.env = u.env`) is the model's choice (log 18), which R372's "followed by the later accesses only" supports. -/
def Obligations.ResetClearsTheUnit : Prop :=
  ∀ s u : State, Next s .reset u →
    ∃ t, step s = .next t ∧ (∀ r, t.x r = ⟨0#64, false⟩) ∧ t.tlen = 0#14 ∧ t.ctrl = ⟨false, false⟩ ∧
      t.status = ⟨false, false, false, false, .none⟩ ∧ t.cmd = 0#32 ∧ t.irq = false ∧ t.clean = true ∧ t.env = u.env ∧
      (∀ v, Next t (.read 0x000 .w32) v → ∃ t', step t = .next t' ∧ t'.response = some (.data (.b32 0x4E430100#32)))

/-! ### The invariant -/

/-- The invariant of the machine (the model's own, log 3) and the clean start of 70_reset_and_hazards.md R371 hold right after reset,
and the text buffer holds a draw of the reset numbered by `epoch`, a free value (log 3). -/
def Obligations.ResetIsCleanAndKeepsInvariant : Prop :=
  State.reset.Inv ∧ State.reset.clean = true ∧ State.reset.irq = false ∧ (∀ r, State.reset.x r = ⟨0#64, false⟩) ∧
    State.reset.tlen = 0#14 ∧ State.reset.cmd = 0#32 ∧ (∀ k, State.reset.tbByte k = Config.tbReset 0 k) ∧
    (∀ s u : State, Next s .reset u → ∃ t, step s = .next t ∧ t.Inv ∧ ∀ k, t.tbByte k = Config.tbReset (s.epoch + 1) k)

/-- Every step, whatever the host does, keeps the invariant: TB in canonical form (log 3), TLEN at most 8192 (10_state.md R31), DONE
0 while BUSY is 1 (10_state.md R43). -/
def Obligations.StepKeepsInvariant : Prop := ∀ s t : State, s.Inv → step s = .next t → t.Inv
end

