-- ==== Sys2Proof/Laws/Memory.lean ====
section
/-! SUPPORT. The laws of the text buffer's list: a read after a write, and that every operation keeps the canonical form. -/

namespace Sys2Proof.Machine

/-- Writing one index changes what that index reads as, and no other. -/
@[simp] theorem Memory.read_write (m : Memory) (k j : Nat) (b : Byte) :
    Memory.read (Memory.write m k b) j = if j = k then some b else Memory.read m j := by
  induction m with
  | nil =>
    simp only [Memory.write, Memory.read, eq_comm]
  | cons c m ih =>
    obtain ⟨a, d⟩ := c
    by_cases h1 : k < a
    · simp only [Memory.write, h1, if_true, Memory.read]
      by_cases hj : k = j <;> simp [hj, eq_comm]
    · by_cases h2 : k = a
      · subst h2
        simp only [Memory.write, Nat.lt_irrefl, if_false, if_true, Memory.read]
        by_cases hj : k = j <;> simp [hj, eq_comm]
      · simp only [Memory.write, h1, h2, if_false, Memory.read]
        rw [ih]
        by_cases hj : a = j
        · subst hj; simp [Ne.symm h2]
        · simp [hj]

/-- A write below TB_SIZE, at or after the bound, keeps the form. -/
theorem Memory.wfFrom_write (m : Memory) (k : Nat) (b : Byte) (lo : Nat) (h : Memory.wfFrom lo m = true)
    (hlo : lo ≤ k) (hk : k < Config.tbSize) : Memory.wfFrom lo (Memory.write m k b) = true := by
  induction m generalizing lo with
  | nil => simp [Memory.write, Memory.wfFrom, hlo, hk]
  | cons c m ih =>
    obtain ⟨a, d⟩ := c
    simp only [Memory.wfFrom, Bool.and_eq_true, decide_eq_true_eq] at h
    by_cases h1 : k < a
    · simp only [Memory.write, h1, if_true, Memory.wfFrom, Bool.and_eq_true, decide_eq_true_eq]
      exact ⟨⟨hlo, hk⟩, ⟨h1, h.1.2⟩, h.2⟩
    · by_cases h2 : k = a
      · subst h2
        simp only [Memory.write, Nat.lt_irrefl, if_false, if_true, Memory.wfFrom, Bool.and_eq_true, decide_eq_true_eq]
        exact ⟨⟨hlo, hk⟩, h.2⟩
      · simp only [Memory.write, h1, h2, if_false, Memory.wfFrom, Bool.and_eq_true, decide_eq_true_eq]
        exact ⟨h.1, ih _ h.2 (by omega)⟩

/-- A write below TB_SIZE keeps the canonical form. -/
theorem Memory.wf_write (m : Memory) (k : Nat) (b : Byte) (h : Memory.wf m = true) (hk : k < Config.tbSize) :
    Memory.wf (Memory.write m k b) = true :=
  Memory.wfFrom_write m k b 0 h (Nat.zero_le _) hk

/-- Writing bytes inside TB keeps the canonical form. -/
theorem Memory.wf_writeAll (m : Memory) (k : Nat) (bs : List Byte) (h : Memory.wf m = true)
    (hk : k + bs.length ≤ Config.tbSize) : Memory.wf (Memory.writeAll m k bs) = true := by
  induction bs generalizing m k with
  | nil => simpa [Memory.writeAll] using h
  | cons b bs ih =>
    simp only [List.length_cons] at hk
    exact ih _ _ (Memory.wf_write m k b h (by omega)) (by omega)

/-- What an index reads as after bytes were written from `k`: the byte written there, and elsewhere what it read as before. -/
theorem Memory.read_writeAll (m : Memory) (k : Nat) (bs : List Byte) (j : Nat) :
    Memory.read (Memory.writeAll m k bs) j =
      if k ≤ j ∧ j < k + bs.length then bs[j - k]? else Memory.read m j := by
  induction bs generalizing m k with
  | nil =>
    rw [if_neg (by rintro ⟨h1, h2⟩; rw [List.length_nil] at h2; omega)]
    rfl
  | cons b bs ih =>
    simp only [Memory.writeAll, List.length_cons]
    rw [ih, Memory.read_write]
    by_cases h1 : j = k
    · subst h1
      rw [if_neg (by omega), if_pos rfl, if_pos (by omega)]
      simp
    · by_cases h2 : k + 1 ≤ j ∧ j < k + 1 + bs.length
      · rw [if_pos h2, if_pos (by omega), show j - k = (j - (k + 1)) + 1 by omega]
        simp
      · rw [if_neg h2, if_neg h1, if_neg (by omega)]

end Sys2Proof.Machine
end

