-- ==== Sys2Proof/Laws/State.lean ====
section
/-! SUPPORT. One lemma per field per state update, each true by rfl. -/

namespace Sys2Proof.Machine

@[simp] theorem State.setX_regs (s : State) (r : RegNo) (a : Reg) : (s.setX r a).regs = s.regs.set r.toNat a r.isLt := rfl
@[simp] theorem State.setX_tb (s : State) (r : RegNo) (a : Reg) : (s.setX r a).tb = s.tb := rfl
@[simp] theorem State.setX_tlen (s : State) (r : RegNo) (a : Reg) : (s.setX r a).tlen = s.tlen := rfl
@[simp] theorem State.setX_ctrl (s : State) (r : RegNo) (a : Reg) : (s.setX r a).ctrl = s.ctrl := rfl
@[simp] theorem State.setX_status (s : State) (r : RegNo) (a : Reg) : (s.setX r a).status = s.status := rfl
@[simp] theorem State.setX_cmd (s : State) (r : RegNo) (a : Reg) : (s.setX r a).cmd = s.cmd := rfl
@[simp] theorem State.setX_env (s : State) (r : RegNo) (a : Reg) : (s.setX r a).env = s.env := rfl
@[simp] theorem State.setX_response (s : State) (r : RegNo) (a : Reg) : (s.setX r a).response = s.response := rfl
@[simp] theorem State.setX_epoch (s : State) (r : RegNo) (a : Reg) : (s.setX r a).epoch = s.epoch := rfl
@[simp] theorem State.setX_draws (s : State) (r : RegNo) (a : Reg) : (s.setX r a).draws = s.draws := rfl

@[simp] theorem State.setPair_tb (s : State) (r : RegNo) (q : Quad) : (s.setPair r q).tb = s.tb := rfl
@[simp] theorem State.setPair_tlen (s : State) (r : RegNo) (q : Quad) : (s.setPair r q).tlen = s.tlen := rfl
@[simp] theorem State.setPair_ctrl (s : State) (r : RegNo) (q : Quad) : (s.setPair r q).ctrl = s.ctrl := rfl
@[simp] theorem State.setPair_status (s : State) (r : RegNo) (q : Quad) : (s.setPair r q).status = s.status := rfl
@[simp] theorem State.setPair_cmd (s : State) (r : RegNo) (q : Quad) : (s.setPair r q).cmd = s.cmd := rfl
@[simp] theorem State.setPair_env (s : State) (r : RegNo) (q : Quad) : (s.setPair r q).env = s.env := rfl
@[simp] theorem State.setPair_response (s : State) (r : RegNo) (q : Quad) : (s.setPair r q).response = s.response := rfl
@[simp] theorem State.setPair_epoch (s : State) (r : RegNo) (q : Quad) : (s.setPair r q).epoch = s.epoch := rfl
@[simp] theorem State.setPair_draws (s : State) (r : RegNo) (q : Quad) : (s.setPair r q).draws = s.draws := rfl

@[simp] theorem State.setText_regs (s : State) (out : List Byte) : (s.setText out).regs = s.regs := rfl
@[simp] theorem State.setText_tb (s : State) (out : List Byte) : (s.setText out).tb = Memory.writeAll s.tb 0 out := rfl
@[simp] theorem State.setText_tlen (s : State) (out : List Byte) : (s.setText out).tlen = BitVec.ofNat 14 out.length := rfl
@[simp] theorem State.setText_ctrl (s : State) (out : List Byte) : (s.setText out).ctrl = s.ctrl := rfl
@[simp] theorem State.setText_status (s : State) (out : List Byte) : (s.setText out).status = s.status := rfl
@[simp] theorem State.setText_cmd (s : State) (out : List Byte) : (s.setText out).cmd = s.cmd := rfl
@[simp] theorem State.setText_env (s : State) (out : List Byte) : (s.setText out).env = s.env := rfl
@[simp] theorem State.setText_response (s : State) (out : List Byte) : (s.setText out).response = s.response := rfl
@[simp] theorem State.setText_epoch (s : State) (out : List Byte) : (s.setText out).epoch = s.epoch := rfl
@[simp] theorem State.setText_draws (s : State) (out : List Byte) : (s.setText out).draws = s.draws := rfl

@[simp] theorem State.finish_regs (s : State) (c : Cause) : (s.finish c).regs = s.regs := rfl
@[simp] theorem State.finish_tb (s : State) (c : Cause) : (s.finish c).tb = s.tb := rfl
@[simp] theorem State.finish_tlen (s : State) (c : Cause) : (s.finish c).tlen = s.tlen := rfl
@[simp] theorem State.finish_ctrl (s : State) (c : Cause) : (s.finish c).ctrl = s.ctrl := rfl
@[simp] theorem State.finish_status (s : State) (c : Cause) : (s.finish c).status = s.status.finish c := rfl
@[simp] theorem State.finish_cmd (s : State) (c : Cause) : (s.finish c).cmd = s.cmd := rfl
@[simp] theorem State.finish_env (s : State) (c : Cause) : (s.finish c).env = s.env := rfl
@[simp] theorem State.finish_response (s : State) (c : Cause) : (s.finish c).response = s.response := rfl
@[simp] theorem State.finish_epoch (s : State) (c : Cause) : (s.finish c).epoch = s.epoch := rfl
@[simp] theorem State.finish_draws (s : State) (c : Cause) : (s.finish c).draws = s.draws := rfl

@[simp] theorem State.acceptCommand_regs (s : State) (w : BusWord) : (s.acceptCommand w).regs = s.regs := rfl
@[simp] theorem State.acceptCommand_tb (s : State) (w : BusWord) : (s.acceptCommand w).tb = s.tb := rfl
@[simp] theorem State.acceptCommand_tlen (s : State) (w : BusWord) : (s.acceptCommand w).tlen = s.tlen := rfl
@[simp] theorem State.acceptCommand_ctrl (s : State) (w : BusWord) : (s.acceptCommand w).ctrl = s.ctrl := rfl
@[simp] theorem State.acceptCommand_status (s : State) (w : BusWord) : (s.acceptCommand w).status = s.status.accept := rfl
@[simp] theorem State.acceptCommand_cmd (s : State) (w : BusWord) : (s.acceptCommand w).cmd = w := rfl
@[simp] theorem State.acceptCommand_env (s : State) (w : BusWord) : (s.acceptCommand w).env = s.env := rfl
@[simp] theorem State.acceptCommand_response (s : State) (w : BusWord) : (s.acceptCommand w).response = s.response := rfl
@[simp] theorem State.acceptCommand_epoch (s : State) (w : BusWord) : (s.acceptCommand w).epoch = s.epoch := rfl
@[simp] theorem State.acceptCommand_draws (s : State) (w : BusWord) : (s.acceptCommand w).draws = s.draws := rfl

@[simp] theorem State.platformReset_regs (s : State) : (s.platformReset).regs = State.reset.regs := rfl
@[simp] theorem State.platformReset_tb (s : State) : (s.platformReset).tb = [] := rfl
@[simp] theorem State.platformReset_tlen (s : State) : (s.platformReset).tlen = 0#14 := rfl
@[simp] theorem State.platformReset_ctrl (s : State) : (s.platformReset).ctrl = ⟨false, false⟩ := rfl
@[simp] theorem State.platformReset_status (s : State) : (s.platformReset).status = ⟨false, false, false, false, .none⟩ := rfl
@[simp] theorem State.platformReset_cmd (s : State) : (s.platformReset).cmd = 0#32 := rfl
@[simp] theorem State.platformReset_env (s : State) : (s.platformReset).env = s.env := rfl
@[simp] theorem State.platformReset_response (s : State) : (s.platformReset).response = none := rfl
@[simp] theorem State.platformReset_epoch (s : State) : (s.platformReset).epoch = s.epoch + 1 := rfl
@[simp] theorem State.platformReset_draws (s : State) : (s.platformReset).draws = s.draws := rfl

@[simp] theorem Status.accept_busy (t : Status) : (t.accept).busy = true := rfl
@[simp] theorem Status.accept_done (t : Status) : (t.accept).done = false := rfl
@[simp] theorem Status.accept_err (t : Status) : (t.accept).err = t.err := rfl
@[simp] theorem Status.accept_coll (t : Status) : (t.accept).coll = t.coll := rfl
@[simp] theorem Status.accept_cause (t : Status) : (t.accept).cause = t.cause := rfl

@[simp] theorem Status.collide_busy (t : Status) : (t.collide).busy = t.busy := rfl
@[simp] theorem Status.collide_done (t : Status) : (t.collide).done = t.done := rfl
@[simp] theorem Status.collide_err (t : Status) : (t.collide).err = t.err := rfl
@[simp] theorem Status.collide_coll (t : Status) : (t.collide).coll = true := rfl
@[simp] theorem Status.collide_cause (t : Status) : (t.collide).cause = t.cause := rfl

@[simp] theorem Status.clear_busy (t : Status) (w : BusWord) : (t.clear w).busy = t.busy := rfl
@[simp] theorem Status.clear_done (t : Status) (w : BusWord) : (t.clear w).done = (t.done && !w.getLsbD 1) := rfl
@[simp] theorem Status.clear_err (t : Status) (w : BusWord) : (t.clear w).err = (t.err && !w.getLsbD 2) := rfl
@[simp] theorem Status.clear_coll (t : Status) (w : BusWord) : (t.clear w).coll = (t.coll && !w.getLsbD 3) := rfl
@[simp] theorem Status.clear_cause (t : Status) (w : BusWord) : (t.clear w).cause = t.cause := rfl

@[simp] theorem Status.finish_busy (t : Status) (c : Cause) : (t.finish c).busy = false := rfl
@[simp] theorem Status.finish_done (t : Status) (c : Cause) : (t.finish c).done = true := rfl
@[simp] theorem Status.finish_err (t : Status) (c : Cause) : (t.finish c).err = (t.err || c != .none) := rfl
@[simp] theorem Status.finish_coll (t : Status) (c : Cause) : (t.finish c).coll = t.coll := rfl
@[simp] theorem Status.finish_cause (t : Status) (c : Cause) : (t.finish c).cause = c := rfl

end Sys2Proof.Machine
end

