-- ==== Sys2Proof/Laws/Ops.lean ====
section
/-! SUPPORT. What the shared operations do: reading a register, a pair and the text buffer after a write, the two ends of a
command, and the shapes WritesRegs, WritesText and Raises that a meaning's next state has. -/

namespace Sys2Proof.Machine

/-! ### Registers -/

/-- Writing one register changes that register and no other. -/
@[simp] theorem State.x_setX (s : State) (r j : RegNo) (a : Reg) : (s.setX r a).x j = if j = r then a else s.x j := by
  simp only [State.x, State.setX, Vector.getElem_set, BitVec.toNat_eq, eq_comm]

/-- A pair's two registers are different. -/
@[simp] theorem highReg_ne (r : RegNo) : highReg r ≠ r := by revert r; decide

/-- A pair's two registers are different. -/
@[simp] theorem ne_highReg (r : RegNo) : r ≠ highReg r := (highReg_ne r).symm

/-- Writing a pair writes its two halves with tag 1, and no other register. -/
@[simp] theorem State.x_setPair (s : State) (r j : RegNo) (q : Quad) :
    (s.setPair r q).x j =
      if j = highReg r then ⟨q.extractLsb' 64 64, true⟩ else if j = r then ⟨q.extractLsb' 0 64, true⟩ else s.x j := by
  simp [State.setPair]

/-- The two halves of a 128-bit value, put together, are the value. -/
theorem append_halves (q : Quad) : q.extractLsb' 64 64 ++ q.extractLsb' 0 64 = q := by
  ext i hi
  simp only [BitVec.getElem_append, BitVec.getElem_extractLsb']
  split
  · simp [BitVec.getLsbD_eq_getElem hi]
  · rw [show 64 + (i - 64) = i by omega, BitVec.getLsbD_eq_getElem hi]

/-- A pair reads back what was written to it. -/
@[simp] theorem State.pair_setPair (s : State) (r : RegNo) (q : Quad) : (s.setPair r q).pair r = q := by
  simp [State.pair, append_halves]

/-- Reading a register does not depend on STATUS. -/
@[simp] theorem State.x_finish (s : State) (c : Cause) (r : RegNo) : (s.finish c).x r = s.x r := rfl

/-- Writing a text changes no register. -/
@[simp] theorem State.x_setText (s : State) (out : List Byte) (r : RegNo) : (s.setText out).x r = s.x r := rfl

/-! ### The text buffer -/

/-- Reading TB depends on the written bytes and the reset draw alone. -/
theorem State.tbByte_congr (s t : State) (htb : t.tb = s.tb) (hep : t.epoch = s.epoch) (k : Nat) : t.tbByte k = s.tbByte k := by
  simp [State.tbByte, htb, hep]

/-- A text written from TB[0] is read there, and the bytes after it read as before. -/
theorem State.tbByte_setText (s : State) (out : List Byte) (k : Nat) :
    (s.setText out).tbByte k = (out[k]?).getD (s.tbByte k) := by
  simp only [State.tbByte, State.setText_tb, State.setText_epoch, Memory.read_writeAll, Nat.zero_le, true_and,
    Nat.zero_add, Nat.sub_zero]
  by_cases h : k < out.length
  · simp [h]
  · simp [h]

/-- A byte of a text that was written. -/
theorem State.tbByte_setText_inside (s : State) (out : List Byte) (k : Nat) (b : Byte) (h : out[k]? = some b) :
    (s.setText out).tbByte k = b := by
  simp [State.tbByte_setText, h]

/-- A byte after a text that was written. -/
theorem State.tbByte_setText_outside (s : State) (out : List Byte) (k : Nat) (h : out.length ≤ k) :
    (s.setText out).tbByte k = s.tbByte k := by
  rw [State.tbByte_setText, List.getElem?_eq_none h, Option.getD_none]

/-- The text's length is TLEN. -/
@[simp] theorem State.length_text (s : State) : s.text.length = s.tlen.toNat := by simp [State.text]

/-- The text of a command right after a text was written is that text. -/
theorem State.text_setText (s : State) (out : List Byte) (h : out.length < 2 ^ 14) : (s.setText out).text = out := by
  apply List.ext_getElem
  · rw [State.length_text, State.setText_tlen, BitVec.toNat_ofNat, Nat.mod_eq_of_lt h]
  · intro k h1 h2
    simp only [State.text, List.getElem_map, List.getElem_range]
    exact State.tbByte_setText_inside s out k _ (List.getElem?_eq_getElem h2)

/-- The text depends on TLEN and the bytes of TB alone. -/
theorem State.text_congr (s t : State) (hl : t.tlen = s.tlen) (hb : ∀ k, t.tbByte k = s.tbByte k) : t.text = s.text := by
  simp only [State.text, hl]
  exact List.map_congr_left (fun k _ => hb k)

/-- Completion leaves the text. -/
@[simp] theorem State.text_finish (s : State) (c : Cause) : (s.finish c).text = s.text := rfl

/-- A text is empty exactly when TLEN is 0. -/
theorem State.text_eq_nil (s : State) : s.text = [] ↔ s.tlen = 0#14 := by
  rw [← List.length_eq_zero_iff, State.length_text, BitVec.toNat_eq]
  simp

/-! ### The two ends of a command -/

/-- `succeed` answers its state with the completion's STATUS, cause NONE. -/
theorem succeed_eq_next (s t : State) : succeed s = .next t ↔ t = s.finish .none := by
  simp [succeed, eq_comm]

/-- `raise` answers its state with the completion's STATUS and the cause. -/
theorem raise_eq_next (c : Cause) (s t : State) : raise c s = .next t ↔ t = s.finish c := by
  simp [raise, eq_comm]

/-- STATUS after a completion. -/
theorem completed_finish (s u : State) (c : Cause) (h : u.status = s.status) : Completed c s (u.finish c) := by
  constructor <;> simp [h]
  cases c <;> simp

/-- What a command that raises `c` leaves. -/
theorem raises_finish (s : State) (c : Cause) : Raises c s (s.finish c) where
  done := completed_finish s s c rfl
  same := ⟨fun _ _ => rfl, rfl, rfl, rfl, rfl, rfl, rfl⟩
  text := ⟨rfl, fun _ => rfl⟩

/-- What a command leaves that writes one register and succeeds. -/
theorem writesRegs_setX (s : State) (r : RegNo) (a : Reg) : WritesRegs [r] s ((s.setX r a).finish .none) where
  done := completed_finish s _ _ rfl
  same := ⟨fun j hj => by simp at hj; simp [hj], rfl, rfl, rfl, rfl, rfl, rfl⟩
  text := ⟨rfl, fun _ => rfl⟩

/-- What a command leaves that writes a pair and succeeds. -/
theorem writesRegs_setPair (s : State) (r : RegNo) (q : Quad) :
    WritesRegs [r, highReg r] s ((s.setPair r q).finish .none) where
  done := completed_finish s _ _ rfl
  same := ⟨fun j hj => by simp at hj; simp [hj], rfl, rfl, rfl, rfl, rfl, rfl⟩
  text := ⟨rfl, fun _ => rfl⟩

/-- What a command leaves that writes a pair, then a register, and succeeds. -/
theorem writesRegs_setPair_setX (s : State) (r d : RegNo) (q : Quad) (a : Reg) :
    WritesRegs [r, highReg r, d] s (((s.setPair r q).setX d a).finish .none) where
  done := completed_finish s _ _ rfl
  same := ⟨fun j hj => by simp at hj; simp [hj], rfl, rfl, rfl, rfl, rfl, rfl⟩
  text := ⟨rfl, fun _ => rfl⟩

/-- What a command leaves that writes a text and succeeds. -/
theorem writesText_setText (s : State) (out : List Byte) (h : out.length < 2 ^ 14) :
    WritesText out s ((s.setText out).finish .none) where
  done := completed_finish s _ _ rfl
  same := ⟨fun _ _ => rfl, rfl, rfl, rfl, rfl, rfl, rfl⟩
  tlen := by
    show (BitVec.ofNat 14 out.length).toNat = out.length
    rw [BitVec.toNat_ofNat, Nat.mod_eq_of_lt h]
  inside := fun k b hb => State.tbByte_setText_inside s out k b hb
  outside := fun k hk => State.tbByte_setText_outside s out k hk

/-- After a command that writes a text, that text is the text of the next command (70_reset_and_hazards.md R368). -/
theorem WritesText.text_eq {out : List Byte} {s t : State} (h : WritesText out s t) : t.text = out := by
  apply List.ext_getElem
  · simp [h.tlen]
  · intro k h1 h2
    simp only [State.text, List.getElem_map, List.getElem_range]
    exact h.inside k _ (List.getElem?_eq_getElem h2)

/-- Every end of a parse is a success that writes the pair, or the cause it failed with. -/
theorem finishParse_eq_next (rd : RegNo) (s t : State) (p : Parsed Quad) :
    finishParse rd s p = .next t ↔
      (∃ q, p = .value q ∧ t = (s.setPair rd q).finish .none) ∨ (∃ c, p = .fails c ∧ t = s.finish c) := by
  cases p <;> simp [finishParse, succeed_eq_next, raise_eq_next]

end Sys2Proof.Machine
end

