-- ==== Sys2Proof/Laws/Unit.lean ====
section
/-! SUPPORT. What a host access and a step can do. -/

namespace Sys2Proof.Machine

/-- A host read that answers changes the response and the count of open values alone (20_memory.md R68). -/
theorem hostRead_next {off : Nat} {w : Width} {s t : State} (h : hostRead off w s = .next t) :
    off < Config.windowSize ∧ ∃ r d, t = { s with response := some r, draws := d } := by
  unfold hostRead at h
  split at h
  · cases h
  · next hw =>
    refine ⟨by omega, ?_⟩
    split at h
    · cases h; exact ⟨_, _, rfl⟩
    · split at h
      · cases h; exact ⟨_, _, rfl⟩
      · cases h; exact ⟨_, s.draws, rfl⟩

/-- A host write that answers was inside the window, and was refused with BUS_ERROR, dropped with COLL, or took effect
(20_memory.md R65, R73). -/
theorem hostWrite_next {off : Nat} {d : BusData} {s t : State} (h : hostWrite off d s = .next t) :
    off < Config.windowSize ∧
      ((accessOk off d.width = false ∧ t = { s with response := some (.busError none) }) ∨
       (accessOk off d.width = true ∧ s.status.busy = true ∧ busyDropAt off = true ∧
          t = { s with status := s.status.collide, response := some .okay }) ∨
       (accessOk off d.width = true ∧ (s.status.busy = true → busyDropAt off = false) ∧
          t = { writeData s off d with response := some .okay })) := by
  unfold hostWrite at h
  split at h
  · cases h
  · next hw =>
    refine ⟨by omega, ?_⟩
    split at h
    · next ha => cases h; exact .inl ⟨ha, rfl⟩
    · next ha =>
      have ha : accessOk off d.width = true := by simpa using ha
      split at h
      · next hb => cases h; simp at hb; exact .inr (.inl ⟨ha, hb.1, hb.2, rfl⟩)
      · next hb => cases h; simp at hb; exact .inr (.inr ⟨ha, hb, rfl⟩)

/-- A completion that answers ran the command in flight, raised ILLEGAL for a word that spells none, or found none
(70_reset_and_hazards.md R365). -/
theorem completion_next {s t : State} (h : completion s = .next t) :
    (s.status.busy = true ∧ ∃ i, decode s.cmd = .command i ∧ exec i s = .next t) ∨
    (s.status.busy = true ∧ ∃ e, decode s.cmd = .rejected e ∧ t = s.finish .illegal) ∨
    (s.status.busy = false ∧ t = s) := by
  unfold completion runCommand State.fetch at h
  split at h
  · next hb =>
    split at h
    · next i hd => exact .inl ⟨hb, i, hd, h⟩
    · next e hd => exact .inr (.inl ⟨hb, e, hd, (raise_eq_next _ _ _).mp h⟩)
  · next hb => cases h; exact .inr (.inr ⟨by simpa using hb, rfl⟩)

/-- A delivered event that answers was an access, a completion, a completion with a STATUS write after it, or a reset. -/
theorem deliver_next {e : Event} {s t : State} (h : deliver e s = .next t) :
    (∃ off w, e = .read off w ∧ hostRead off w s = .next t) ∨
    (∃ off d, e = .write off d ∧ hostWrite off d s = .next t) ∨
    (e = .complete ∧ completion s = .next t) ∨
    (∃ w u, e = .completeWithStatusWrite w ∧ completion s = .next u ∧ t = statusWrite w u) ∨
    (e = .reset ∧ t = s.platformReset) := by
  cases e with
  | read off w => exact .inl ⟨off, w, rfl, h⟩
  | write off d => exact .inr (.inl ⟨off, d, rfl, h⟩)
  | complete => exact .inr (.inr (.inl ⟨rfl, h⟩))
  | completeWithStatusWrite w =>
    simp only [deliver, andThen] at h
    split at h
    · next u hu => cases h; exact .inr (.inr (.inr (.inl ⟨w, u, rfl, hu, rfl⟩)))
    · cases h
    · cases h
  | reset => cases h; exact .inr (.inr (.inr (.inr ⟨rfl, rfl⟩)))

/-- A step that answers delivered the next event, or with none left completed the command in flight. -/
theorem step_next {s t : State} (h : step s = .next t) :
    (s.env = [] ∧ completion s = .next t) ∨ (∃ e rest, s.env = e :: rest ∧ deliver e { s with env := rest } = .next t) := by
  unfold step unitStep at h
  split at h
  · next he => exact .inl ⟨he, h⟩
  · next e rest he => exact .inr ⟨e, rest, he, h⟩

end Sys2Proof.Machine
end

