-- ==== Sys2Proof/Laws/Bus.lean ====
section
/-! SUPPORT. The map of the register region, the words of CTRL and STATUS, and the halves of a register's pattern. -/

namespace Sys2Proof.Machine

/-- A register slot's number, from an offset inside the slot (10_state.md R46). -/
theorem slotReg_offset (r : RegNo) (k : Nat) (hk : k < 16) : slotReg (0x100 + k + 16 * r.toNat) = r := by
  unfold slotReg
  rw [show (0x100 + k + 16 * r.toNat - 0x100) / 16 = r.toNat by omega]
  simp

/-- Where LO of a register stands (10_state.md R46). -/
theorem regWordAt_lo (r : RegNo) : regWordAt (0x100 + 16 * r.toNat) = .xLo r := by
  have h := r.isLt
  have hs := slotReg_offset r 0 (by omega)
  simp only [Nat.add_zero] at hs
  unfold regWordAt
  rw [if_neg (by omega), if_neg (by omega), if_neg (by omega), if_neg (by omega), if_neg (by omega), if_pos (by omega),
    if_pos (by omega), hs]

/-- Where HI of a register stands (10_state.md R46). -/
theorem regWordAt_hi (r : RegNo) : regWordAt (0x104 + 16 * r.toNat) = .xHi r := by
  have h := r.isLt
  have hs : slotReg (0x104 + 16 * r.toNat) = r := slotReg_offset r 4 (by omega)
  unfold regWordAt
  rw [if_neg (by omega), if_neg (by omega), if_neg (by omega), if_neg (by omega), if_neg (by omega), if_pos (by omega),
    if_neg (by omega), if_pos (by omega), hs]

/-- Where FLAGS of a register stands (10_state.md R46). -/
theorem regWordAt_flags (r : RegNo) : regWordAt (0x108 + 16 * r.toNat) = .xFlags r := by
  have h := r.isLt
  have hs : slotReg (0x108 + 16 * r.toNat) = r := slotReg_offset r 8 (by omega)
  unfold regWordAt
  rw [if_neg (by omega), if_neg (by omega), if_neg (by omega), if_neg (by omega), if_neg (by omega), if_pos (by omega),
    if_neg (by omega), if_neg (by omega), if_pos (by omega), hs]

/-- The fourth word of a register slot is reserved (10_state.md R46). -/
theorem regWordAt_slot_reserved (r : RegNo) : regWordAt (0x10C + 16 * r.toNat) = .reserved := by
  have h := r.isLt
  unfold regWordAt
  rw [if_neg (by omega), if_neg (by omega), if_neg (by omega), if_neg (by omega), if_neg (by omega), if_pos (by omega),
    if_neg (by omega), if_neg (by omega), if_neg (by omega)]

/-- The offsets between TLEN and the registers, and after them, are reserved (10_state.md R47). -/
theorem regWordAt_reserved (off : Nat) (h : (0x014 ≤ off ∧ off < 0x100) ∨ 0x200 ≤ off) : regWordAt off = .reserved := by
  unfold regWordAt
  rw [if_neg (by omega), if_neg (by omega), if_neg (by omega), if_neg (by omega), if_neg (by omega), if_neg (by omega)]

/-- CTRL as a number (10_state.md R42). -/
theorem Ctrl.toNat_word (c : Ctrl) : c.word.toNat = c.ieDone.toNat + 2 * c.ieErr.toNat := by
  rcases c with ⟨a, b⟩; revert a b; decide

/-- STATUS as a number (10_state.md R43). -/
theorem Status.toNat_word (t : Status) :
    t.word.toNat = t.busy.toNat + 2 * t.done.toNat + 4 * t.err.toNat + 8 * t.coll.toNat + 256 * t.cause.code.toNat := by
  rcases t with ⟨a, b, c, d, e⟩; revert a b c d; cases e <;> decide

/-- The low half of a pattern made of two words. -/
theorem extract_append_low (a b : BusWord) : (a ++ b).extractLsb' 0 32 = b := by
  apply BitVec.eq_of_getLsbD_eq
  intro i hi
  rw [BitVec.getLsbD_extractLsb', BitVec.getLsbD_append]
  simp [hi]

/-- The high half of a pattern made of two words. -/
theorem extract_append_high (a b : BusWord) : (a ++ b).extractLsb' 32 32 = a := by
  apply BitVec.eq_of_getLsbD_eq
  intro i hi
  rw [BitVec.getLsbD_extractLsb', BitVec.getLsbD_append]
  simp [hi]

/-- A step with an event left delivers it. -/
theorem step_cons {s : State} {e : Event} {rest : List Event} (h : s.env = e :: rest) :
    step s = deliver e { s with env := rest } := by
  simp [step, unitStep, h]

/-- A step with no event left completes the command in flight, if there is one. -/
theorem step_nil {s : State} (h : s.env = []) : step s = completion s := by
  simp [step, unitStep, h]

end Sys2Proof.Machine
end

