-- ==== Sys2Proof/Laws/Decode.lean ====
section
/-! SUPPORT. The fields of an assembled command word, and the row each opcode selects. -/

namespace Sys2Proof

/-- The opcode of an assembled word. -/
@[simp] theorem fieldOpc_assemble (opc : BitVec 8) (rd rs1 rs2 : RegNo) (imm6 : BitVec 6) (uf : Bool) :
    fieldOpc (assemble opc rd rs1 rs2 imm6 uf) = opc := by
  ext i hi
  simp only [fieldOpc, assemble, BitVec.getElem_extractLsb', BitVec.getLsbD_append]
  simp [hi]

/-- RD of an assembled word. -/
@[simp] theorem fieldRd_assemble (opc : BitVec 8) (rd rs1 rs2 : RegNo) (imm6 : BitVec 6) (uf : Bool) :
    fieldRd (assemble opc rd rs1 rs2 imm6 uf) = rd := by
  ext i hi
  simp only [fieldRd, assemble, BitVec.getElem_extractLsb', BitVec.getLsbD_append]
  simp [hi]

/-- RS1 of an assembled word. -/
@[simp] theorem fieldRs1_assemble (opc : BitVec 8) (rd rs1 rs2 : RegNo) (imm6 : BitVec 6) (uf : Bool) :
    fieldRs1 (assemble opc rd rs1 rs2 imm6 uf) = rs1 := by
  ext i hi
  simp only [fieldRs1, assemble, BitVec.getElem_extractLsb', BitVec.getLsbD_append]
  rw [if_neg (by omega), if_neg (by omega), if_pos (by omega), show 12 + i - 8 - 4 = i by omega,
    BitVec.getLsbD_eq_getElem hi]

/-- RS2 of an assembled word. -/
@[simp] theorem fieldRs2_assemble (opc : BitVec 8) (rd rs1 rs2 : RegNo) (imm6 : BitVec 6) (uf : Bool) :
    fieldRs2 (assemble opc rd rs1 rs2 imm6 uf) = rs2 := by
  ext i hi
  simp only [fieldRs2, assemble, BitVec.getElem_extractLsb', BitVec.getLsbD_append]
  rw [if_neg (by omega), if_neg (by omega), if_neg (by omega), if_pos (by omega), show 16 + i - 8 - 4 - 4 = i by omega,
    BitVec.getLsbD_eq_getElem hi]

/-- IMM6 of an assembled word. -/
@[simp] theorem fieldImm6_assemble (opc : BitVec 8) (rd rs1 rs2 : RegNo) (imm6 : BitVec 6) (uf : Bool) :
    fieldImm6 (assemble opc rd rs1 rs2 imm6 uf) = imm6 := by
  ext i hi
  simp only [fieldImm6, assemble, BitVec.getElem_extractLsb', BitVec.getLsbD_append]
  rw [if_neg (by omega), if_neg (by omega), if_neg (by omega), if_neg (by omega), if_pos (by omega),
    show 20 + i - 8 - 4 - 4 - 4 = i by omega, BitVec.getLsbD_eq_getElem hi]

/-- UF of an assembled word. -/
@[simp] theorem fieldUf_assemble (opc : BitVec 8) (rd rs1 rs2 : RegNo) (imm6 : BitVec 6) (uf : Bool) :
    fieldUf (assemble opc rd rs1 rs2 imm6 uf) = uf := by
  simp only [fieldUf, assemble, BitVec.getLsbD_append]
  simp

/-- Bits [31:27] of an assembled word are 0 (30_encoding.md R91). -/
@[simp] theorem reserved_assemble (opc : BitVec 8) (rd rs1 rs2 : RegNo) (imm6 : BitVec 6) (uf : Bool) :
    (assemble opc rd rs1 rs2 imm6 uf).extractLsb' 27 5 = 0#5 := by
  ext i hi
  simp only [assemble, BitVec.getElem_extractLsb', BitVec.getLsbD_append]
  rw [if_neg (by omega), if_neg (by omega), if_neg (by omega), if_neg (by omega), if_neg (by omega), if_neg (by omega)]
  simp

/-- A word is its bits [31:27] and its fields (30_encoding.md R91). -/
theorem word_eq_fields (w : BusWord) :
    w = w.extractLsb' 27 5 ++ BitVec.ofBool (fieldUf w) ++ fieldImm6 w ++ fieldRs2 w ++ fieldRs1 w ++ fieldRd w ++ fieldOpc w := by
  apply BitVec.eq_of_getLsbD_eq
  intro i hi
  simp only [BitVec.getLsbD_append, fieldOpc, fieldRd, fieldRs1, fieldRs2, fieldImm6, fieldUf, BitVec.getLsbD_extractLsb',
    BitVec.getLsbD_ofBool]
  by_cases h1 : i < 8
  · simp [h1]
  by_cases h2 : i < 12
  · simp [h1, show i - 8 < 4 by omega, show 8 + (i - 8) = i by omega]
  by_cases h3 : i < 16
  · simp [h1, show ¬ i - 8 < 4 by omega, show i - 8 - 4 < 4 by omega, show 12 + (i - 8 - 4) = i by omega]
  by_cases h4 : i < 20
  · simp [h1, show ¬ i - 8 < 4 by omega, show ¬ i - 8 - 4 < 4 by omega, show i - 8 - 4 - 4 < 4 by omega,
      show 16 + (i - 8 - 4 - 4) = i by omega]
  by_cases h5 : i < 26
  · simp [h1, show ¬ i - 8 < 4 by omega, show ¬ i - 8 - 4 < 4 by omega, show ¬ i - 8 - 4 - 4 < 4 by omega,
      show i - 8 - 4 - 4 - 4 < 6 by omega, show 20 + (i - 8 - 4 - 4 - 4) = i by omega]
  by_cases h6 : i = 26
  · subst h6; simp
  · simp [h1, show ¬ i - 8 < 4 by omega, show ¬ i - 8 - 4 < 4 by omega, show ¬ i - 8 - 4 - 4 < 4 by omega,
      show ¬ i - 8 - 4 - 4 - 4 < 6 by omega, show ¬ i - 8 - 4 - 4 - 4 - 6 = 0 by omega,
      show i - 8 - 4 - 4 - 4 - 6 - 1 < 5 by omega, show 27 + (i - 8 - 4 - 4 - 4 - 6 - 1) = i by omega]

/-- A word with bits [31:27] zero is the assembly of its fields. -/
theorem assemble_fields (w : BusWord) (h : w.extractLsb' 27 5 = 0#5) :
    assemble (fieldOpc w) (fieldRd w) (fieldRs1 w) (fieldRs2 w) (fieldImm6 w) (fieldUf w) = w := by
  have hw := word_eq_fields w
  rw [h] at hw
  exact hw.symm

/-- A mask over the whole opcode and bits [31:27], given by its fields. -/
def fieldMask (rd rs1 rs2 : RegNo) (imm6 : BitVec 6) (uf : Bool) : BusWord :=
  0x1F#5 ++ BitVec.ofBool uf ++ imm6 ++ rs2 ++ rs1 ++ rd ++ 0xFF#8

/-- A mask acts on an assembled word field by field. -/
theorem assemble_and (opc : BitVec 8) (rd rs1 rs2 a b c : RegNo) (imm6 m : BitVec 6) (uf u : Bool) :
    assemble opc rd rs1 rs2 imm6 uf &&& fieldMask a b c m u =
      assemble opc (rd &&& a) (rs1 &&& b) (rs2 &&& c) (imm6 &&& m) (uf && u) := by
  simp only [assemble, fieldMask]
  apply BitVec.eq_of_getLsbD_eq
  intro i hi
  simp only [BitVec.getLsbD_and, BitVec.getLsbD_append, BitVec.getLsbD_ofBool]
  by_cases h1 : i < 8
  · have h8 : (0xFF#8).getLsbD i = true := by revert i; decide
    simp [h1, h8]
  by_cases h2 : i - 8 < 4
  · simp [h1, h2]
  by_cases h3 : i - 8 - 4 < 4
  · simp [h1, h2, h3]
  by_cases h4 : i - 8 - 4 - 4 < 4
  · simp [h1, h2, h3, h4]
  by_cases h5 : i - 8 - 4 - 4 - 4 < 6
  · simp [h1, h2, h3, h4, h5]
  by_cases h6 : i - 8 - 4 - 4 - 4 - 6 < 1
  · simp [h1, h2, h3, h4, h5, show i - 8 - 4 - 4 - 4 - 6 = 0 by omega]
  · simp [h1, h2, h3, h4, h5, h6]

/-- An even register number has bit 0 equal to 0 (30_encoding.md R95). -/
theorem evenReg_and (r : RegNo) (h : evenReg r = true) : r &&& 1#4 = 0#4 := by revert r; decide

/-- The match of a row is the assembly of its opcode with every field 0 (30_encoding.md R96). -/
theorem matchWord_eq (r : OpcodeRow) : r.matchWord = assemble r.opc 0 0 0 0 false := by
  have : ∀ o : BitVec 8, o.setWidth 32 = assemble o 0 0 0 0 false := by decide
  exact this r.opc

/-- A masked word acts field by field. -/
theorem fields_of_masked (w M m : BusWord) (h : w &&& M = m) :
    fieldOpc w &&& fieldOpc M = fieldOpc m ∧ fieldRd w &&& fieldRd M = fieldRd m ∧ fieldRs1 w &&& fieldRs1 M = fieldRs1 m ∧
      fieldRs2 w &&& fieldRs2 M = fieldRs2 m ∧ fieldImm6 w &&& fieldImm6 M = fieldImm6 m ∧
      (fieldUf w && fieldUf M) = fieldUf m ∧ w.extractLsb' 27 5 &&& M.extractLsb' 27 5 = m.extractLsb' 27 5 := by
  subst h
  simp [fieldOpc, fieldRd, fieldRs1, fieldRs2, fieldImm6, fieldUf, BitVec.extractLsb'_and]

/-- Every mask covers the opcode field (30_encoding.md R96). -/
theorem fieldOpc_mask : ∀ r ∈ opcodeRows, fieldOpc r.mask = 0xFF#8 := by decide

/-- A word that meets a row's match under its mask has the row's opcode. -/
theorem fieldOpc_of_match {w : BusWord} {r : OpcodeRow} (hr : r ∈ opcodeRows) (hm : w &&& r.mask = r.matchWord) :
    fieldOpc w = r.opc := by
  have h := (fields_of_masked _ _ _ hm).1
  have h1 : ∀ o : BitVec 8, o &&& 0xFF#8 = o := by decide
  have h2 : ∀ o : BitVec 8, fieldOpc (o.setWidth 32) = o := by decide
  rw [fieldOpc_mask r hr, h1] at h
  rw [h]
  exact h2 r.opc

/-- The row an opcode selects is a row of the map, with that opcode. -/
theorem rowOf_eq_some {o : BitVec 8} {r : OpcodeRow} (h : rowOf o = some r) : r ∈ opcodeRows ∧ r.opc = o :=
  ⟨List.mem_of_find?_eq_some h, by simpa using List.find?_some h⟩

/-- Every row of the map is the one its opcode selects. -/
theorem rowOf_opc : ∀ r ∈ opcodeRows, rowOf r.opc = some r := by
  intro r hr
  simp only [opcodeRows, List.mem_cons, List.not_mem_nil, or_false] at hr
  rcases hr with rfl | rfl | rfl | rfl | rfl | rfl | rfl | rfl | rfl | rfl | rfl | rfl | rfl | rfl | rfl | rfl | rfl | rfl |
    rfl | rfl | rfl | rfl | rfl <;> rfl

/-- What decoding to a command says: the opcode selects a row, the word meets it, and the row's fields give the command. -/
theorem decode_eq_command {w : BusWord} {i : Instr} (h : decode w = .command i) :
    ∃ r, rowOf (fieldOpc w) = some r ∧ w &&& r.mask = r.matchWord ∧ i = r.command w := by
  unfold decode at h
  split at h
  · cases h
  · next r hr =>
    split at h
    · next hm => cases h; exact ⟨r, hr, hm, rfl⟩
    · cases h

end Sys2Proof
end

