-- ==== Sys2Proof/Laws/Digits.lean ====
section
/-! SUPPORT. Numbers and digits: wrap64, numerals and the digit strings of a number, related to Mathlib's Nat.digits. -/

namespace Sys2Proof.Machine

/-! ### wrap64 (00_scope.md R8) -/

/-- wrap64 is the non-negative residue modulo 2^64. -/
theorem toNat_wrap64 (n : Int) : ((wrap64 n).toNat : Int) = n % 2 ^ 64 := by
  simp [wrap64, BitVec.toNat_ofInt]; omega

/-- wrap64 of a pattern's unsigned value is the pattern. -/
theorem wrap64_uint (v : Word) : wrap64 (uint v) = v := by
  simp [wrap64, uint, BitVec.ofInt_natCast]

/-- wrap64 of a pattern's signed value is the pattern. -/
theorem wrap64_sint (v : Word) : wrap64 (sint v) = v := by simp [wrap64, sint]

/-- wrap64 of a register's value is its pattern, whatever its tag. -/
theorem wrap64_val (a : Reg) : wrap64 a.val = a.v := by
  unfold Reg.val; split
  · exact wrap64_uint _
  · exact wrap64_sint _

/-- The signed and the unsigned value of a pattern agree modulo 2^64. -/
theorem sint_emod (v : Word) : sint v % 2 ^ 64 = (uint v : Int) % 2 ^ 64 := by
  rw [← toNat_wrap64, ← toNat_wrap64, wrap64_sint, wrap64_uint]

/-- A register's magnitude is below 2^64. -/
theorem natAbs_val_lt (a : Reg) : a.val.natAbs < 2 ^ 64 := by
  unfold Reg.val uint sint
  have h := a.v.isLt
  split
  · simpa using h
  · have := BitVec.toInt_lt (x := a.v); have := BitVec.le_toInt (x := a.v); omega

/-! ### Numerals -/

/-- A numeral is Mathlib's ofDigits of the reversed digits. -/
theorem numeral_eq_ofDigits (r : Nat) (ds : List Nat) : numeral r ds = Nat.ofDigits r ds.reverse := by
  induction ds using List.reverseRecOn with
  | nil => rfl
  | append_singleton ds d ih =>
    rw [List.reverse_append, List.reverse_singleton, List.singleton_append, Nat.ofDigits_cons, ← ih]
    simp [numeral, Nat.add_comm, Nat.mul_comm]

/-- A numeral without digits is 0. -/
@[simp] theorem numeral_nil (r : Nat) : numeral r [] = 0 := rfl

/-- A last digit is added to the numeral times the radix. -/
@[simp] theorem numeral_append_singleton (r : Nat) (ds : List Nat) (d : Nat) :
    numeral r (ds ++ [d]) = numeral r ds * r + d := by
  simp [numeral]

/-- The numeral of joined digit strings. -/
theorem numeral_append (r : Nat) (ds es : List Nat) : numeral r (ds ++ es) = numeral r ds * r ^ es.length + numeral r es := by
  induction es using List.reverseRecOn with
  | nil => simp
  | append_singleton es e ih =>
    rw [← List.append_assoc, numeral_append_singleton, ih, numeral_append_singleton, List.length_append]
    simp [pow_succ]; ring

/-- Appended zeros multiply by a power of the radix. -/
theorem numeral_append_zeros (r : Nat) (ds : List Nat) (k : Nat) :
    numeral r (ds ++ List.replicate k 0) = numeral r ds * r ^ k := by
  induction k with
  | zero => simp
  | succ k ih =>
    rw [List.replicate_succ', ← List.append_assoc, numeral_append_singleton, ih, pow_succ]
    ring

/-- A numeral is below the power of the radix that its length gives. -/
theorem numeral_lt (r : Nat) (ds : List Nat) (h : ∀ d ∈ ds, d < r) : numeral r ds < r ^ ds.length := by
  induction ds using List.reverseRecOn with
  | nil => simp
  | append_singleton ds d ih =>
    have h1 := ih (fun e he => h e (by simp [he]))
    have h2 := h d (by simp)
    rw [numeral_append_singleton, List.length_append, List.length_singleton, pow_succ]
    nlinarith

/-- Leading zeros do not change a numeral. -/
theorem numeral_dropWhile_zero (r : Nat) (ds : List Nat) : numeral r (ds.dropWhile (· == 0)) = numeral r ds := by
  induction ds with
  | nil => rfl
  | cons d ds ih =>
    by_cases h : d = 0
    · subst h
      rw [List.dropWhile_cons_of_pos (by simp), ih]
      simp [numeral]
    · rw [List.dropWhile_cons_of_neg (by simpa using h)]

/-! ### The digits of a number (44_int_convert.md R226) -/

/-- With enough fuel the digits are Mathlib's, most significant first. -/
theorem digitValuesAux_eq (r : Nat) (hr : 2 ≤ r) (fuel n : Nat) (acc : List Nat) (h0 : n ≠ 0) (hf : n < r ^ fuel) :
    digitValuesAux r fuel n acc = (Nat.digits r n).reverse ++ acc := by
  induction fuel generalizing n acc with
  | zero => simp at hf; omega
  | succ fuel ih =>
    rw [digitValuesAux, Nat.digits_def' (by omega) (by omega)]
    by_cases h : n < r
    · simp [h, Nat.div_eq_of_lt h, Nat.mod_eq_of_lt h]
    · rw [if_neg h, ih]
      · simp
      · exact (Nat.div_pos (by omega) (by omega)).ne'
      · rw [Nat.div_lt_iff_lt_mul (by omega)]
        simpa [pow_succ] using hf

/-- The digits of a number in a radix of at least 2 are Mathlib's, most significant first, [0] for 0. -/
theorem digitValues_eq (r n : Nat) (hr : 2 ≤ r) : digitValues r n = if n = 0 then [0] else (Nat.digits r n).reverse := by
  split
  · next h => subst h; simp [digitValues, digitValuesAux]
  · next h =>
    rw [digitValues, digitValuesAux_eq r hr _ n [] h, List.append_nil]
    calc n < 2 ^ (n.log2 + 1) := Nat.lt_log2_self
      _ ≤ r ^ (n.log2 + 1) := Nat.pow_le_pow_left hr _

/-- The digits of a number spell it. -/
theorem numeral_digitValues (r n : Nat) (hr : 2 ≤ r) : numeral r (digitValues r n) = n := by
  rw [numeral_eq_ofDigits, digitValues_eq r n hr]
  split
  · next h => simp [h]
  · simp [Nat.ofDigits_digits]

/-- Every digit is below the radix. -/
theorem digitValues_lt (r n : Nat) (hr : 2 ≤ r) : ∀ d ∈ digitValues r n, d < r := by
  intro d hd
  rw [digitValues_eq r n hr] at hd
  split at hd
  · simp at hd; omega
  · exact Nat.digits_lt_base (by omega) (List.mem_reverse.mp hd)

/-- A number has at least one digit. -/
theorem digitValues_ne_nil (r n : Nat) (hr : 2 ≤ r) : digitValues r n ≠ [] := by
  rw [digitValues_eq r n hr]
  split
  · simp
  · simpa [Nat.digits_eq_nil_iff_eq_zero]

/-- A number below a power of the radix has no more digits than the power says. -/
theorem length_digitValues_le (r n k : Nat) (hr : 2 ≤ r) (hk : 1 ≤ k) (h : n < r ^ k) : (digitValues r n).length ≤ k := by
  rw [digitValues_eq r n hr]
  split
  · simpa using hk
  · rw [List.length_reverse, Nat.digits_length_le_iff (by omega)]
    exact h

/-- The text of a number is as long as its digits. -/
@[simp] theorem length_digitText (r n : Nat) : (digitText r n).length = (digitValues r n).length := by simp [digitText]

/-- A digit's byte has the digit's value (44_int_convert.md R222, R226). -/
theorem digitValue_digitChar : ∀ d, d < 36 → digitValue (digitChar d) = some d := by decide

/-- A digit's byte is not "-". -/
theorem digitChar_ne_minus : ∀ d, d < 36 → digitChar d ≠ chMinus := by decide

/-- A digit's byte is read back in every radix above the digit. -/
theorem digitOf_digitChar (r d : Nat) (hr : r ≤ 36) (hd : d < r) : digitOf r (digitChar d) = some d := by
  simp [digitOf, digitValue_digitChar d (by omega), hd]

/-- A text of digits is read back. -/
theorem digitsOf_map_digitChar (r : Nat) (hr : r ≤ 36) (ds : List Nat) (h : ∀ d ∈ ds, d < r) :
    digitsOf r (ds.map digitChar) = some ds := by
  induction ds with
  | nil => rfl
  | cons d ds ih =>
    simp only [List.map_cons, digitsOf, digitOf_digitChar r d hr (h d (by simp)), ih (fun e he => h e (by simp [he]))]

/-- The digits of a number are read back. -/
theorem digitsOf_digitText (r n : Nat) (h2 : 2 ≤ r) (hr : r ≤ 36) : digitsOf r (digitText r n) = some (digitValues r n) :=
  digitsOf_map_digitChar r hr _ (digitValues_lt r n h2)

/-! ### Rounding (00_scope.md R12) -/

/-- When more digits are removed than there are, round-half-to-even gives 0, so roundDigits is it (log 14). -/
theorem roundDigits_eq (g : List Nat) (m : Nat) (hg : ∀ d ∈ g, d < 10) : roundDigits g m = roundHalfEven (numeral 10 g) m := by
  unfold roundDigits
  split
  · next h =>
    obtain ⟨k, rfl⟩ : ∃ k, m = k + 1 := ⟨m - 1, by omega⟩
    have h1 : numeral 10 g < 10 ^ k :=
      lt_of_lt_of_le (numeral_lt 10 g hg) (Nat.pow_le_pow_right (by omega) (by omega))
    have h2 : numeral 10 g < 10 ^ (k + 1) := by rw [pow_succ]; omega
    have h3 : numeral 10 g / 10 ^ (k + 1) = 0 := Nat.div_eq_of_lt h2
    simp only [roundHalfEven, Nat.add_one_ne_zero, if_false, h3, Nat.add_sub_cancel]
    rw [if_neg]
    omega
  · rfl

end Sys2Proof.Machine
end

