-- ==== Sys2Proof/Laws/Parse.lean ====
section
/-! SUPPORT. With which causes the parsing operations can fail (60_exceptions.md R321). -/

namespace Sys2Proof.Machine

/-- Integer parsing fails with FORMAT or RADIX alone (44_int_convert.md R223). -/
theorem parseInteger_fails {imm6 : BitVec 6} {t : List Byte} {c : Cause} (h : parseInteger imm6 t = .fails c) :
    c = .format ∨ c = .radix := by
  unfold parseInteger at h
  split at h
  · cases h; simp
  · cases h; simp
  · split at h
    · cases h; simp
    · split at h
      · cases h; simp
      · split at h <;> cases h; simp

/-- Absorbing an exponent fails with OVERFLOW alone (45_decimal_parse.md R258). -/
theorem absorbExcess_fails {d : Digits} {c : Cause} (h : absorbExcess d = .fails c) : c = .overflow := by
  unfold absorbExcess at h
  split at h
  · dsimp only at h; split at h <;> cases h; rfl
  · cases h

/-- Where the exponent is absorbed, zeros were appended and it is the greatest one, or it was in range
(45_decimal_parse.md R258). -/
theorem absorbExcess_value {d d' : Digits} (h : absorbExcess d = .value d') :
    (d.q ≤ decMaxExp ∧ d' = d) ∨
      (decMaxExp < d.q ∧ d' = ⟨d.g ++ List.replicate (d.q - decMaxExp).toNat 0, decMaxExp⟩) := by
  unfold absorbExcess at h
  split at h
  · next hq =>
    dsimp only at h
    split at h <;> cases h
    exact .inr ⟨hq, rfl⟩
  · next hq => cases h; exact .inl ⟨by omega, rfl⟩

/-- Removing zeros fails with OVERFLOW, INEXACT or UNDERFLOW alone (45_decimal_parse.md R260). -/
theorem removeZeros_fails {rev : List Nat} {m : Nat} {q : Int} {c : Cause} (h : removeZeros rev m q = .fails c) :
    c = .overflow ∨ c = .inexact ∨ c = .underflow := by
  induction rev generalizing m q with
  | nil => unfold removeZeros at h; split at h <;> cases h; simp
  | cons d rev ih =>
    unfold removeZeros at h
    split at h
    · cases h
    · split at h
      · cases h; simp
      · split at h
        · cases h; simp
        · split at h
          · cases h; simp
          · exact ih h

/-- Where zeros were removed, exactly `m` were, each 0, and the exponent rose by `m` (45_decimal_parse.md R260). -/
theorem removeZeros_value {rev rev' : List Nat} {m : Nat} {q q' : Int} (h : removeZeros rev m q = .value (rev', q')) :
    rev = List.replicate m 0 ++ rev' ∧ q' = q + m := by
  induction rev generalizing m q with
  | nil => unfold removeZeros at h; split at h <;> cases h; simp_all
  | cons d rev ih =>
    unfold removeZeros at h
    split at h
    · next hm => cases h; simp [hm]
    · next hm =>
      split at h
      · cases h
      · split at h
        · cases h
        · next hd =>
          split at h
          · cases h
          · obtain ⟨h1, h2⟩ := ih h
            obtain ⟨k, rfl⟩ : ∃ k, m = k + 1 := ⟨m - 1, by omega⟩
            simp only [Nat.add_sub_cancel] at h1 h2
            refine ⟨?_, by omega⟩
            simp at hd
            rw [hd, List.replicate_succ, List.cons_append, ← h1]

/-- The numeric rule of DPARSE fails with OVERFLOW, INEXACT or UNDERFLOW alone (45_decimal_parse.md R260). -/
theorem strictNumeric_fails {neg : Bool} {d : Digits} {c : Cause} (h : strictNumeric neg d = .fails c) :
    c = .overflow ∨ c = .inexact ∨ c = .underflow := by
  unfold strictNumeric at h
  split at h
  · cases h
  · split at h
    · next hh => cases h; exact .inl (absorbExcess_fails hh)
    · split at h
      · next hh => cases h; exact removeZeros_fails hh
      · cases h

/-- The numeric rule of DPARSER fails with OVERFLOW alone (45_decimal_parse.md R261). -/
theorem roundingNumeric_fails {neg : Bool} {d : Digits} {c : Cause} (h : roundingNumeric neg d = .fails c) :
    c = .overflow := by
  unfold roundingNumeric at h
  split at h
  · cases h
  · split at h
    · next hh => cases h; exact absorbExcess_fails hh
    · dsimp only at h
      split at h
      · cases h
      · split at h
        · cases h; rfl
        · split at h
          · split at h <;> cases h
          · cases h

/-- Decimal parsing fails with FORMAT, or as the command's numeric rule fails (45_decimal_parse.md R255). -/
theorem parseDecimal_fails {f : Bool → Digits → Parsed Quad} {t : List Byte} {c : Cause} (h : parseDecimal f t = .fails c) :
    c = .format ∨ ∃ neg d, f neg d = .fails c := by
  unfold parseDecimal at h
  split at h
  · cases h; simp
  · split at h
    · cases h; simp
    · cases h
    · cases h
    · exact .inr ⟨_, _, h⟩

end Sys2Proof.Machine
end

