-- ==== Sys2Proof/Laws/PerInstr.lean ====
section
/-! SUPPORT. Lemmas stated for every command, one per constructor of Instr. -/

namespace Sys2Proof.Laws

/-- The command's word is spelled by a row of the opcode map: the row stands under the word's opcode, the row's mask meets
the word in the row's match when the command is well formed, and the row reads the command back from the word
(30_encoding.md R95, R96). -/
def EncodedByRow.Statement (i : Instr) : Prop :=
  ∃ r, rowOf (fieldOpc (encode i)) = some r ∧ r.command (encode i) = i ∧
    (i.wellFormed = true → encode i &&& r.mask = r.matchWord)

/-- ADD is spelled by its row. -/
theorem EncodedByRow.add (rd rs1 rs2 : RegNo) : EncodedByRow.Statement (.add rd rs1 rs2) := by
  refine ⟨⟨0x01#8, 0xFFF000FF#32, formatR3 .add⟩, by rw [encode, fieldOpc_assemble]; rfl, by simp [encode, formatR3], fun _ => ?_⟩
  rw [matchWord_eq, show (0xFFF000FF#32 : BusWord) = fieldMask 0 0 0 0x3F#6 true by decide, encode, assemble_and]
  simp

/-- SUB is spelled by its row. -/
theorem EncodedByRow.sub (rd rs1 rs2 : RegNo) : EncodedByRow.Statement (.sub rd rs1 rs2) := by
  refine ⟨⟨0x02#8, 0xFFF000FF#32, formatR3 .sub⟩, by rw [encode, fieldOpc_assemble]; rfl, by simp [encode, formatR3], fun _ => ?_⟩
  rw [matchWord_eq, show (0xFFF000FF#32 : BusWord) = fieldMask 0 0 0 0x3F#6 true by decide, encode, assemble_and]
  simp

/-- MUL is spelled by its row. -/
theorem EncodedByRow.mul (rd rs1 rs2 : RegNo) : EncodedByRow.Statement (.mul rd rs1 rs2) := by
  refine ⟨⟨0x03#8, 0xFFF000FF#32, formatR3 .mul⟩, by rw [encode, fieldOpc_assemble]; rfl, by simp [encode, formatR3], fun _ => ?_⟩
  rw [matchWord_eq, show (0xFFF000FF#32 : BusWord) = fieldMask 0 0 0 0x3F#6 true by decide, encode, assemble_and]
  simp

/-- DIV is spelled by its row. -/
theorem EncodedByRow.div (rd rs1 rs2 : RegNo) : EncodedByRow.Statement (.div rd rs1 rs2) := by
  refine ⟨⟨0x04#8, 0xFFF000FF#32, formatR3 .div⟩, by rw [encode, fieldOpc_assemble]; rfl, by simp [encode, formatR3], fun _ => ?_⟩
  rw [matchWord_eq, show (0xFFF000FF#32 : BusWord) = fieldMask 0 0 0 0x3F#6 true by decide, encode, assemble_and]
  simp

/-- MOD is spelled by its row. -/
theorem EncodedByRow.mod (rd rs1 rs2 : RegNo) : EncodedByRow.Statement (.mod rd rs1 rs2) := by
  refine ⟨⟨0x05#8, 0xFFF000FF#32, formatR3 .mod⟩, by rw [encode, fieldOpc_assemble]; rfl, by simp [encode, formatR3], fun _ => ?_⟩
  rw [matchWord_eq, show (0xFFF000FF#32 : BusWord) = fieldMask 0 0 0 0x3F#6 true by decide, encode, assemble_and]
  simp

/-- NEG is spelled by its row. -/
theorem EncodedByRow.neg (rd rs1 : RegNo) : EncodedByRow.Statement (.neg rd rs1) := by
  refine ⟨⟨0x06#8, 0xFFFF00FF#32, fun w => .neg (fieldRd w) (fieldRs1 w)⟩, by rw [encode, fieldOpc_assemble]; rfl, by simp [encode], fun _ => ?_⟩
  rw [matchWord_eq, show (0xFFFF00FF#32 : BusWord) = fieldMask 0 0 0xF#4 0x3F#6 true by decide, encode, assemble_and]
  simp

/-- MULWU is spelled by its row. -/
theorem EncodedByRow.mulwu (rd rs1 rs2 : RegNo) : EncodedByRow.Statement (.mulwu rd rs1 rs2) := by
  refine ⟨⟨0x08#8, 0xFFF001FF#32, formatR3 .mulwu⟩, by rw [encode, fieldOpc_assemble]; rfl, by simp [encode, formatR3], fun h => ?_⟩
  rw [matchWord_eq, show (0xFFF001FF#32 : BusWord) = fieldMask 1#4 0 0 0x3F#6 true by decide, encode, assemble_and]
  simp [evenReg_and _ (by simpa [Instr.wellFormed] using h)]

/-- DIVQ9 is spelled by its row. -/
theorem EncodedByRow.divq9 (rd rs1 : RegNo) : EncodedByRow.Statement (.divq9 rd rs1) := by
  refine ⟨⟨0x09#8, 0xFFFF10FF#32, fun w => .divq9 (fieldRd w) (fieldRs1 w)⟩, by rw [encode, fieldOpc_assemble]; rfl, by simp [encode], fun h => ?_⟩
  rw [matchWord_eq, show (0xFFFF10FF#32 : BusWord) = fieldMask 0 1#4 0xF#4 0x3F#6 true by decide, encode, assemble_and]
  simp [evenReg_and _ (by simpa [Instr.wellFormed] using h)]

/-- SHL is spelled by its row. -/
theorem EncodedByRow.shl (rd rs1 rs2 : RegNo) : EncodedByRow.Statement (.shl rd rs1 rs2) := by
  refine ⟨⟨0x10#8, 0xFFF000FF#32, formatR3 .shl⟩, by rw [encode, fieldOpc_assemble]; rfl, by simp [encode, formatR3], fun _ => ?_⟩
  rw [matchWord_eq, show (0xFFF000FF#32 : BusWord) = fieldMask 0 0 0 0x3F#6 true by decide, encode, assemble_and]
  simp

/-- SHR is spelled by its row. -/
theorem EncodedByRow.shr (rd rs1 rs2 : RegNo) : EncodedByRow.Statement (.shr rd rs1 rs2) := by
  refine ⟨⟨0x11#8, 0xFFF000FF#32, formatR3 .shr⟩, by rw [encode, fieldOpc_assemble]; rfl, by simp [encode, formatR3], fun _ => ?_⟩
  rw [matchWord_eq, show (0xFFF000FF#32 : BusWord) = fieldMask 0 0 0 0x3F#6 true by decide, encode, assemble_and]
  simp

/-- SHRU is spelled by its row. -/
theorem EncodedByRow.shru (rd rs1 rs2 : RegNo) : EncodedByRow.Statement (.shru rd rs1 rs2) := by
  refine ⟨⟨0x12#8, 0xFFF000FF#32, formatR3 .shru⟩, by rw [encode, fieldOpc_assemble]; rfl, by simp [encode, formatR3], fun _ => ?_⟩
  rw [matchWord_eq, show (0xFFF000FF#32 : BusWord) = fieldMask 0 0 0 0x3F#6 true by decide, encode, assemble_and]
  simp

/-- SHLI is spelled by its row. -/
theorem EncodedByRow.shli (rd rs1 : RegNo) (imm6 : BitVec 6) : EncodedByRow.Statement (.shli rd rs1 imm6) := by
  refine ⟨⟨0x14#8, 0xFC0F00FF#32, formatRI .shli⟩, by rw [encode, fieldOpc_assemble]; rfl, by simp [encode, formatRI], fun _ => ?_⟩
  rw [matchWord_eq, show (0xFC0F00FF#32 : BusWord) = fieldMask 0 0 0xF#4 0 true by decide, encode, assemble_and]
  simp

/-- SHRI is spelled by its row. -/
theorem EncodedByRow.shri (rd rs1 : RegNo) (imm6 : BitVec 6) : EncodedByRow.Statement (.shri rd rs1 imm6) := by
  refine ⟨⟨0x15#8, 0xFC0F00FF#32, formatRI .shri⟩, by rw [encode, fieldOpc_assemble]; rfl, by simp [encode, formatRI], fun _ => ?_⟩
  rw [matchWord_eq, show (0xFC0F00FF#32 : BusWord) = fieldMask 0 0 0xF#4 0 true by decide, encode, assemble_and]
  simp

/-- SHRUI is spelled by its row. -/
theorem EncodedByRow.shrui (rd rs1 : RegNo) (imm6 : BitVec 6) : EncodedByRow.Statement (.shrui rd rs1 imm6) := by
  refine ⟨⟨0x16#8, 0xFC0F00FF#32, formatRI .shrui⟩, by rw [encode, fieldOpc_assemble]; rfl, by simp [encode, formatRI], fun _ => ?_⟩
  rw [matchWord_eq, show (0xFC0F00FF#32 : BusWord) = fieldMask 0 0 0xF#4 0 true by decide, encode, assemble_and]
  simp

/-- CMP is spelled by its row. -/
theorem EncodedByRow.cmp (rd rs1 rs2 : RegNo) : EncodedByRow.Statement (.cmp rd rs1 rs2) := by
  refine ⟨⟨0x18#8, 0xFFF000FF#32, formatR3 .cmp⟩, by rw [encode, fieldOpc_assemble]; rfl, by simp [encode, formatR3], fun _ => ?_⟩
  rw [matchWord_eq, show (0xFFF000FF#32 : BusWord) = fieldMask 0 0 0 0x3F#6 true by decide, encode, assemble_and]
  simp

/-- CMPU is spelled by its row. -/
theorem EncodedByRow.cmpu (rd rs1 rs2 : RegNo) : EncodedByRow.Statement (.cmpu rd rs1 rs2) := by
  refine ⟨⟨0x19#8, 0xFFF000FF#32, formatR3 .cmpu⟩, by rw [encode, fieldOpc_assemble]; rfl, by simp [encode, formatR3], fun _ => ?_⟩
  rw [matchWord_eq, show (0xFFF000FF#32 : BusWord) = fieldMask 0 0 0 0x3F#6 true by decide, encode, assemble_and]
  simp

/-- EQ is spelled by its row. -/
theorem EncodedByRow.eq (rd rs1 rs2 : RegNo) : EncodedByRow.Statement (.eq rd rs1 rs2) := by
  refine ⟨⟨0x1A#8, 0xFFF000FF#32, formatR3 .eq⟩, by rw [encode, fieldOpc_assemble]; rfl, by simp [encode, formatR3], fun _ => ?_⟩
  rw [matchWord_eq, show (0xFFF000FF#32 : BusWord) = fieldMask 0 0 0 0x3F#6 true by decide, encode, assemble_and]
  simp

/-- CVTF is spelled by its row. -/
theorem EncodedByRow.cvtf (rd rs1 : RegNo) (uf : Bool) : EncodedByRow.Statement (.cvtf rd rs1 uf) := by
  refine ⟨⟨0x20#8, 0xFBFF00FF#32, fun w => .cvtf (fieldRd w) (fieldRs1 w) (fieldUf w)⟩, by rw [encode, fieldOpc_assemble]; rfl, by simp [encode], fun _ => ?_⟩
  rw [matchWord_eq, show (0xFBFF00FF#32 : BusWord) = fieldMask 0 0 0xF#4 0x3F#6 false by decide, encode, assemble_and]
  simp

/-- IPARSE is spelled by its row. -/
theorem EncodedByRow.iparse (rd : RegNo) (imm6 : BitVec 6) (uf : Bool) : EncodedByRow.Statement (.iparse rd imm6 uf) := by
  refine ⟨⟨0x21#8, 0xF80FF0FF#32, fun w => .iparse (fieldRd w) (fieldImm6 w) (fieldUf w)⟩, by rw [encode, fieldOpc_assemble]; rfl, by simp [encode], fun _ => ?_⟩
  rw [matchWord_eq, show (0xF80FF0FF#32 : BusWord) = fieldMask 0 0xF#4 0xF#4 0 false by decide, encode, assemble_and]
  simp

/-- IFMT is spelled by its row. -/
theorem EncodedByRow.ifmt (rs1 : RegNo) (imm6 : BitVec 6) : EncodedByRow.Statement (.ifmt rs1 imm6) := by
  refine ⟨⟨0x22#8, 0xFC0F0FFF#32, fun w => .ifmt (fieldRs1 w) (fieldImm6 w)⟩, by rw [encode, fieldOpc_assemble]; rfl, by simp [encode], fun _ => ?_⟩
  rw [matchWord_eq, show (0xFC0F0FFF#32 : BusWord) = fieldMask 0xF#4 0 0xF#4 0 true by decide, encode, assemble_and]
  simp

/-- DPARSE is spelled by its row. -/
theorem EncodedByRow.dparse (rd : RegNo) : EncodedByRow.Statement (.dparse rd) := by
  refine ⟨⟨0x28#8, 0xFFFFF1FF#32, fun w => .dparse (fieldRd w)⟩, by rw [encode, fieldOpc_assemble]; rfl, by simp [encode], fun h => ?_⟩
  rw [matchWord_eq, show (0xFFFFF1FF#32 : BusWord) = fieldMask 1#4 0xF#4 0xF#4 0x3F#6 true by decide, encode, assemble_and]
  simp [evenReg_and _ (by simpa [Instr.wellFormed] using h)]

/-- DPARSER is spelled by its row. -/
theorem EncodedByRow.dparser (rd : RegNo) : EncodedByRow.Statement (.dparser rd) := by
  refine ⟨⟨0x29#8, 0xFFFFF1FF#32, fun w => .dparser (fieldRd w)⟩, by rw [encode, fieldOpc_assemble]; rfl, by simp [encode], fun h => ?_⟩
  rw [matchWord_eq, show (0xFFFFF1FF#32 : BusWord) = fieldMask 1#4 0xF#4 0xF#4 0x3F#6 true by decide, encode, assemble_and]
  simp [evenReg_and _ (by simpa [Instr.wellFormed] using h)]

/-- DFMT is spelled by its row. -/
theorem EncodedByRow.dfmt (rs1 : RegNo) : EncodedByRow.Statement (.dfmt rs1) := by
  refine ⟨⟨0x2A#8, 0xFFFF1FFF#32, fun w => .dfmt (fieldRs1 w)⟩, by rw [encode, fieldOpc_assemble]; rfl, by simp [encode], fun h => ?_⟩
  rw [matchWord_eq, show (0xFFFF1FFF#32 : BusWord) = fieldMask 0xF#4 1#4 0xF#4 0x3F#6 true by decide, encode, assemble_and]
  simp [evenReg_and _ (by simpa [Instr.wellFormed] using h)]

end Sys2Proof.Laws
end

