-- ==== Sys2Proof/Tests/Slice0.lean ====
section
/-! SUPPORT. Tests of the model on values written out from the spec (30_encoding.md R103, 95_test_vectors.md), the refusals of
WellFormed, and for every statement with hypotheses a case that meets them. -/

namespace Sys2Proof.Tests
open Sys2Proof.Machine Sys2Proof.Claims

/-! ### Helpers -/

/-- The state after reset with these registers and this text. -/
def start (regs : List (RegNo × Reg)) (t : List Byte) : State :=
  regs.foldl (fun s p => s.setX p.1 p.2) (State.reset.setText t)

/-- The next state of an outcome, the reset state where it has none. -/
def after (o : Host.Outcome State Fault Refusal) : State :=
  match o with
  | .next s => s
  | .fault _ => State.reset
  | .refused _ => State.reset

/-- One step that completes the command word `w`. -/
def run (w : Nat) (regs : List (RegNo × Reg)) (t : List Byte) : State := after (step ((start regs t).withFetchWord 32 w))

/-- One step that delivers the event `e` to `s`. -/
def give (s : State) (e : Event) : State := after (step { s with env := [e] })

/-- A string as bytes. -/
def text (t : String) : List Byte := asciiText t.toList

/-- `s` with a command in flight. -/
def busy (s : State) (w : BusWord) : State := s.acceptCommand w

/-- {0x8000_0000_0000_0000, u}. -/
def minReg (u : Bool) : Reg := ⟨0x8000000000000000#64, u⟩

/-- {0xFFFF_FFFF_FFFF_FFFF, u}. -/
def onesReg (u : Bool) : Reg := ⟨0xFFFFFFFFFFFFFFFF#64, u⟩

/-! ### WellFormed refuses odd pairs (30_encoding.md R92) -/

theorem test_mulwu_odd_refused : (Instr.mulwu 9 0 0).wellFormed = false := by decide
theorem test_divq9_odd_refused : (Instr.divq9 2 1).wellFormed = false := by decide
theorem test_dparse_odd_refused : (Instr.dparse 9).wellFormed = false := by decide
theorem test_dparser_odd_refused : (Instr.dparser 1).wellFormed = false := by decide
theorem test_dfmt_odd_refused : (Instr.dfmt 15).wellFormed = false := by decide
theorem test_mulwu_even_accepted : (Instr.mulwu 14 15 15).wellFormed = true := by decide

/-! ### Decoding: the words of 30_encoding.md R103 and 95_test_vectors.md 2.1 -/

theorem test_decode_add : decode 0x00045501#32 = .command (.add 5 5 4) := by decide
theorem test_decode_sub : decode 0x00032102#32 = .command (.sub 1 2 3) := by decide
theorem test_decode_mul : decode 0x00023503#32 = .command (.mul 5 3 2) := by decide
theorem test_decode_div : decode 0x00021304#32 = .command (.div 3 1 2) := by decide
theorem test_decode_mod : decode 0x00021405#32 = .command (.mod 4 1 2) := by decide
theorem test_decode_neg : decode 0x00002106#32 = .command (.neg 1 2) := by decide
theorem test_decode_mulwu : decode 0x00021408#32 = .command (.mulwu 4 1 2) := by decide
theorem test_decode_divq9 : decode 0x00000209#32 = .command (.divq9 2 0) := by decide
theorem test_decode_shl : decode 0x00032110#32 = .command (.shl 1 2 3) := by decide
theorem test_decode_shr : decode 0x00032111#32 = .command (.shr 1 2 3) := by decide
theorem test_decode_shru : decode 0x00032112#32 = .command (.shru 1 2 3) := by decide
theorem test_decode_shli : decode 0x02002114#32 = .command (.shli 1 2 32) := by decide
theorem test_decode_shri : decode 0x03F02115#32 = .command (.shri 1 2 63) := by decide
theorem test_decode_shrui : decode 0x00102116#32 = .command (.shrui 1 2 1) := by decide
theorem test_decode_cmp : decode 0x00032118#32 = .command (.cmp 1 2 3) := by decide
theorem test_decode_cmpu : decode 0x00034619#32 = .command (.cmpu 6 4 3) := by decide
theorem test_decode_eq : decode 0x0001561A#32 = .command (.eq 6 5 1) := by decide
theorem test_decode_cvtf : decode 0x00002120#32 = .command (.cvtf 1 2 false) := by decide
theorem test_decode_cvtf_unsigned : decode 0x04002120#32 = .command (.cvtf 1 2 true) := by decide
theorem test_decode_iparse : decode 0x04A00121#32 = .command (.iparse 1 10 true) := by decide
theorem test_decode_ifmt : decode 0x00A03022#32 = .command (.ifmt 3 10) := by decide
theorem test_decode_dparse : decode 0x00000828#32 = .command (.dparse 8) := by decide
theorem test_decode_dparser : decode 0x00000A29#32 = .command (.dparser 10) := by decide
theorem test_decode_dfmt : decode 0x0000802A#32 = .command (.dfmt 8) := by decide
theorem test_decode_mov : decode 0x00002114#32 = .command (Instr.mov 1 2) := by decide
theorem test_decode_clr : decode 0x00033302#32 = .command (Instr.clr 3) := by decide

/-- The words of 95_test_vectors.md 2.1 that spell no command. -/
def illegalWords : List BusWord :=
  [0x00000000#32, 0x00000007#32, 0x000000FF#32, 0x08000001#32, 0x80000001#32, 0x04000001#32, 0x00100001#32, 0x00100006#32,
   0x00010106#32, 0x00000908#32, 0x00001209#32, 0x00011209#32, 0x00000928#32, 0x00000129#32, 0x0000902A#32, 0x00000A2A#32,
   0x00003021#32, 0x00010021#32, 0x00000122#32, 0x04001022#32, 0x04002114#32, 0x00010114#32, 0x00012120#32, 0x0000F00F#32]

theorem test_illegal_words : illegalWords.all (fun w => decodeTableWord 32 w.toNat == none) = true := by decide

theorem test_encode_shli : encode (.shli 1 2 32) = 0x02002114#32 := by decide

/-! ### The assembler's text (30_encoding.md R103) -/

theorem test_asm_shli : asmText (.shli 1 2 32) = text "SHLI x1, x2, 32" := by decide
theorem test_asm_iparse : asmText (.iparse 1 10 true) = text "IPARSE x1, 10, u" := by decide

/-! ### One step of each command (95_test_vectors.md 2.2 to 2.8) -/

theorem test_add_wraps : (run 0x00032101 [(2, ⟨0x7FFFFFFFFFFFFFFF#64, false⟩), (3, ⟨1#64, false⟩)] []).x 1 = minReg false := by
  decide
theorem test_add_tag_of_first : (run 0x00032101 [(2, onesReg true), (3, ⟨1#64, false⟩)] []).x 1 = ⟨0#64, true⟩ := by decide
theorem test_sub_unsigned_wraps : (run 0x00032102 [(2, ⟨0#64, true⟩), (3, ⟨1#64, false⟩)] []).x 1 = onesReg true := by decide
theorem test_mul_low : (run 0x00032103 [(2, ⟨0xFFFFFFFF#64, false⟩), (3, ⟨0xFFFFFFFF#64, false⟩)] []).x 1 =
    ⟨0xFFFFFFFE00000001#64, false⟩ := by decide
theorem test_div_truncates : (run 0x00032104 [(2, ⟨0xFFFFFFFFFFFFFFF9#64, false⟩), (3, ⟨2#64, false⟩)] []).x 1 =
    ⟨0xFFFFFFFFFFFFFFFD#64, false⟩ := by decide
theorem test_div_min_by_minus_one : (run 0x00032104 [(2, minReg false), (3, onesReg true)] []).x 1 = minReg false := by decide
theorem test_mod_sign_of_dividend : (run 0x00032105 [(2, ⟨0xFFFFFFFFFFFFFFF9#64, false⟩), (3, ⟨2#64, false⟩)] []).x 1 =
    onesReg false := by decide
theorem test_mod_by_zero : (run 0x00032105 [(2, ⟨1#64, false⟩)] []).status.word = 0x00000206#32 := by decide
theorem test_neg_unsigned : (run 0x00002106 [(2, ⟨1#64, true⟩)] []).x 1 = onesReg true := by decide
theorem test_neg_min : (run 0x00002106 [(2, minReg false)] []).x 1 = minReg false := by decide
theorem test_mulwu_high : (run 0x00021408 [(1, onesReg false), (2, onesReg true)] []).x 5 = ⟨0xFFFFFFFFFFFFFFFE#64, true⟩ := by
  decide
theorem test_mulwu_low : (run 0x00021408 [(1, onesReg false), (2, ⟨2#64, false⟩)] []).x 4 = ⟨0xFFFFFFFFFFFFFFFE#64, true⟩ := by
  decide
theorem test_divq9_remainder : (run 0x0000E809 [(14, onesReg false), (15, onesReg false)] []).x 8 = ⟨0x2DC9F9FF#64, true⟩ := by
  decide
theorem test_divq9_remainder_wins : (run 0x0000EE09 [(14, ⟨1000000005#64, false⟩)] []).x 14 = ⟨5#64, true⟩ := by decide
theorem test_shl_amount_65 : (run 0x00032110 [(2, ⟨5#64, false⟩), (3, ⟨65#64, false⟩)] []).x 1 = ⟨0xA#64, false⟩ := by decide
theorem test_shr_arithmetic : (run 0x00032111 [(2, minReg true), (3, ⟨63#64, false⟩)] []).x 1 = onesReg true := by decide
theorem test_shru_logical : (run 0x00032112 [(2, ⟨0x0123456789ABCDEF#64, false⟩), (3, ⟨136#64, false⟩)] []).x 1 =
    ⟨0x000123456789ABCD#64, false⟩ := by decide
theorem test_shli_32 : (run 0x02002114 [(2, ⟨0x0123456789ABCDEF#64, false⟩)] []).x 1 = ⟨0x89ABCDEF00000000#64, false⟩ := by decide
theorem test_shri_63 : (run 0x03F02115 [(2, minReg false)] []).x 1 = onesReg false := by decide
theorem test_shrui_1 : (run 0x00102116 [(2, onesReg true)] []).x 1 = ⟨0x7FFFFFFFFFFFFFFF#64, true⟩ := by decide
theorem test_cmp_mixed_tags : (run 0x00032118 [(2, minReg false), (3, minReg true)] []).x 1 = onesReg false := by decide
theorem test_cmpu_ignores_tags : (run 0x00032119 [(2, minReg false), (3, ⟨0x7FFFFFFFFFFFFFFF#64, false⟩)] []).x 1 =
    ⟨1#64, false⟩ := by decide
theorem test_eq_sign_bits : (run 0x0003211A [(2, minReg false), (3, minReg true)] []).x 1 = ⟨0#64, false⟩ := by decide
theorem test_eq_small : (run 0x0003211A [(2, ⟨5#64, false⟩), (3, ⟨5#64, true⟩)] []).x 1 = ⟨1#64, false⟩ := by decide
theorem test_cvtf_fraction : (run 0x00002120 [(2, ⟨0xC1F00000001E6666#64, false⟩)] []).x 1 = ⟨0xFFFFFFFEFFFFFFFF#64, false⟩ := by
  decide
theorem test_cvtf_unsigned_clamps : (run 0x04002120 [(2, ⟨0x43F0000000000000#64, false⟩)] []).x 1 = onesReg true := by decide
theorem test_iparse_negative : (run 0x06400121 [] (text "-zz")).x 1 = ⟨0xFFFFFFFFFFFFFAF1#64, true⟩ := by decide
theorem test_iparse_radix_first : (run 0x02800121 [] (text "1-")).status.word = 0x00000406#32 := by decide
theorem test_ifmt_min_36 : (run 0x02401022 [(1, minReg false)] []).text = text "-1y2p0ij32e8e8" := by decide
theorem test_ifmt_unsigned : (run 0x00A01022 [(1, onesReg true)] []).text = text "18446744073709551615" := by decide
theorem test_dparse_hi : (run 0x00000828 [] (text "123.456E-2")).x 9 = ⟨0x3036000000000000#64, true⟩ := by decide
theorem test_dparse_inexact : (run 0x00000828 [] (text "15E-6177")).status.word = 0x00000606#32 := by decide
theorem test_dparser_tie : (run 0x00000829 [] (text "15E-6177")).x 8 = ⟨2#64, true⟩ := by decide
theorem test_dparser_carry : (run 0x00000829 [] (text "9.5E-6176")).x 9 = ⟨0x0002000000000000#64, true⟩ := by decide
theorem test_dfmt_positional : (run 0x0000802A [(9, ⟨0x302C000000000000#64, false⟩), (8, ⟨0x3039#64, true⟩)] []).text =
    text "0.0000012345" := by decide
theorem test_dfmt_scientific : (run 0x0000802A [(9, ⟨0x3042000000000000#64, false⟩), (8, ⟨0x1E240#64, true⟩)] []).text =
    text "1.23456E+6" := by decide

/-! ### Causes and STATUS (95_test_vectors.md 2.9) -/

theorem test_illegal_status : (run 0x00000000 [] []).status.word = 0x00000106#32 := by decide
theorem test_illegal_before_zero_divisor : (run 0x08041804 [] []).status.word = 0x00000106#32 := by decide

/-! ### The window (95_test_vectors.md 2.10) -/

theorem test_w1_id : (give State.reset (.read 0x000 .w32)).response = some (.data (.b32 0x4E430100#32)) := by decide
theorem test_w3_tlen_clamps : (give State.reset (.write 0x010 (.b32 0x00002001#32))).tlen = 8192#14 := by decide
theorem test_w10_hi_word : (give (start [(2, ⟨0x0123456789ABCDEF#64, false⟩)] []) (.write 0x124 (.b32 0xFFFFFFFF#32))).x 2 =
    ⟨0xFFFFFFFF89ABCDEF#64, false⟩ := by decide
theorem test_w11_little_endian : (give (start [] (text "ABCD")) (.read 0x2000 .w32)).response =
    some (.data (.b32 0x44434241#32)) := by decide
theorem test_w14_misaligned : (give State.reset (.write 0x0006 (.b32 0#32))).response = some (.busError none) := by decide
theorem test_w20_dropped : (give (busy State.reset 0x00032101#32) (.write 0x110 (.b32 5#32))).status.word = 0x00000009#32 := by
  decide
theorem test_w25_reset_abandons : (give (busy State.reset 0x00032101#32) .reset).status.word = 0#32 := by decide
theorem test_schedule_notation : hostCMD 0x00032101#32 = [.write 0x00C (.b32 0x00032101#32), .complete, .read 0x008 .w32] := by
  decide
theorem test_reset_form : Memory.wf State.reset.tb = true := by decide

/-! ### Cases that meet the hypotheses of the statements

One theorem per statement with hypotheses, one conjunct per clause. -/

/-- The schedule `[e]` in front of the reset state. -/
def sched (s : State) (e : Event) : State := { s with env := [e] }

/-- The event just placed is the next one. -/
theorem next_sched (s : State) (e : Event) : Next (sched s e) e { s with env := [] } := ⟨[], rfl, rfl⟩

/-- The text of `start`. -/
theorem text_start (t : List Byte) (h : t.length < 2 ^ 14) : (start [] t).text = t := State.text_setText _ t h

theorem witness_DecodeInvertsEncode : (Instr.mulwu 14 15 15).wellFormed = true := by decide

theorem witness_EncodeInvertsDecode : decode 0x000FFE08#32 = .command (.mulwu 14 15 15) := by decide

theorem witness_StepRunsDecodedCommand :
    ((busy State.reset 0x00045501#32).status.busy = true ∧ decode (busy State.reset 0x00045501#32).cmd = .command (.add 5 5 4) ∧
      (busy State.reset 0x00045501#32).env = []) ∧
    ((sched (busy State.reset 0x00045501#32) .complete).status.busy = true ∧
      decode (sched (busy State.reset 0x00045501#32) .complete).cmd = .command (.add 5 5 4) ∧
      Next (sched (busy State.reset 0x00045501#32) .complete) .complete (busy State.reset 0x00045501#32)) ∧
    (Next (sched (busy State.reset 0x00045501#32) (.completeWithStatusWrite 4#32)) (.completeWithStatusWrite 4#32)
        (busy State.reset 0x00045501#32) ∧
      ∃ t, exec (.add 5 5 4) (busy State.reset 0x00045501#32) = .next t) ∧
    (State.reset.status.busy = false ∧ State.reset.env = []) :=
  ⟨⟨by decide, by decide, rfl⟩, ⟨by decide, by decide, ⟨[], rfl, rfl⟩⟩, ⟨⟨[], rfl, rfl⟩, _, rfl⟩, by decide, rfl⟩

theorem witness_IllegalWordRaisesIllegal :
    (∀ r ∈ opcodeRows, (busy State.reset 0x00000000#32).cmd &&& r.mask ≠ r.matchWord) ∧
    (∀ r ∈ opcodeRows, (busy State.reset 0x08000001#32).cmd &&& r.mask ≠ r.matchWord) ∧
    (∀ r ∈ opcodeRows, (busy State.reset 0xFFFFFFFF#32).cmd &&& r.mask ≠ r.matchWord) ∧
    (busy State.reset 0x08000001#32).status.busy = true ∧ (busy State.reset 0x08000001#32).env = [] ∧
    Next (sched (busy State.reset 0x08000001#32) .complete) .complete (busy State.reset 0x08000001#32) :=
  ⟨by decide, by decide, by decide, by decide, rfl, ⟨[], rfl, rfl⟩⟩

theorem witness_CausesComeFromTheirCommands :
    (∃ t, exec (.div 1 2 3) State.reset = .next t ∧ t.status.cause = .divByZero) ∧
    (∃ t, exec (.iparse 1 10 false) State.reset = .next t ∧ t.status.cause = .format) ∧
    (∃ t, exec (.ifmt 1 37) State.reset = .next t ∧ t.status.cause = .radix) ∧
    (∃ t, exec (.dparse 8) (start [] (text "1E+6145")) = .next t ∧ t.status.cause = .overflow) ∧
    (∃ t, exec (.dparse 8) (start [] (text "15E-6177")) = .next t ∧ t.status.cause = .inexact) ∧
    (∃ t, exec (.dparse 8) (start [] (text "1E-6177")) = .next t ∧ t.status.cause = .underflow) :=
  ⟨⟨_, rfl, by decide⟩, ⟨_, rfl, by decide⟩, ⟨_, rfl, by decide⟩, ⟨_, rfl, by decide⟩, ⟨_, rfl, by decide⟩, ⟨_, rfl, by decide⟩⟩

theorem witness_BusyPeriodEnds :
    (busy State.reset 0x00045501#32).status.busy = true ∧
    ∀ e ∈ [Event.read 0x3FFC .w32, .write 0x3FFF (.b8 1#8), .completeWithStatusWrite 2#32, .reset], InWindow e := by
  refine ⟨by decide, ?_⟩
  intro e he
  simp only [List.mem_cons, List.not_mem_nil, or_false] at he
  rcases he with rfl | rfl | rfl | rfl <;> simp [InWindow]

/-- The registers of the division cases: x1 and x2 as given. -/
def pairOf (a b : Reg) : State := start [(1, a), (2, b)] []

theorem witness_DivWritesQuotient :
    ((pairOf (minReg false) ⟨0#64, true⟩).x 2).v = 0#64 ∧
    (((pairOf (onesReg true) (onesReg false)).x 2).v ≠ 0#64 ∧ ((pairOf (onesReg true) (onesReg false)).x 1).u = true) ∧
    (((pairOf (minReg false) (onesReg false)).x 2).v ≠ 0#64 ∧ ((pairOf (minReg false) (onesReg false)).x 1).u = false) := by decide

theorem witness_ModWritesRemainder :
    ((pairOf (onesReg true) ⟨0#64, false⟩).x 2).v = 0#64 ∧
    (((pairOf (onesReg true) ⟨1#64, false⟩).x 2).v ≠ 0#64 ∧ ((pairOf (onesReg true) ⟨1#64, false⟩).x 1).u = true) ∧
    (((pairOf (minReg false) (minReg true)).x 2).v ≠ 0#64 ∧ ((pairOf (minReg false) (minReg true)).x 1).u = false) := by decide

theorem witness_SignedDivisionSigns :
    ∀ c ∈ [(⟨0#64, false⟩, ⟨1#64, false⟩, true, 1), (minReg false, ⟨1#64, false⟩, false, 1),
        (⟨0#64, false⟩, onesReg true, true, -1), (minReg false, onesReg false, false, -1), (minReg false, ⟨0#64, false⟩, false, 0)],
      let s := pairOf c.1 c.2.1;
      (s.x 1).u = false ∧ (c.2.2.1 = true ↔ 0 ≤ (s.x 1).v.toInt) ∧ (s.x 2).v.toInt.sign = (c.2.2.2 : Int) := by
  decide

theorem witness_DivisionIdentity :
    (((pairOf (onesReg true) ⟨1#64, false⟩).x 2).v ≠ 0#64 ∧ ((pairOf (onesReg true) ⟨1#64, false⟩).x 1).u = true) ∧
    (((pairOf (minReg false) ⟨1#64, false⟩).x 2).v ≠ 0#64 ∧ ((pairOf (minReg false) ⟨1#64, false⟩).x 1).u = false ∧
      ¬ (((pairOf (minReg false) ⟨1#64, false⟩).x 1).v.toInt = -2 ^ 63 ∧
        ((pairOf (minReg false) ⟨1#64, false⟩).x 2).v.toInt = -1)) := by
  decide

theorem witness_MulwuWritesProductPair : evenReg 0#4 = true ∧ evenReg 14#4 = true ∧ evenReg 15#4 = false := by decide

theorem witness_Divq9DividesPair :
    evenReg 14#4 = true ∧ evenReg 1#4 = false ∧ (14#4 ≠ highReg 14#4) ∧ (highReg 14#4 ≠ 14#4) ∧ (8#4 ≠ 14#4 ∧ 8#4 ≠ highReg 14#4) := by decide

theorem witness_WideStepLaws : evenReg 14#4 = true ∧ (13#4 ≠ 14#4 ∧ 13#4 ≠ highReg 14#4) := by decide

theorem witness_ShiftLaws :
    ((pairOf (onesReg true) (minReg false)).x 2).v.toNat = 2 ^ (63#6).toNat ∧
    (((pairOf (onesReg true) ⟨1#64, false⟩).x 2).v.toNat = 2 ^ (0#6).toNat ∧
      ((pairOf (onesReg true) ⟨1#64, false⟩).x 1).u = true) ∧
    ((pairOf ⟨0x7FFFFFFFFFFFFFFF#64, false⟩ ⟨127#64, false⟩).x 1).v.getLsbD 63 = false ∧
    (63#6).toNat = amountOf ((pairOf ⟨0x7FFFFFFFFFFFFFFF#64, false⟩ ⟨127#64, false⟩).x 2) := by
  decide

theorem witness_CmpComparesValues :
    (minReg false).val < (minReg true).val ∧ (⟨5#64, false⟩ : Reg).val = (⟨5#64, true⟩ : Reg).val ∧
    (⟨0x7FFFFFFFFFFFFFFF#64, false⟩ : Reg).val < (minReg true).val ∧
    (pairOf (minReg false) (minReg true)).x 1 = minReg false ∧ (pairOf (minReg false) (minReg true)).x 2 = minReg true := by
  decide

theorem witness_CmpuComparesPatternsAndShowsCarry :
    ((pairOf ⟨0x7FFFFFFFFFFFFFFF#64, false⟩ (minReg false)).x 1).v.toNat <
      ((pairOf ⟨0x7FFFFFFFFFFFFFFF#64, false⟩ (minReg false)).x 2).v.toNat ∧
    ((pairOf (onesReg true) (onesReg false)).x 1).v = ((pairOf (onesReg true) (onesReg false)).x 2).v ∧
    ((pairOf (onesReg true) ⟨0#64, true⟩).x 2).v.toNat < ((pairOf (onesReg true) ⟨0#64, true⟩).x 1).v.toNat ∧ 1#4 ≠ 2#4 := by
  decide

theorem witness_EqTestsEquality :
    (let s := pairOf ⟨0x7FFFFFFFFFFFFFFF#64, false⟩ ⟨0x7FFFFFFFFFFFFFFF#64, true⟩;
      (s.x 1).v = (s.x 2).v ∧ ¬ ((s.x 1).u ≠ (s.x 2).u ∧ (s.x 1).v.getLsbD 63 = true ∧ (s.x 2).v.getLsbD 63 = true)) ∧
    (let s := pairOf (minReg false) (minReg true);
      ¬ ((s.x 1).v = (s.x 2).v ∧
        ¬ ((s.x 1).u ≠ (s.x 2).u ∧ (s.x 1).v.getLsbD 63 = true ∧ (s.x 2).v.getLsbD 63 = true))) := by
  decide

theorem witness_ComparisonLaws :
    (((pairOf (onesReg true) (minReg true)).x 1).u = true ∧ ((pairOf (onesReg true) (minReg true)).x 2).u = true) ∧
    (((pairOf (onesReg false) (minReg false)).x 1).u = false ∧ ((pairOf (onesReg false) (minReg false)).x 2).u = false ∧
      ((pairOf (onesReg false) (minReg false)).x 1).v.getLsbD 63 = ((pairOf (onesReg false) (minReg false)).x 2).v.getLsbD 63) ∧
    (run 0x00021118 [(1, minReg false), (2, ⟨0#64, false⟩), (3, ⟨1#64, true⟩)] []).x 1 = onesReg false ∧
    (run 0x00032118 [(1, minReg false), (2, ⟨0#64, false⟩), (3, ⟨1#64, true⟩)] []).x 1 = onesReg false := by
  decide

theorem witness_CvtfConvertsBinary64 :
    (let w := (pairOf ⟨0x7FF0000000000001#64, false⟩ Reg.zero).x 1;
      w.v.extractLsb' 52 11 = 0x7FF#11 ∧ w.v.extractLsb' 0 52 ≠ 0#52) ∧
    (let w := (pairOf ⟨0xFFF0000000000000#64, false⟩ Reg.zero).x 1;
      w.v.extractLsb' 52 11 = 0x7FF#11 ∧ w.v.extractLsb' 0 52 = 0#52) ∧
    (let w := (pairOf ⟨0x7FEFFFFFFFFFFFFF#64, false⟩ Reg.zero).x 1;
      w.v.extractLsb' 52 11 ≠ 0x7FF#11) := by
  decide

theorem radix_ten : Radix 0#6 10 := .inl ⟨rfl, rfl⟩
theorem radix_two : Radix 2#6 2 := .inr (by decide)
theorem radix_greatest : Radix 36#6 36 := .inr (by decide)

theorem integerText_zz : IntegerText 36 (text "-zZ") (-1295) :=
  ⟨[0x7A#8, 0x5A#8], [35, 35], by decide, .cons (.inr (.inl (by decide))) (.cons (.inr (.inr (by decide))) .nil), by decide,
    .inr ⟨by decide, by norm_num [Nat.ofDigits]⟩⟩

/-- "+" is no digit. -/
theorem not_digit_plus (d : Nat) : ¬ DigitByte 0x2B#8 d := by
  simp [DigitByte]; omega

theorem witness_IparseReadsIntegerText :
    State.reset.tlen = 0#14 ∧
    ((start [] (text "1-")).tlen ≠ 0#14 ∧ RadixOutOfRange 1#6 ∧ RadixOutOfRange 37#6 ∧ RadixOutOfRange 63#6) ∧
    ((start [] (text "+")).tlen ≠ 0#14 ∧ Radix 36#6 36 ∧ ∀ v, ¬ IntegerText 36 (start [] (text "+")).text v) ∧
    (Radix 36#6 36 ∧ IntegerText 36 (start [] (text "-zZ")).text (-1295)) := by
  rw [text_start (text "+") (by decide), text_start (text "-zZ") (by decide)]
  refine ⟨rfl, ⟨by decide, .inl rfl, .inr (by decide), .inr (by decide)⟩, ⟨by decide, radix_greatest, ?_⟩, radix_greatest,
    integerText_zz⟩
  rintro v ⟨ds, vs, hne, hd, -, h⟩
  rcases h with ⟨rfl, -⟩ | ⟨h, -⟩
  · cases hd with
    | cons h1 _ => exact not_digit_plus _ h1
  · exact absurd (List.cons.inj h).1 (by decide)

theorem witness_IfmtWritesShortestText :
    Radix 0#6 10 ∧ Radix 2#6 2 ∧ Radix 36#6 36 ∧ RadixOutOfRange 1#6 ∧ RadixOutOfRange 37#6 ∧ RadixOutOfRange 63#6 :=
  ⟨radix_ten, radix_two, radix_greatest, .inl rfl, .inr (by decide), .inr (by decide)⟩

theorem witness_IntegerTextRoundTrip : Radix 36#6 36 := radix_greatest

/-! ### Decimal texts -/

/-- A numeric text with an exponent and without a point. -/
theorem numeric_exp (neg : Bool) (sg ip : List Byte) (eneg : Bool) (esg ds : List Byte) (hs : SignPart neg sg) (hi : ip ≠ [])
    (hd : DecDigits ip) (hes : SignPart eneg esg) (hds : ds ≠ []) (hdd : DecDigits ds) :
    NumericText (sg ++ ip ++ [] ++ 0x45#8 :: (esg ++ ds)) neg (decInt ip)
      (if eneg then -(decInt ds : Int) else (decInt ds : Int)) :=
  ⟨sg, ip, [], [], _, _, hs, hi, hd, .inl ⟨rfl, rfl⟩, .inr ⟨eneg, esg, ds, hes, hds, hdd, rfl, rfl⟩, rfl, by simp, by simp⟩

/-- The digits of "n" repeated. -/
def nines (k : Nat) : List Byte := List.replicate k 0x39#8

/-- "1" and zeros. -/
def oneZeros (k : Nat) : List Byte := 0x31#8 :: List.replicate k 0x30#8

theorem sign_none : SignPart false [] := .inl ⟨rfl, .inl rfl⟩
theorem sign_plus : SignPart false [0x2B#8] := .inl ⟨rfl, .inr rfl⟩
theorem sign_minus : SignPart true [0x2D#8] := .inr ⟨rfl, rfl⟩

/-- A text "<digits>E<sign><digits>" as the text of a state. -/
theorem numeric_state (t : List Byte) (neg : Bool) (sg ip : List Byte) (eneg : Bool) (esg ds : List Byte) (c : Nat) (q : Int)
    (ht : t = sg ++ ip ++ [] ++ 0x45#8 :: (esg ++ ds)) (hl : t.length < 2 ^ 14) (hs : SignPart neg sg) (hi : ip ≠ [])
    (hd : DecDigits ip) (hes : SignPart eneg esg) (hds : ds ≠ []) (hdd : DecDigits ds) (hc : decInt ip = c)
    (hq : (if eneg then -(decInt ds : Int) else (decInt ds : Int)) = q) : NumericText (start [] t).text neg c q := by
  rw [text_start t hl, ht, ← hc, ← hq]
  exact numeric_exp neg sg ip eneg esg ds hs hi hd hes hds hdd

theorem dec_nines (k : Nat) : DecDigits (nines k) := by
  intro b hb; rw [List.eq_of_mem_replicate hb]; decide

/-- The number of digits of `c`, by the digits themselves. -/
theorem digitCount_of_lt (c k : Nat) (h1 : 10 ^ k ≤ c) (h2 : c < 10 ^ (k + 1)) : digitCount c = k + 1 := by
  have h0 : c ≠ 0 := by
    have : 0 < 10 ^ k := by positivity
    omega
  simp only [digitCount, outDigits, h0, if_false, List.length_reverse, List.length_map]
  have h3 : (Nat.digits 10 c).length ≤ k + 1 := (Nat.digits_length_le_iff (by omega) c).mpr h2
  have h4 : k < (Nat.digits 10 c).length := (Nat.lt_digits_length_iff (by omega) c).mpr h1
  omega

theorem witness_DecimalParseKeepsFittingNumber :
    (evenReg 14#4 = true ∧ evenReg 9#4 = false) ∧
    ((start [] (text "9999999999999999999999999999999999E6111")).tlen.toNat < 7000 ∧
      NumericText (start [] (text "9999999999999999999999999999999999E6111")).text false (10 ^ 34 - 1) 6111) ∧
    ((start [] (text "-1E-6176")).tlen.toNat < 7000 ∧ NumericText (start [] (text "-1E-6176")).text true 1 (-6176)) :=
  ⟨by decide,
   ⟨by decide, numeric_state _ false [] (nines 34) false [] [0x36#8, 0x31#8, 0x31#8, 0x31#8] _ _ (by decide) (by decide)
      sign_none (by decide) (dec_nines 34) sign_none (by decide) (by unfold DecDigits; decide)
      (by simp [decInt, nines, List.replicate, Nat.ofDigits_cons]) (by simp [decInt, Nat.ofDigits_cons])⟩,
   ⟨by decide, numeric_state _ true [0x2D#8] [0x31#8] true [0x2D#8] [0x36#8, 0x31#8, 0x37#8, 0x36#8] _ _ (by decide) (by decide)
      sign_minus (by decide) (by unfold DecDigits; decide) sign_minus (by decide) (by unfold DecDigits; decide)
      (by simp [decInt]) (by simp [decInt, Nat.ofDigits_cons])⟩⟩

theorem witness_DecimalZeroClampsExponent :
    evenReg 8#4 = true ∧ (start [] (text "-0E+7000")).tlen.toNat < 7000 ∧
    NumericText (start [] (text "-0E+7000")).text true 0 7000 :=
  ⟨by decide, by decide, numeric_state _ true [0x2D#8] [0x30#8] false [0x2B#8] [0x37#8, 0x30#8, 0x30#8, 0x30#8] _ _ (by decide)
    (by decide) sign_minus (by decide) (by unfold DecDigits; decide) sign_plus (by decide) (by unfold DecDigits; decide)
    (by simp [decInt]) (by simp [decInt, Nat.ofDigits_cons])⟩

theorem witness_DecimalSpecialForms :
    evenReg 8#4 = true ∧ InfinityForm (start [] (text "-Infinity")).text true ∧ NanForm (start [] (text "+NaN")).text := by
  rw [text_start _ (by decide), text_start _ (by decide)]
  exact ⟨by decide, ⟨_, sign_minus, by decide⟩, ⟨_, _, sign_plus, by decide⟩⟩

/-- ".5" is none of the forms (95_test_vectors.md 2.7). -/
theorem witness_DecimalMalformedRaisesFormat :
    7000 ≤ ({ State.reset with tlen := 7000#14 } : State).tlen.toNat ∧
    ((∀ neg, ¬ InfinityForm (start [] (text ".5")).text neg) ∧ ¬ NanForm (start [] (text ".5")).text ∧
      ∀ neg c q, ¬ NumericText (start [] (text ".5")).text neg c q) := by
  rw [text_start _ (by decide)]
  have hne : text ".5" = [0x2E#8, 0x35#8] := by decide
  rw [hne]
  refine ⟨by decide, ?_, ?_, ?_⟩
  · rintro neg ⟨sg, -, h⟩
    have := congrArg List.length h
    simp at this
  · rintro ⟨neg, sg, -, h⟩
    have := congrArg List.length h
    simp at this
  · rintro neg c q ⟨sg, ip, ft, fp, et, e, hs, hi, hd, -, -, h, -, -⟩
    rcases hs with ⟨-, rfl | rfl⟩ | ⟨-, rfl⟩
    · cases ip with
      | nil => exact hi rfl
      | cons b bs =>
        have hb := hd b (by simp)
        have : b = 0x2E#8 := by simpa using (congrArg List.head? h).symm
        subst this
        exact absurd hb.1 (by decide)
    · exact absurd (congrArg List.head? h) (by simp)
    · exact absurd (congrArg List.head? h) (by simp)

theorem witness_DecimalExcessExponent :
    evenReg 8#4 = true ∧
    ((start [] (text "1E6145")).tlen.toNat < 7000 ∧ NumericText (start [] (text "1E6145")).text false 1 6145 ∧
      34 < min (digitCount 1 : Int) 34 + (6145 - 6111)) ∧
    ((start [] (text "1E6144")).tlen.toNat < 7000 ∧ NumericText (start [] (text "1E6144")).text false 1 6144 ∧
      min (digitCount 1 : Int) 34 + (6144 - 6111) ≤ 34) := by
  rw [show digitCount 1 = 1 from digitCount_of_lt 1 0 (by decide) (by decide)]
  exact ⟨by decide,
    ⟨by decide, numeric_state _ false [] [0x31#8] false [] [0x36#8, 0x31#8, 0x34#8, 0x35#8] _ _ (by decide) (by decide)
      sign_none (by decide) (by unfold DecDigits; decide) sign_none (by decide) (by unfold DecDigits; decide)
      (by simp [decInt]) (by simp [decInt, Nat.ofDigits_cons]), by decide⟩,
    ⟨by decide, numeric_state _ false [] [0x31#8] false [] [0x36#8, 0x31#8, 0x34#8, 0x34#8] _ _ (by decide) (by decide)
      sign_none (by decide) (by unfold DecDigits; decide) sign_none (by decide) (by unfold DecDigits; decide)
      (by simp [decInt]) (by simp [decInt, Nat.ofDigits_cons]), by decide⟩⟩

/-- A text "<digits>E-6177". -/
theorem numeric_low (ip : List Byte) (c : Nat) (t : List Byte) (ht : t = ip ++ [] ++ text "E-6177") (hl : t.length < 2 ^ 14)
    (hi : ip ≠ []) (hd : DecDigits ip) (hc : decInt ip = c) : NumericText (start [] t).text false c (-6177) :=
  numeric_state t false [] ip true [0x2D#8] [0x36#8, 0x31#8, 0x37#8, 0x37#8] c _ (by rw [ht]; rfl) hl sign_none hi hd sign_minus
    (by decide) (by unfold DecDigits; decide) hc (by simp [decInt, Nat.ofDigits_cons])

theorem witness_StrictParseDropsOnlyZeros :
    evenReg 8#4 = true ∧
    (NumericText (start [] (text "10E-6177")).text false 10 (-6177) ∧ 10 = 10 ^ 1 * 1 ∧ 1 % 10 ≠ 0 ∧
      ((1 : Nat) : Int) = max 0 (max ((digitCount 10 : Int) - 34) (-6176 - -6177)) ∧ 1 ≤ 1 ∧ (-6177 : Int) + 1 ≤ 6111) ∧
    (NumericText (start [] (text "15E-6177")).text false 15 (-6177) ∧ 15 = 10 ^ 0 * 15 ∧ 15 % 10 ≠ 0 ∧
      ((1 : Nat) : Int) = max 0 (max ((digitCount 15 : Int) - 34) (-6176 - -6177)) ∧ 0 < 1 ∧ 0 + 1 < digitCount 15) ∧
    (NumericText (start [] (text "1E-6177")).text false 1 (-6177) ∧ 1 = 10 ^ 0 * 1 ∧ 1 % 10 ≠ 0 ∧
      ((1 : Nat) : Int) = max 0 (max ((digitCount 1 : Int) - 34) (-6176 - -6177)) ∧ 0 < 1 ∧ 0 + 1 = digitCount 1) ∧
    ((start [] (oneZeros 34 ++ text "E6111")).tlen.toNat < 7000 ∧
      NumericText (start [] (oneZeros 34 ++ text "E6111")).text false (10 ^ 34) 6111 ∧ 10 ^ 34 = 10 ^ 34 * 1 ∧
      ((1 : Nat) : Int) = max 0 (max ((digitCount (10 ^ 34) : Int) - 34) (-6176 - 6111)) ∧
      6111 < (6111 : Int) + min (34 : Nat) (1 : Nat)) := by
  rw [show digitCount 10 = 2 from digitCount_of_lt 10 1 (by decide) (by decide),
    show digitCount 15 = 2 from digitCount_of_lt 15 1 (by decide) (by decide),
    show digitCount 1 = 1 from digitCount_of_lt 1 0 (by decide) (by decide),
    show digitCount (10 ^ 34) = 35 from digitCount_of_lt _ 34 (by decide) (by decide)]
  refine ⟨by decide, ⟨numeric_low [0x31#8, 0x30#8] 10 _ (by decide) (by decide) (by decide) (by unfold DecDigits; decide)
      (by simp [decInt, Nat.ofDigits_cons]), by decide⟩,
    ⟨numeric_low [0x31#8, 0x35#8] 15 _ (by decide) (by decide) (by decide) (by unfold DecDigits; decide)
      (by simp [decInt, Nat.ofDigits_cons]), by decide⟩,
    ⟨numeric_low [0x31#8] 1 _ (by decide) (by decide) (by decide) (by unfold DecDigits; decide)
      (by simp [decInt]), by decide⟩, by decide, ?_, by decide⟩
  exact numeric_state _ false [] (oneZeros 34) false [] [0x36#8, 0x31#8, 0x31#8, 0x31#8] _ _ (by decide) (by decide)
    sign_none (by decide) (by unfold DecDigits; decide) sign_none (by decide) (by unfold DecDigits; decide)
    (by simp [decInt, oneZeros, List.replicate, Nat.ofDigits_cons]) (by simp [decInt, Nat.ofDigits_cons])

theorem witness_StrictParseIsExact :
    evenReg 8#4 = true ∧ NumericText (start [] (text "10E-6177")).text false 10 (-6177) ∧
    ∃ t, exec (.dparse 8) (start [] (text "10E-6177")) = .next t ∧ t.status.cause = .none :=
  ⟨by decide, numeric_low [0x31#8, 0x30#8] 10 _ (by decide) (by decide) (by decide) (by unfold DecDigits; decide)
    (by simp [decInt, Nat.ofDigits_cons]), _, rfl, by decide⟩

theorem witness_RoundingParseRoundsHalfEven :
    evenReg 8#4 = true ∧
    (NumericText (start [] (oneZeros 34 ++ text "E6111")).text false (10 ^ 34) 6111 ∧
      ((1 : Nat) : Int) = max ((digitCount (10 ^ 34) : Int) - 34) (-6176 - 6111) ∧ 6111 < (6111 : Int) + (1 : Nat)) ∧
    (NumericText (start [] (text "6E-6177")).text false 6 (-6177) ∧
      ((1 : Nat) : Int) = max ((digitCount 6 : Int) - 34) (-6176 - -6177) ∧
      ¬ (1 < digitCount 6 ∧ rhe 6 1 = 10 ^ (digitCount 6 - 1))) ∧
    (NumericText (start [] (text "95E-6177")).text false 95 (-6177) ∧
      ((1 : Nat) : Int) = max ((digitCount 95 : Int) - 34) (-6176 - -6177) ∧ (-6177 : Int) + 1 < 6111 ∧
      1 < digitCount 95 ∧ rhe 95 1 = 10 ^ (digitCount 95 - 1)) ∧
    (NumericText (start [] (nines 35 ++ text "E6110")).text false (10 ^ 35 - 1) 6110 ∧
      ((1 : Nat) : Int) = max ((digitCount (10 ^ 35 - 1) : Int) - 34) (-6176 - 6110) ∧ (6110 : Int) + 1 = 6111 ∧
      1 < digitCount (10 ^ 35 - 1) ∧ rhe (10 ^ 35 - 1) 1 = 10 ^ (digitCount (10 ^ 35 - 1) - 1)) := by
  rw [show digitCount 6 = 1 from digitCount_of_lt 6 0 (by decide) (by decide),
    show digitCount 95 = 2 from digitCount_of_lt 95 1 (by decide) (by decide),
    show digitCount (10 ^ 34) = 35 from digitCount_of_lt _ 34 (by decide) (by decide),
    show digitCount (10 ^ 35 - 1) = 35 from digitCount_of_lt _ 34 (by decide) (by decide)]
  refine ⟨by decide, ⟨?_, by decide⟩, ⟨numeric_low [0x36#8] 6 _ (by decide) (by decide) (by decide) (by unfold DecDigits; decide)
      (by simp [decInt]), by decide⟩,
    ⟨numeric_low [0x39#8, 0x35#8] 95 _ (by decide) (by decide) (by decide) (by unfold DecDigits; decide)
      (by simp [decInt, Nat.ofDigits_cons]), by decide⟩, ?_, by decide⟩
  · exact numeric_state _ false [] (oneZeros 34) false [] [0x36#8, 0x31#8, 0x31#8, 0x31#8] _ _ (by decide) (by decide)
      sign_none (by decide) (by unfold DecDigits; decide) sign_none (by decide) (by unfold DecDigits; decide)
      (by simp [decInt, oneZeros, List.replicate, Nat.ofDigits_cons]) (by simp [decInt, Nat.ofDigits_cons])
  · exact numeric_state _ false [] (nines 35) false [] [0x36#8, 0x31#8, 0x31#8, 0x30#8] _ _ (by decide) (by decide)
      sign_none (by decide) (dec_nines 35) sign_none (by decide) (by unfold DecDigits; decide)
      (by simp [decInt, nines, List.replicate, Nat.ofDigits_cons]) (by simp [decInt, Nat.ofDigits_cons])

theorem witness_RoundingAgreesWithStrict :
    ∃ t, exec (.dparse 8) (start [] (text "0.1")) = .next t ∧ t.status.cause = .none := ⟨_, rfl, by decide⟩

/-- The registers of the formatting cases: the pair at x8. -/
def pairState (hi lo : Word) : State := start [(8, ⟨lo, false⟩), (9, ⟨hi, false⟩)] []

theorem witness_DfmtWritesText :
    evenReg 8#4 = true ∧ evenReg 9#4 = false ∧
    (((pairState 0xFC00000000000005#64 7#64).x (highReg 8)).v.extractLsb' 58 5 = 0b11111#5) ∧
    (((pairState 0x7BFF00000000FFFF#64 7#64).x (highReg 8)).v.extractLsb' 58 5 = 0b11110#5) ∧
    (((pairState 0xDFFFFFFFFFFFFFFF#64 7#64).x (highReg 8)).v.extractLsb' 61 2 ≠ 0b11#2) ∧
    (((pairState 0xF7FFFFFFFFFFFFFF#64 7#64).x (highReg 8)).v.extractLsb' 61 2 = 0b11#2 ∧
      ((pairState 0xF7FFFFFFFFFFFFFF#64 7#64).x (highReg 8)).v.extractLsb' 59 2 ≠ 0b11#2) := by decide

theorem witness_TextOutputsFitBuffer : Radix 2#6 2 ∧ Radix 36#6 36 ∧ Radix 0#6 10 := ⟨radix_two, radix_greatest, radix_ten⟩

/-- The pattern in the pair at x8. -/
def patternAt8 (s : State) : Nat := (s.x (highReg 8)).v.toNat * 2 ^ 64 + (s.x 8).v.toNat

theorem witness_StrictDecimalRoundTrip :
    evenReg 8#4 = true ∧ evenReg 14#4 = true ∧
    (10 ^ 34 - 1 < 10 ^ 34 ∧ (-6176 : Int) ≤ 6111 ∧
      patternAt8 (pairState 0xDFFFED09BEAD87C0#64 0x378D8E63FFFFFFFF#64) = finitePattern true 6111 (10 ^ 34 - 1)) ∧
    patternAt8 (pairState 0x0000000000000000#64 1#64) = finitePattern false (-6176) 1 ∧
    patternAt8 (pairState 0xF800000000000000#64 0#64) = infinityNumber true ∧
    patternAt8 (pairState 0x7C00000000000000#64 0#64) = nanNumber := by decide

theorem witness_UnsignedCommandsIgnoreTags :
    ∀ r, ((start [(3, onesReg true)] []).x r).v = ((start [(3, onesReg false)] []).x r).v := by decide

/-! ### Host accesses -/

theorem witness_BadAccessGetsBusError :
    (((0x1FFF < 0x2000 ∧ (1 ≠ 4 ∨ 0x1FFF % 4 ≠ 0)) ∨ (0x2000 ≤ 0x1FFF ∧ 0x1FFF % 1 ≠ 0)) ∧ (BusData.b8 1#8).width = .w8 ∧
      Next (sched State.reset (.read 0x1FFF .w8)) (.read 0x1FFF .w8) State.reset ∧
      Next (sched State.reset (.write 0x1FFF (.b8 1#8))) (.write 0x1FFF (.b8 1#8)) State.reset) ∧
    (((0x3FFE < 0x2000 ∧ (4 ≠ 4 ∨ 0x3FFE % 4 ≠ 0)) ∨ (0x2000 ≤ 0x3FFE ∧ 0x3FFE % 4 ≠ 0)) ∧ (BusData.b32 1#32).width = .w32 ∧
      Next (sched State.reset (.read 0x3FFE .w32)) (.read 0x3FFE .w32) State.reset ∧
      Next (sched State.reset (.write 0x3FFE (.b32 1#32))) (.write 0x3FFE (.b32 1#32)) State.reset) ∧
    (((0x1FFC < 0x2000 ∧ 4 = 4 ∧ 0x1FFC % 4 = 0) ∨ (0x2000 ≤ 0x1FFC ∧ 0x1FFC % 4 = 0)) ∧ (BusData.b32 1#32).width = .w32 ∧
      Next (sched State.reset (.read 0x1FFC .w32)) (.read 0x1FFC .w32) State.reset ∧
      Next (sched State.reset (.write 0x1FFC (.b32 1#32))) (.write 0x1FFC (.b32 1#32)) State.reset) ∧
    (((0x3FFF < 0x2000 ∧ 1 = 4 ∧ 0x3FFF % 4 = 0) ∨ (0x2000 ≤ 0x3FFF ∧ 0x3FFF % 1 = 0)) ∧ (BusData.b8 1#8).width = .w8 ∧
      Next (sched State.reset (.read 0x3FFF .w8)) (.read 0x3FFF .w8) State.reset ∧
      Next (sched State.reset (.write 0x3FFF (.b8 1#8))) (.write 0x3FFF (.b8 1#8)) State.reset) :=
  ⟨⟨by decide, rfl, next_sched State.reset _, next_sched State.reset _⟩,
    ⟨by decide, rfl, next_sched State.reset _, next_sched State.reset _⟩,
    ⟨by decide, rfl, next_sched State.reset _, next_sched State.reset _⟩,
    ⟨by decide, rfl, next_sched State.reset _, next_sched State.reset _⟩⟩

theorem witness_ReadsHaveNoSideEffects :
    0x3FFF < 0x4000 ∧ Next (sched State.reset (.read 0x3FFF .w8)) (.read 0x3FFF .w8) State.reset :=
  ⟨by decide, next_sched State.reset _⟩

theorem witness_IdleReadsFollowTheMap :
    (∀ off ∈ [0x000, 0x004, 0x008, 0x00C, 0x010, 0x014, 0x0FC, 0x100, 0x104, 0x108, 0x10C, 0x1F0, 0x1F4, 0x1F8, 0x1FC, 0x200,
        0x1FFC], off < 0x2000 ∧ off % 4 = 0 ∧ Next (sched State.reset (.read off .w32)) (.read off .w32) State.reset) ∧
    State.reset.status.busy = false ∧ 0x1F0 = 0x100 + 16 * (15#4 : RegNo).toNat ∧ 0x1F4 = 0x104 + 16 * (15#4 : RegNo).toNat ∧
    0x1F8 = 0x108 + 16 * (15#4 : RegNo).toNat ∧ 0x1FC = 0x10C + 16 * (15#4 : RegNo).toNat := by
  refine ⟨?_, by decide⟩
  have h : ∀ off ∈ [0x000, 0x004, 0x008, 0x00C, 0x010, 0x014, 0x0FC, 0x100, 0x104, 0x108, 0x10C, 0x1F0, 0x1F4, 0x1F8, 0x1FC,
      0x200, 0x1FFC], off < 0x2000 ∧ off % 4 = 0 := by decide
  exact fun off ho => ⟨(h off ho).1, (h off ho).2, next_sched State.reset _⟩

theorem witness_IdleWritesStoreTheirData :
    (∀ off ∈ [0x000, 0x004, 0x008, 0x010, 0x014, 0x100, 0x1F0, 0x1F4, 0x1F8, 0x1FC, 0x1FFC],
      off < 0x2000 ∧ off % 4 = 0 ∧ off ≠ 0x00C ∧
        Next (sched State.reset (.write off (.b32 5#32))) (.write off (.b32 5#32)) State.reset) ∧
    State.reset.status.busy = false := by
  refine ⟨?_, by decide⟩
  have h : ∀ off ∈ [0x000, 0x004, 0x008, 0x010, 0x014, 0x100, 0x1F0, 0x1F4, 0x1F8, 0x1FC, 0x1FFC],
      off < 0x2000 ∧ off % 4 = 0 ∧ off ≠ 0x00C := by decide
  exact fun off ho => ⟨(h off ho).1, (h off ho).2.1, (h off ho).2.2, next_sched State.reset _⟩

theorem witness_TextBufferIsLittleEndian :
    (Next (sched State.reset (.write (0x2000 + 8191) (.b8 1#8))) (.write (0x2000 + 8191) (.b8 1#8)) State.reset ∧ 8191 % 1 = 0) ∧
    (Next (sched State.reset (.write (0x2000 + 8190) (.b16 1#16))) (.write (0x2000 + 8190) (.b16 1#16)) State.reset ∧
      8190 % 2 = 0) ∧
    (Next (sched State.reset (.write (0x2000 + 8188) (.b32 1#32))) (.write (0x2000 + 8188) (.b32 1#32)) State.reset ∧
      8188 % 4 = 0) ∧
    (Next (sched State.reset (.read (0x2000 + 8191) .w8)) (.read (0x2000 + 8191) .w8) State.reset ∧
      Next (sched State.reset (.read (0x2000 + 8190) .w16)) (.read (0x2000 + 8190) .w16) State.reset ∧
      Next (sched State.reset (.read (0x2000 + 8188) .w32)) (.read (0x2000 + 8188) .w32) State.reset) ∧
    State.reset.status.busy = false :=
  ⟨⟨next_sched State.reset _, rfl⟩, ⟨next_sched State.reset _, rfl⟩, ⟨next_sched State.reset _, rfl⟩,
    ⟨next_sched State.reset _, next_sched State.reset _, next_sched State.reset _⟩, rfl⟩

/-- The reset state with ADD in flight. -/
def inFlight : State := busy State.reset 0x00032101#32

theorem witness_CommandWriteIsAccepted :
    (Next (sched State.reset (.write 0x00C (.b32 0#32))) (.write 0x00C (.b32 0#32)) State.reset ∧
      State.reset.status.busy = false) ∧
    (Next (sched inFlight (.write 0x00C (.b32 0#32))) (.write 0x00C (.b32 0#32)) inFlight ∧ inFlight.status.busy = true) ∧
    Next (sched inFlight (.read 0x00C .w32)) (.read 0x00C .w32) inFlight :=
  ⟨⟨next_sched State.reset _, rfl⟩, ⟨next_sched inFlight _, rfl⟩, next_sched inFlight _⟩

theorem witness_BusyWritesAreDropped :
    inFlight.status.busy = true ∧
    (∀ off ∈ [0x00C, 0x010, 0x100, 0x1F4, 0x1F8, 0x2000, 0x3FFC], off % 4 = 0 ∧
      Next (sched inFlight (.write off (.b32 5#32))) (.write off (.b32 5#32)) inFlight ∧
      Next (sched inFlight (.read off .w32)) (.read off .w32) inFlight) ∧
    (0x3FFF % 1 = 0 ∧ (BusData.b8 5#8).width = .w8 ∧
      Next (sched inFlight (.write 0x3FFF (.b8 5#8))) (.write 0x3FFF (.b8 5#8)) inFlight) ∧
    0x1F8 = 0x108 + 16 * (15#4 : RegNo).toNat ∧ 0x1FC = 0x10C + 16 * (15#4 : RegNo).toNat ∧
    Next (sched inFlight (.write 0x004 (.b32 3#32))) (.write 0x004 (.b32 3#32)) inFlight ∧
    Next (sched inFlight (.write 0x008 (.b32 8#32))) (.write 0x008 (.b32 8#32)) inFlight ∧
    (∀ off ∈ [0x000, 0x004, 0x008, 0x00C, 0x014, 0x0FC, 0x1FC, 0x200, 0x1FFC], off % 4 = 0 ∧
      Next (sched inFlight (.write off (.b32 5#32))) (.write off (.b32 5#32)) inFlight ∧
      Next (sched inFlight (.read off .w32)) (.read off .w32) inFlight) := by
  have h : ∀ off ∈ [0x00C, 0x010, 0x100, 0x1F4, 0x1F8, 0x2000, 0x3FFC], off % 4 = 0 := by decide
  have h' : ∀ off ∈ [0x000, 0x004, 0x008, 0x00C, 0x014, 0x0FC, 0x1FC, 0x200, 0x1FFC], off % 4 = 0 := by decide
  exact ⟨by decide, fun off ho => ⟨h off ho, next_sched inFlight _, next_sched inFlight _⟩,
    ⟨rfl, rfl, next_sched inFlight _⟩, by decide, by decide, next_sched inFlight _, next_sched inFlight _,
    fun off ho => ⟨h' off ho, next_sched inFlight _, next_sched inFlight _⟩⟩

theorem witness_InFlightOperandsAreFixed :
    inFlight.status.busy = true ∧
    (Next (sched inFlight (.write 0x110 (.b32 5#32))) (.write 0x110 (.b32 5#32)) inFlight ∧
      ∃ off, off < 0x4000 ∧ ((∃ width, Event.write 0x110 (.b32 5#32) = .read off width) ∨
        ∃ d, Event.write 0x110 (.b32 5#32) = .write off d)) ∧
    (Next (sched inFlight (.read 0x3FFF .w8)) (.read 0x3FFF .w8) inFlight ∧
      ∃ off, off < 0x4000 ∧ ((∃ width, Event.read 0x3FFF .w8 = .read off width) ∨ ∃ d, Event.read 0x3FFF .w8 = .write off d)) :=
  ⟨by decide, ⟨next_sched inFlight _, 0x110, by decide, .inr ⟨_, rfl⟩⟩,
    ⟨next_sched inFlight _, 0x3FFF, by decide, .inl ⟨_, rfl⟩⟩⟩

theorem witness_InterruptLineFollowsDoneAndErr :
    (∃ t, exec (.div 1 2 3) { State.reset with ctrl := ⟨false, true⟩ } = .next t ∧ t.irq = true) ∧
    (∃ t, exec (.add 1 2 3) { State.reset with ctrl := ⟨false, true⟩ } = .next t ∧ t.irq = false) ∧
    Next (sched State.reset (.write 0x00C (.b32 0#32))) (.write 0x00C (.b32 0#32)) State.reset ∧
    State.reset.status.busy = false ∧
    Next (sched inFlight (.write 0x008 (.b32 6#32))) (.write 0x008 (.b32 6#32)) inFlight ∧
    Next (sched inFlight (.write 0x004 (.b32 3#32))) (.write 0x004 (.b32 3#32)) inFlight :=
  ⟨⟨_, rfl, by decide⟩, ⟨_, rfl, by decide⟩, next_sched State.reset _, rfl, next_sched inFlight _, next_sched inFlight _⟩

theorem witness_ResetClearsTheUnit : Next (sched inFlight .reset) .reset inFlight := next_sched inFlight _

theorem witness_ResetClearsTheUnit_id :
    ∃ s t v, Next s .reset { s with env := [.read 0x000 .w32] } ∧ step s = .next t ∧ Next t (.read 0x000 .w32) v :=
  ⟨{ inFlight with env := [.reset, .read 0x000 .w32] }, _, _, ⟨[.read 0x000 .w32], rfl, rfl⟩, rfl, ⟨[], rfl, rfl⟩⟩

theorem witness_ResetIsCleanAndKeepsInvariant : Next (sched inFlight .reset) .reset inFlight := next_sched inFlight _

theorem witness_StepKeepsInvariant :
    State.reset.Inv ∧ ∃ t, step (State.reset.withFetchWord 32 0x00045501) = .next t :=
  ⟨⟨by decide, by decide, by decide⟩, _, rfl⟩

end Sys2Proof.Tests
end

section
/-! PROOFS. The lengths of the texts that IFMT and DFMT write. -/

namespace Sys2Proof.Machine

/-- The radix a field selects is one of 2 to 36 (44_int_convert.md R224). -/
theorem radixOf_eq_some {imm6 : BitVec 6} {r : Nat} (h : radixOf imm6 = some r) : 2 ≤ r ∧ r ≤ 36 := by
  unfold radixOf at h
  split_ifs at h with h10 hrange
  · obtain rfl := Option.some.inj h; decide
  · obtain rfl := Option.some.inj h; exact hrange

/-- A number below a power of two has at most that many digits, in every radix (44_int_convert.md R226). -/
theorem length_digitText_le_of_lt_two_pow {r n k : Nat} (hr : 2 ≤ r) (hk : 1 ≤ k) (h : n < 2 ^ k) :
    (digitText r n).length ≤ k := by
  rw [length_digitText]
  exact length_digitValues_le r n k hr hk (h.trans_le (Nat.pow_le_pow_left hr k))

/-- A register's value is written in at most 65 bytes (46_decimal_format.md R299). -/
theorem length_integerText_le {r : Nat} (hr : 2 ≤ r) (a : Reg) : (integerText r a.val).length ≤ 65 := by
  have hdigits := length_digitText_le_of_lt_two_pow hr (by decide) (natAbs_val_lt a)
  have hsign : (if a.val < 0 then [chMinus] else []).length ≤ 1 := by split <;> simp
  simp only [integerText, List.length_append]
  omega

/-- An exponent of at most five digits takes at most seven bytes (46_decimal_format.md R295). -/
theorem length_exponentText_le {n : Int} (h : n.natAbs < 10 ^ 5) : (exponentText n).length ≤ 7 := by
  have hdigits := length_digitValues_le 10 n.natAbs 5 (by decide) (by decide) h
  unfold exponentText
  split_ifs <;> simp only [List.length_cons, List.length_nil, length_digitText] <;> omega

/-- Scientific form takes at most 42 bytes where both exponents have at most five digits (46_decimal_format.md R295, R296). -/
theorem length_scientificText_le {dg : List Byte} {q sci : Int} (hq : q.natAbs < 10 ^ 5) (hsci : sci.natAbs < 10 ^ 5) :
    (scientificText dg q sci).length ≤ 42 := by
  have hexp := length_exponentText_le hq
  have hexp' := length_exponentText_le hsci
  unfold scientificText decDigits
  split_ifs with hlen hpoint
  · simp only [List.length_append, List.length_cons, List.length_take, List.length_drop]; omega
  · simp only [List.length_append, List.length_nil, List.length_take]; omega
  · simp only [List.length_cons]; omega

/-- Positional form takes at most seven bytes more than the digits, where the point stands at most five places before them
(46_decimal_format.md R297). -/
theorem length_positionalText_le {dg : List Byte} {q : Int} (h : -5 ≤ (dg.length : Int) + q) :
    (positionalText dg q).length ≤ dg.length + 7 := by
  unfold positionalText
  dsimp only
  split_ifs with hq hrp
  · omega
  · simp only [List.length_append, List.length_cons, List.length_take, List.length_drop]; omega
  · simp only [List.length_append, List.length_cons, List.length_replicate]; omega

/-- The digits of a finite decimal128 value take at most 42 bytes (46_decimal_format.md R299). -/
theorem length_finiteText_le {q : Int} {c : Nat} (hc : c < 2 ^ 114) (hq : q.natAbs < 2 ^ 14) : (finiteText q c).length ≤ 42 := by
  have hlen : (digitText 10 c).length ≤ 35 := by
    rw [length_digitText]
    exact length_digitValues_le 10 c 35 (by decide) (by decide) (by omega)
  unfold finiteText
  dsimp only
  split_ifs with hform
  · exact length_scientificText_le (by omega) (by omega)
  · exact (length_positionalText_le (by omega)).trans (by omega)

/-- A finite pattern's coefficient has at most 114 bits and its exponent at most 14 (45_decimal_parse.md R250, R251). -/
theorem unpackDecimal_finite {p : Quad} {neg : Bool} {q : Int} {c : Nat} (h : unpackDecimal p = .finite neg q c) :
    c < 2 ^ 114 ∧ q.natAbs < 2 ^ 14 := by
  have hc := (p.extractLsb' 0 111).isLt
  have hc' := (p.extractLsb' 0 113).isLt
  have hq := (p.extractLsb' 111 14).isLt
  have hq' := (p.extractLsb' 113 14).isLt
  unfold unpackDecimal decBias at h
  dsimp only at h
  split_ifs at h <;> cases h <;> omega

/-- A decimal128 pattern is written in at most 43 bytes (46_decimal_format.md R299). -/
theorem length_decimalText_le (p : Quad) : (decimalText (unpackDecimal p)).length ≤ 43 := by
  have hsign : ∀ neg, (signText neg).length ≤ 1 := by decide
  cases h : unpackDecimal p with
  | nan => decide
  | infinity neg => cases neg <;> decide
  | finite neg q c =>
    obtain ⟨hc, hq⟩ := unpackDecimal_finite h
    have hfinite := length_finiteText_le hc hq
    have hneg := hsign neg
    simp only [decimalText, List.length_append]
    omega

end Sys2Proof.Machine
end

section
/-! PROOFS. What a command, a completion and a host access can leave, as far as TB, TLEN and STATUS go, and that each keeps the
invariant. -/

namespace Sys2Proof.Machine

/-! ### What a command leaves -/

/-- Every command ends with a completion of `s` in which either the registers alone are new, or the text alone is, and that text
fits TB (60_exceptions.md R320, 46_decimal_format.md R299). -/
theorem exec_next {i : Instr} {s t : State} (h : exec i s = .next t) :
    (∃ regs c, t = { s with regs := regs }.finish c) ∨
    (∃ out, out.length ≤ Config.tbSize ∧ t = (s.setText out).finish .none) := by
  cases i with
  | add _ _ _ | sub _ _ _ | mul _ _ _ | neg _ _ | mulwu _ _ _ | divq9 _ _ | shl _ _ _ | shr _ _ _ | shru _ _ _
  | shli _ _ _ | shri _ _ _ | shrui _ _ _ | cmp _ _ _ | cmpu _ _ _ | eq _ _ _ | cvtf _ _ _ =>
    exact .inl ⟨_, _, (succeed_eq_next _ _).mp h⟩
  | div rd rs1 rs2 | mod rd rs1 rs2 =>
    simp only [exec, execDiv, execMod] at h
    split at h
    · exact .inl ⟨_, _, (raise_eq_next _ _ _).mp h⟩
    · exact .inl ⟨_, _, (succeed_eq_next _ _).mp h⟩
  | iparse rd imm6 uf =>
    simp only [exec, execIparse] at h
    split at h
    · exact .inl ⟨_, _, (succeed_eq_next _ _).mp h⟩
    · exact .inl ⟨_, _, (raise_eq_next _ _ _).mp h⟩
  | ifmt rs1 imm6 =>
    simp only [exec, execIfmt] at h
    split at h
    · exact .inl ⟨_, _, (raise_eq_next _ _ _).mp h⟩
    · next r hr =>
      have hlen := length_integerText_le (radixOf_eq_some hr).1 (s.x rs1)
      exact .inr ⟨_, hlen.trans (by decide), (succeed_eq_next _ _).mp h⟩
  | dparse rd | dparser rd =>
    obtain ⟨q, -, ht⟩ | ⟨c, -, ht⟩ := (finishParse_eq_next _ _ _ _).mp h
    · exact .inl ⟨_, _, ht⟩
    · exact .inl ⟨_, _, ht⟩
  | dfmt rs1 =>
    exact .inr ⟨_, (length_decimalText_le _).trans (by decide), (succeed_eq_next _ _).mp h⟩

/-! ### The invariant -/

/-- The invariant speaks of TB, TLEN and STATUS alone. -/
theorem State.Inv.congr {s t : State} (h : s.Inv) (htb : t.tb = s.tb) (htlen : t.tlen = s.tlen) (hstatus : t.status = s.status) :
    t.Inv := by
  obtain ⟨tb, tlen, busy⟩ := h
  exact ⟨htb ▸ tb, htlen ▸ tlen, hstatus ▸ busy⟩

/-- The invariant says nothing of the registers. -/
theorem State.Inv.setRegs {s : State} (h : s.Inv) (regs : Vector Reg 16) : { s with regs := regs }.Inv :=
  ⟨h.tb, h.tlen, h.busy⟩

/-- A text that fits TB leaves TB in canonical form and TLEN at most 8192 (10_state.md R31, R32). -/
theorem State.Inv.setText {s : State} (h : s.Inv) {out : List Byte} (hout : out.length ≤ Config.tbSize) :
    (s.setText out).Inv where
  tb := Memory.wf_writeAll s.tb 0 out h.tb (by omega)
  tlen := (Nat.mod_le _ _).trans hout
  busy := h.busy

/-- A completion keeps the invariant, since it sets DONE in the moment it clears BUSY. -/
theorem State.Inv.finish {s : State} (h : s.Inv) (c : Cause) : (s.finish c).Inv where
  tb := h.tb
  tlen := h.tlen
  busy hb := by simp at hb

/-- STATUS bits that a write clears do not set DONE (10_state.md R44). -/
theorem State.Inv.clear {s : State} (h : s.Inv) (w : BusWord) : { s with status := s.status.clear w }.Inv :=
  ⟨h.tb, h.tlen, fun hb => by simp [h.busy hb]⟩

/-- A command keeps the invariant. -/
theorem State.Inv.exec {i : Instr} {s t : State} (hs : s.Inv) (h : exec i s = .next t) : t.Inv := by
  obtain ⟨regs, c, rfl⟩ | ⟨out, hout, rfl⟩ := exec_next h
  · exact (hs.setRegs regs).finish c
  · exact (hs.setText hout).finish .none

/-- The end of a busy period keeps the invariant. -/
theorem State.Inv.completion {s t : State} (hs : s.Inv) (h : completion s = .next t) : t.Inv := by
  obtain ⟨-, i, -, hexec⟩ | ⟨-, e, -, rfl⟩ | ⟨-, rfl⟩ := completion_next h
  · exact hs.exec hexec
  · exact hs.finish .illegal
  · exact hs

/-- A write to TLEN stores the lesser of its low 14 bits and 8192 (10_state.md R31). -/
theorem toNat_tlenOfWord (w : BusWord) : (tlenOfWord w).toNat = min (w.toNat % 2 ^ 14) 8192 := by
  simp [tlenOfWord, Config.tbSize]

/-- A write of a register word keeps the invariant, at each word of the map. -/
theorem State.Inv.writeRegWord {s : State} (hs : s.Inv) (w : BusWord) (p : RegWord) : (writeRegWord s w p).Inv := by
  cases p with
  | id | ctrl | xLo _ | xHi _ | xFlags _ | reserved => exact hs.congr rfl rfl rfl
  | status => exact hs.clear w
  | cmd => exact ⟨hs.tb, hs.tlen, fun _ => rfl⟩
  | tlen => exact ⟨hs.tb, by rw [Machine.writeRegWord, toNat_tlenOfWord]; exact Nat.min_le_right _ _, hs.busy⟩

/-- A value has as many bytes as its width says (20_memory.md R62). -/
theorem BusData.length_bytes (d : BusData) : d.bytes.length = d.width.bytes := by cases d <;> rfl

/-- An aligned access to TB that begins inside the window ends inside it (20_memory.md R65). -/
theorem accessOk_fits {off : Nat} {width : Width} (hok : accessOk off width = true) (htb : tbBase ≤ off)
    (hwin : off < Config.windowSize) : off - tbBase + width.bytes ≤ Config.tbSize := by
  unfold accessOk at hok
  rw [if_neg (by omega), decide_eq_true_eq] at hok
  unfold Config.windowSize at hwin
  unfold tbBase at htb ⊢
  unfold Config.tbSize
  cases width <;> simp only [Width.bytes] at hok ⊢ <;> omega

/-- A write that takes effect keeps the invariant. -/
theorem State.Inv.writeData {s : State} (hs : s.Inv) {off : Nat} {d : BusData} (hok : accessOk off d.width = true)
    (hwin : off < Config.windowSize) : (writeData s off d).Inv := by
  unfold Machine.writeData
  split
  · cases d with
    | b32 w => exact hs.writeRegWord w _
    | b16 _ | b8 _ => exact hs
  · have hfits := accessOk_fits hok (by omega) hwin
    exact ⟨Memory.wf_writeAll _ _ _ hs.tb (d.length_bytes ▸ hfits), hs.tlen, hs.busy⟩

/-- A host write keeps the invariant, whether it is refused, dropped or takes effect. -/
theorem State.Inv.hostWrite {off : Nat} {d : BusData} {s t : State} (hs : s.Inv) (h : hostWrite off d s = .next t) : t.Inv := by
  obtain ⟨hwin, ⟨-, rfl⟩ | ⟨-, -, -, rfl⟩ | ⟨hok, -, rfl⟩⟩ := hostWrite_next h
  · exact hs.congr rfl rfl rfl
  · exact ⟨hs.tb, hs.tlen, hs.busy⟩
  · exact (hs.writeData hok hwin).congr rfl rfl rfl

/-- A platform reset establishes the invariant, whatever state it finds (70_reset_and_hazards.md R361). -/
theorem State.inv_platformReset (s : State) : s.platformReset.Inv := ⟨rfl, Nat.zero_le _, fun _ => rfl⟩

/-- Every event keeps the invariant. -/
theorem State.Inv.deliver {e : Event} {s t : State} (hs : s.Inv) (h : deliver e s = .next t) : t.Inv := by
  obtain ⟨off, w, -, hread⟩ | ⟨off, d, -, hwrite⟩ | ⟨-, hdone⟩ | ⟨w, u, -, hdone, rfl⟩ | ⟨-, rfl⟩ := deliver_next h
  · obtain ⟨-, r, n, rfl⟩ := hostRead_next hread
    exact hs.congr rfl rfl rfl
  · exact hs.hostWrite hwrite
  · exact hs.completion hdone
  · exact ((hs.completion hdone).clear w).congr rfl rfl rfl
  · exact s.inv_platformReset

end Sys2Proof.Machine

namespace Sys2Proof.Proofs
open Sys2Proof.Machine

/-- Settles O58: a step is a completion or the delivery of an event, and each keeps the invariant. -/
theorem stepKeepsInvariant : Obligations.StepKeepsInvariant := by
  intro s t hs h
  obtain ⟨-, hdone⟩ | ⟨e, rest, -, hdeliver⟩ := step_next h
  · exact hs.completion hdone
  · exact State.Inv.deliver (hs.congr (t := { s with env := rest }) rfl rfl rfl) hdeliver

end Sys2Proof.Proofs
end

section
/-! PROOFS. The map of the register region read backwards, and what an aligned word access to it does. -/

namespace Sys2Proof.Machine

/-! ### Which offset a register word stands at (20_memory.md R69, 10_state.md R40, R46) -/

/-- The one offset at which a register word stands; the reserved word stands at many. -/
def RegWord.offset : RegWord → Option Nat
  | .id => some 0x000
  | .ctrl => some 0x004
  | .status => some 0x008
  | .cmd => some 0x00C
  | .tlen => some 0x010
  | .xLo r => some (0x100 + 16 * r.toNat)
  | .xHi r => some (0x104 + 16 * r.toNat)
  | .xFlags r => some (0x108 + 16 * r.toNat)
  | .reserved => none

/-- The map puts every register word at its offset. -/
theorem regWordAt_of_offset {p : RegWord} {o : Nat} (h : p.offset = some o) : regWordAt o = p := by
  cases p with
  | id | ctrl | status | cmd | tlen => cases h; rfl
  | xLo r => cases h; exact regWordAt_lo r
  | xHi r => cases h; exact regWordAt_hi r
  | xFlags r => cases h; exact regWordAt_flags r
  | reserved => cases h

/-- The number of the register whose slot holds an offset. -/
theorem toNat_slotReg {off : Nat} (h : 0x100 ≤ off ∧ off < 0x200) : (slotReg off).toNat = (off - 0x100) / 16 := by
  rw [slotReg, BitVec.toNat_ofNat]
  omega

/-- The map puts a register word at no offset but its own. -/
theorem eq_offset_of_regWordAt {off o : Nat} (h : (regWordAt off).offset = some o) : off = o := by
  unfold regWordAt at h
  split at h
  · next hid => cases h; exact hid
  split at h
  · next hctrl => cases h; exact hctrl
  split at h
  · next hstatus => cases h; exact hstatus
  split at h
  · next hcmd => cases h; exact hcmd
  split at h
  · next htlen => cases h; exact htlen
  split at h
  · next hslot =>
    have hr := toNat_slotReg hslot
    split at h
    · cases h; omega
    split at h
    · cases h; omega
    split at h
    · cases h; omega
    · cases h
  · cases h

/-- A register word that is not reserved stands at its offset and at no other. -/
theorem regWordAt_eq_iff {p : RegWord} {o : Nat} (hp : p.offset = some o) (off : Nat) : regWordAt off = p ↔ off = o where
  mp h := eq_offset_of_regWordAt (h ▸ hp)
  mpr h := h ▸ regWordAt_of_offset hp

/-! ### The fields after a write of a register word -/

/-- A register reads the same under another schedule. -/
@[simp] theorem State.x_withEnv (s : State) (env : List Event) (r : RegNo) : { s with env := env }.x r = s.x r := rfl

/-- A register reads the same under another last response. -/
@[simp] theorem State.x_withResponse (s : State) (response : Option Response) (r : RegNo) :
    { s with response := response }.x r = s.x r := rfl

section
variable (s : State) (w : BusWord) (p : RegWord)

@[simp] theorem writeRegWord_tb : (writeRegWord s w p).tb = s.tb := by cases p <;> rfl
@[simp] theorem writeRegWord_env : (writeRegWord s w p).env = s.env := by cases p <;> rfl
@[simp] theorem writeRegWord_epoch : (writeRegWord s w p).epoch = s.epoch := by cases p <;> rfl

theorem writeRegWord_ctrl : (writeRegWord s w p).ctrl = if p = .ctrl then Ctrl.ofWord w else s.ctrl := by cases p <;> rfl

theorem writeRegWord_cmd : (writeRegWord s w p).cmd = if p = .cmd then w else s.cmd := by cases p <;> rfl

theorem writeRegWord_tlen : (writeRegWord s w p).tlen = if p = .tlen then tlenOfWord w else s.tlen := by cases p <;> rfl

theorem writeRegWord_status :
    (writeRegWord s w p).status =
      if p = .status then s.status.clear w else if p = .cmd then s.status.accept else s.status := by
  cases p <;> rfl

/-- LO replaces the low half of its register (10_state.md R46). -/
theorem writeRegWord_x_low (r : RegNo) :
    ((writeRegWord s w p).x r).v.extractLsb' 0 32 = if p = .xLo r then w else (s.x r).v.extractLsb' 0 32 := by
  cases p with
  | id | ctrl | status | cmd | tlen | reserved => rfl
  | xLo j => by_cases h : r = j <;> simp [writeRegWord, h, eq_comm, extract_append_low]
  | xHi j => by_cases h : r = j <;> simp [writeRegWord, h, extract_append_low]
  | xFlags j => by_cases h : r = j <;> simp [writeRegWord, h]

/-- HI replaces the high half of its register (10_state.md R46). -/
theorem writeRegWord_x_high (r : RegNo) :
    ((writeRegWord s w p).x r).v.extractLsb' 32 32 = if p = .xHi r then w else (s.x r).v.extractLsb' 32 32 := by
  cases p with
  | id | ctrl | status | cmd | tlen | reserved => rfl
  | xLo j => by_cases h : r = j <;> simp [writeRegWord, h, extract_append_high]
  | xHi j => by_cases h : r = j <;> simp [writeRegWord, h, eq_comm, extract_append_high]
  | xFlags j => by_cases h : r = j <;> simp [writeRegWord, h]

/-- FLAGS replaces the tag of its register (10_state.md R46). -/
theorem writeRegWord_x_tag (r : RegNo) :
    ((writeRegWord s w p).x r).u = if p = .xFlags r then w.getLsbD 0 else (s.x r).u := by
  cases p with
  | id | ctrl | status | cmd | tlen | reserved => rfl
  | xLo j | xHi j => by_cases h : r = j <;> simp [writeRegWord, h]
  | xFlags j => by_cases h : r = j <;> simp [writeRegWord, h, eq_comm]

end

/-! ### Aligned word accesses to the register region -/

/-- The register region takes an aligned word access (20_memory.md R65). -/
theorem accessOk_regWord {off : Nat} (hreg : off < tbBase) (halign : off % 4 = 0) : accessOk off .w32 = true := by
  simp [accessOk, hreg, halign]

/-- An aligned word write of the register region that is not dropped writes its register word (20_memory.md R69, R73). -/
theorem hostWrite_regWord {s : State} {off : Nat} (w : BusWord) (hreg : off < tbBase) (halign : off % 4 = 0)
    (hkept : (s.status.busy && busyDrop (regWordAt off)) = false) :
    hostWrite off (.b32 w) s = .next { writeRegWord s w (regWordAt off) with response := some .okay } := by
  have hwin : ¬ Config.windowSize ≤ off := by unfold tbBase at hreg; unfold Config.windowSize; omega
  simp [hostWrite, hwin, BusData.width, accessOk_regWord hreg halign, busyDropAt, hreg, hkept, writeData]

/-- An aligned word write of the register region that is dropped sets COLL and changes nothing else (20_memory.md R73). -/
theorem hostWrite_regWord_dropped {s : State} {off : Nat} (w : BusWord) (hreg : off < tbBase) (halign : off % 4 = 0)
    (hdropped : (s.status.busy && busyDrop (regWordAt off)) = true) :
    hostWrite off (.b32 w) s = .next { s with status := s.status.collide, response := some .okay } := by
  have hwin : ¬ Config.windowSize ≤ off := by unfold tbBase at hreg; unfold Config.windowSize; omega
  simp [hostWrite, hwin, BusData.width, accessOk_regWord hreg halign, busyDropAt, hreg, hdropped]

/-- An aligned word read of the register region, of a word whose value BUSY does not hide, returns that word
(20_memory.md R69, R73). -/
theorem hostRead_regWord {s : State} {off : Nat} (hreg : off < tbBase) (halign : off % 4 = 0)
    (hshown : (s.status.busy && busyRead (regWordAt off)) = false) :
    hostRead off .w32 s = .next { s with response := some (.data (.b32 (readRegWord s (regWordAt off)))) } := by
  have hwin : ¬ Config.windowSize ≤ off := by unfold tbBase at hreg; unfold Config.windowSize; omega
  simp [hostRead, hwin, accessOk_regWord hreg halign, busyReadAt, hreg, hshown, readData]

/-- A step whose next event is `e` delivers it to the state without it, in the words of the statements. -/
theorem step_of_next {s u : State} {e : Event} (h : Claims.Next s e u) : step s = deliver e u := by
  obtain ⟨rest, henv, rfl⟩ := h
  exact step_cons henv

end Sys2Proof.Machine

namespace Sys2Proof.Proofs
open Sys2Proof.Machine Sys2Proof.Claims

/-- Settles O50: field by field, a write stores its datum where the map puts that field's word, and keeps it elsewhere. -/
theorem idleWritesStoreTheirData : Obligations.IdleWritesStoreTheirData := by
  rintro s u off w hnext hidle hreg halign hcmd
  have hstep := step_of_next hnext
  obtain ⟨rest, -, rfl⟩ := hnext
  rw [deliver, hostWrite_regWord w hreg halign (by simp [hidle])] at hstep
  refine ⟨_, hstep, rfl, writeRegWord_env _ _ _, ?cmd, writeRegWord_epoch _ _ _, ?tb, ?ctrl, ?status, ?tlen, ?low, ?high, ?tag⟩
  case cmd => simp [writeRegWord_cmd, regWordAt_eq_iff (p := .cmd) rfl, hcmd]
  case tb => exact fun k => State.tbByte_congr _ _ (writeRegWord_tb _ _ _) (writeRegWord_epoch _ _ _) k
  case ctrl => simp only [writeRegWord_ctrl, regWordAt_eq_iff (p := .ctrl) rfl, Ctrl.ofWord]
  case status =>
    simp only [writeRegWord_status, regWordAt_eq_iff (p := .status) rfl, regWordAt_eq_iff (p := .cmd) rfl, hcmd, if_false,
      Status.clear]
  case tlen =>
    simp only [writeRegWord_tlen, regWordAt_eq_iff (p := .tlen) rfl]
    rw [apply_ite BitVec.toNat, toNat_tlenOfWord]
  case low =>
    intro r
    simp only [State.x_withResponse, State.x_withEnv, writeRegWord_x_low, regWordAt_eq_iff (p := .xLo r) rfl]
  case high =>
    intro r
    simp only [State.x_withResponse, State.x_withEnv, writeRegWord_x_high, regWordAt_eq_iff (p := .xHi r) rfl]
  case tag =>
    intro r
    simp only [State.x_withResponse, State.x_withEnv, writeRegWord_x_tag, regWordAt_eq_iff (p := .xFlags r) rfl]

/-- Settles O52: CMD's offset is the one word whose write is an acceptance while idle and is dropped while busy, and whose
read BUSY does not hide. -/
theorem commandWriteIsAccepted : Obligations.CommandWriteIsAccepted := by
  have hmap : regWordAt 0x00C = .cmd := regWordAt_of_offset rfl
  have hreg : 0x00C < tbBase := by decide
  refine ⟨?accepted, ?dropped, ?read, rfl⟩
  case accepted =>
    intro s u w hnext hidle
    have hstep := step_of_next hnext
    obtain ⟨rest, -, rfl⟩ := hnext
    rw [deliver, hostWrite_regWord w hreg rfl (by simp [hidle]), hmap] at hstep
    exact ⟨_, hstep, rfl, rfl, rfl, fun _ => rfl, fun _ => rfl, rfl, rfl, rfl, rfl⟩
  case dropped =>
    intro s u w hnext hbusy
    have hstep := step_of_next hnext
    obtain ⟨rest, -, rfl⟩ := hnext
    rw [deliver, hostWrite_regWord_dropped w hreg rfl (by simp [hbusy, hmap, busyDrop])] at hstep
    exact ⟨_, hstep, rfl, fun _ => rfl, fun _ => rfl, rfl, rfl, rfl, rfl, rfl⟩
  case read =>
    intro s u hnext
    have hstep := step_of_next hnext
    obtain ⟨rest, -, rfl⟩ := hnext
    rw [deliver, hostRead_regWord hreg rfl (by simp [hmap, busyRead]), hmap] at hstep
    exact ⟨_, hstep, rfl⟩

end Sys2Proof.Proofs
end

section
/-! PROOFS. What a host access leaves fixed while a command is in flight, and the commands that read their sources unsigned. -/

namespace Sys2Proof.Machine

/-- The command in flight, its word and all it can read are in `t` as in `s`, and it is still in flight (10_state.md R48). -/
structure SameOperands (s t : State) : Prop where
  regs : t.regs = s.regs
  tb : t.tb = s.tb
  epoch : t.epoch = s.epoch
  tlen : t.tlen = s.tlen
  cmd : t.cmd = s.cmd
  busy : t.status.busy = s.status.busy

theorem SameOperands.x {s t : State} (h : SameOperands s t) (r : RegNo) : t.x r = s.x r := by simp only [State.x, h.regs]

theorem SameOperands.tbByte {s t : State} (h : SameOperands s t) (k : Nat) : t.tbByte k = s.tbByte k :=
  State.tbByte_congr s t h.tb h.epoch k

/-- The words whose write BUSY does not drop hold no operand (20_memory.md R73). -/
theorem sameOperands_writeRegWord (s : State) (w : BusWord) {p : RegWord} (h : busyDrop p = false) :
    SameOperands s (writeRegWord s w p) := by
  cases p with
  | id | ctrl | status | reserved => exact ⟨rfl, rfl, rfl, rfl, rfl, rfl⟩
  | cmd | tlen | xLo _ | xHi _ | xFlags _ => cases h

/-- A write that BUSY does not drop reaches no operand. -/
theorem sameOperands_writeData (s : State) {off : Nat} (d : BusData) (h : busyDropAt off = false) :
    SameOperands s (writeData s off d) := by
  unfold busyDropAt at h
  unfold writeData
  split at h
  · next hreg =>
    rw [if_pos hreg]
    cases d with
    | b32 w => exact sameOperands_writeRegWord s w h
    | b16 _ | b8 _ => exact ⟨rfl, rfl, rfl, rfl, rfl, rfl⟩
  · cases h

/-- A host write inside the window is answered (20_memory.md R65). -/
theorem exists_hostWrite {off : Nat} (hwin : off < Config.windowSize) (d : BusData) (s : State) :
    ∃ t, hostWrite off d s = .next t := by
  unfold hostWrite
  rw [if_neg (by omega)]
  split_ifs <;> exact ⟨_, rfl⟩

/-- A host read inside the window is answered (20_memory.md R65). -/
theorem exists_hostRead {off : Nat} (hwin : off < Config.windowSize) (width : Width) (s : State) :
    ∃ t, hostRead off width s = .next t := by
  unfold hostRead
  rw [if_neg (by omega)]
  split_ifs <;> exact ⟨_, rfl⟩

/-- A host read leaves every operand. -/
theorem sameOperands_of_hostRead {off : Nat} {width : Width} {s t : State} (h : hostRead off width s = .next t) :
    SameOperands s t := by
  obtain ⟨-, r, n, rfl⟩ := hostRead_next h
  exact ⟨rfl, rfl, rfl, rfl, rfl, rfl⟩

/-- A host write while a command is in flight leaves every operand. -/
theorem sameOperands_of_hostWrite {off : Nat} {d : BusData} {s t : State} (hbusy : s.status.busy = true)
    (h : hostWrite off d s = .next t) : SameOperands s t := by
  obtain ⟨-, ⟨-, rfl⟩ | ⟨-, -, -, rfl⟩ | ⟨-, hkept, rfl⟩⟩ := hostWrite_next h
  · exact ⟨rfl, rfl, rfl, rfl, rfl, rfl⟩
  · exact ⟨rfl, rfl, rfl, rfl, rfl, rfl⟩
  · obtain ⟨regs, tb, epoch, tlen, cmd, busy⟩ := sameOperands_writeData s d (hkept hbusy)
    exact ⟨regs, tb, epoch, tlen, cmd, busy⟩

/-- A pair does not depend on the tags of its registers (10_state.md R23, R24). -/
theorem State.pair_congr {s s' : State} (h : ∀ r, (s.x r).v = (s'.x r).v) (r : RegNo) : s.pair r = s'.pair r := by
  simp only [State.pair, h]

/-- DIVQ9 writes a quotient to the pair `rs1`, then a remainder to `rd`, and the two depend on the pair's pattern alone
(41_wide.md R161). -/
theorem exec_divq9_of_pair_eq (rd : RegNo) {rs1 : RegNo} {s s' : State} (h : s.pair rs1 = s'.pair rs1) :
    ∃ q r, exec (.divq9 rd rs1) s = .next (((s.setPair rs1 q).setX rd r).finish .none) ∧
      exec (.divq9 rd rs1) s' = .next (((s'.setPair rs1 q).setX rd r).finish .none) := by
  refine ⟨_, _, rfl, ?_⟩
  rw [h]
  rfl

/-- DFMT writes the text of the pair's pattern, which is then the text of the next command (46_decimal_format.md R290). -/
theorem exec_dfmt (rs1 : RegNo) (s : State) :
    ∃ t, exec (.dfmt rs1) s = .next t ∧ t.text = decimalText (unpackDecimal (s.pair rs1)) := by
  have hlen := length_decimalText_le (s.pair rs1)
  exact ⟨_, rfl, (writesText_setText s _ (by omega)).text_eq⟩

end Sys2Proof.Machine

namespace Sys2Proof.Proofs
open Sys2Proof.Machine Sys2Proof.Claims

/-- Settles O46: each of the six commands computes from the patterns of its sources alone. -/
theorem unsignedCommandsIgnoreTags : Obligations.UnsignedCommandsIgnoreTags := by
  intro s s' h
  have hpair := State.pair_congr h
  refine ⟨?cmpu, ?shru, ?cvtf, ?mulwu, ?divq9, ?dfmt⟩
  case cmpu => exact fun rd a b => ⟨_, _, rfl, rfl, by simp [h]⟩
  case shru => exact fun rd a b => ⟨_, _, rfl, rfl, by simp [shiftRightLogic, shiftAmount, h]⟩
  case cvtf => exact fun rd a uf => ⟨_, _, rfl, rfl, by simp [h]⟩
  case mulwu => exact fun rd a b => ⟨_, _, rfl, rfl, by simp [h], by simp [h]⟩
  case divq9 =>
    intro rd a
    obtain ⟨q, r, hexec, hexec'⟩ := exec_divq9_of_pair_eq rd (hpair a)
    exact ⟨_, _, hexec, hexec', by simp, by simp, by simp⟩
  case dfmt =>
    intro a
    obtain ⟨t, hexec, htext⟩ := exec_dfmt a s
    obtain ⟨t', hexec', htext'⟩ := exec_dfmt a s'
    exact ⟨t, t', hexec, hexec', by rw [htext, htext', hpair]⟩

/-- Settles O54: a read leaves the unit alone, and a write while BUSY = 1 is refused, dropped, or goes to a word that holds no
operand. -/
theorem inFlightOperandsAreFixed : Obligations.InFlightOperandsAreFixed := by
  rintro s u e hbusy hnext ⟨off, hwin, haccess⟩
  have hstep := step_of_next hnext
  obtain ⟨rest, -, rfl⟩ := hnext
  obtain ⟨t, ht, hsame⟩ : ∃ t, deliver e { s with env := rest } = .next t ∧ SameOperands { s with env := rest } t := by
    obtain ⟨width, rfl⟩ | ⟨d, rfl⟩ := haccess
    · obtain ⟨t, ht⟩ := exists_hostRead hwin width { s with env := rest }
      exact ⟨t, ht, sameOperands_of_hostRead ht⟩
    · obtain ⟨t, ht⟩ := exists_hostWrite hwin d { s with env := rest }
      exact ⟨t, ht, sameOperands_of_hostWrite hbusy ht⟩
  exact ⟨t, hstep.trans ht, hsame.cmd, hsame.x, hsame.tbByte, hsame.tlen, State.text_congr _ _ hsame.tlen hsame.tbByte,
    hsame.busy.trans hbusy⟩

end Sys2Proof.Proofs
end

section
/-! PROOFS. The answers of the unit to a host access inside the window, idle or busy: refused with BUS_ERROR, dropped or hidden by
BUSY, or given effect; and the bytes of TB that an access of each width moves. -/

namespace Sys2Proof.Machine

/-! ### Which accesses the window takes (20_memory.md R65) -/

/-- The register region takes aligned words, TB takes every width at its own alignment. -/
theorem accessOk_iff (off : Nat) (width : Width) :
    accessOk off width = true ↔
      (off < 0x2000 ∧ width.bytes = 4 ∧ off % 4 = 0) ∨ (0x2000 ≤ off ∧ off % width.bytes = 0) := by
  have hword : width.bytes = 4 ↔ width = .w32 := by cases width <;> decide
  unfold accessOk tbBase
  split_ifs with hreg
  · simp [hreg, hword]
  · simp [hreg, Nat.le_of_not_lt hreg]

/-- The accesses refused: another width than a word in the register region, or a misaligned one (20_memory.md R65). -/
theorem accessOk_eq_false_iff (off : Nat) (width : Width) :
    accessOk off width = false ↔
      (off < 0x2000 ∧ (width.bytes ≠ 4 ∨ off % 4 ≠ 0)) ∨ (0x2000 ≤ off ∧ off % width.bytes ≠ 0) := by
  rw [← Bool.not_eq_true, accessOk_iff]
  omega

/-- TB takes an access at an index that its width divides. -/
theorem accessOk_text {k : Nat} {width : Width} (h : k % width.bytes = 0) : accessOk (0x2000 + k) width = true := by
  refine (accessOk_iff _ _).mpr (.inr ⟨by omega, ?_⟩)
  cases width <;> simp only [Width.bytes] at h ⊢ <;> omega

/-- A register word that is not reserved stands at an aligned word of the register region (20_memory.md R69). -/
theorem RegWord.offset_aligned {p : RegWord} {off : Nat} (h : p.offset = some off) : off < tbBase ∧ off % 4 = 0 := by
  cases p with
  | id | ctrl | status | cmd | tlen => cases h; decide
  | xLo r | xHi r | xFlags r => cases h; have := r.isLt; unfold tbBase; omega
  | reserved => cases h

/-- A word access at the offset of a register word is inside the window and accepted. -/
theorem RegWord.accessOk_offset {p : RegWord} {off : Nat} (h : p.offset = some off) :
    off < Config.windowSize ∧ accessOk off .w32 = true := by
  obtain ⟨hreg, halign⟩ := RegWord.offset_aligned h
  exact ⟨hreg.trans (by decide), accessOk_regWord hreg halign⟩

/-- A write at the offset of a register word is dropped where the map says so of the word (20_memory.md R73). -/
theorem busyDropAt_of_offset {p : RegWord} {off : Nat} (h : p.offset = some off) : busyDropAt off = busyDrop p := by
  rw [busyDropAt, if_pos (RegWord.offset_aligned h).1, regWordAt_of_offset h]

/-- LO, HI and FLAGS of a register are words whose write BUSY drops (20_memory.md R73). -/
theorem exists_busyDrop_slot {off : Nat}
    (h : ∃ r : RegNo, off = 0x100 + 16 * r.toNat ∨ off = 0x104 + 16 * r.toNat ∨ off = 0x108 + 16 * r.toNat) :
    ∃ p : RegWord, p.offset = some off ∧ busyDrop p = true := by
  obtain ⟨r, rfl | rfl | rfl⟩ := h
  exacts [⟨.xLo r, rfl, rfl⟩, ⟨.xHi r, rfl, rfl⟩, ⟨.xFlags r, rfl, rfl⟩]

/-- An aligned access that begins in TB is inside the window and accepted, and its write is one that BUSY drops
(20_memory.md R65, R73). -/
theorem access_text {off : Nat} {width : Width} (htb : 0x2000 ≤ off) (hwin : off < 0x4000) (halign : off % width.bytes = 0) :
    off < Config.windowSize ∧ accessOk off width = true ∧ busyDropAt off = true :=
  ⟨hwin, (accessOk_iff _ _).mpr (.inr ⟨htb, halign⟩), if_neg (Nat.not_lt.mpr htb)⟩

/-- The reserved offsets are those between TLEN and the registers, the fourth word of each slot, and those after the registers
(10_state.md R46, R47). -/
theorem regWordAt_eq_reserved {off : Nat}
    (h : (0x014 ≤ off ∧ off < 0x100) ∨ (∃ r : RegNo, off = 0x10C + 16 * r.toNat) ∨ 0x200 ≤ off) :
    regWordAt off = .reserved := by
  obtain hgap | ⟨r, rfl⟩ | hafter := h
  · exact regWordAt_reserved off (.inl hgap)
  · exact regWordAt_slot_reserved r
  · exact regWordAt_reserved off (.inr hafter)

/-- The reserved offsets below TB hold the reserved word. -/
theorem regWordAt_reserved_region {off : Nat}
    (h : (0x014 ≤ off ∧ off < 0x100) ∨ (∃ r : RegNo, off = 0x10C + 16 * r.toNat) ∨ (0x200 ≤ off ∧ off < 0x2000)) :
    off < tbBase ∧ regWordAt off = .reserved := by
  refine ⟨?_, regWordAt_eq_reserved (h.imp_right (Or.imp_right And.left))⟩
  unfold tbBase
  obtain hgap | ⟨r, rfl⟩ | hafter := h <;> omega

/-! ### The answer to a read -/

/-- The unit does not see its last response and the count of open read values. -/
theorem sameUnit_withResponse (s : State) (response : Option Response) (draws : Nat) :
    Claims.SameUnit s { s with response := response, draws := draws } :=
  ⟨fun _ => rfl, fun _ => rfl, rfl, rfl, rfl, rfl, rfl⟩

/-- A read that the region does not take gets BUS_ERROR (20_memory.md R65). -/
theorem hostRead_refused {s : State} {off : Nat} {width : Width} (hwin : off < Config.windowSize)
    (hbad : accessOk off width = false) :
    hostRead off width s =
      .next { s with response := some (.busError (some (anyData s.draws width))), draws := s.draws + 1 } := by
  rw [hostRead, if_neg (by omega), if_pos hbad]

/-- An accepted read that BUSY does not hide returns what stands at its offset (20_memory.md R69, R73). -/
theorem hostRead_shown {s : State} {off : Nat} {width : Width} (hwin : off < Config.windowSize)
    (hok : accessOk off width = true) (hshown : (s.status.busy && busyReadAt off) = false) :
    hostRead off width s = .next { s with response := some (.data (readData s off width)) } := by
  rw [hostRead, if_neg (by omega), if_neg (by simp [hok]), if_neg (by simp [hshown])]

/-- An open read value has the width it is drawn at. -/
theorem width_anyData (n : Nat) (width : Width) : (anyData n width).width = width := by cases width <;> rfl

/-- TB answers at the width of the access. -/
theorem width_readText (s : State) (k : Nat) (width : Width) : (readText s k width).width = width := by cases width <;> rfl

/-- What an accepted read returns has the width of the access, since the register region takes words alone. -/
theorem width_readData {s : State} {off : Nat} {width : Width} (hok : accessOk off width = true) :
    (readData s off width).width = width := by
  unfold accessOk at hok
  unfold readData
  split at hok
  · next hreg =>
    rw [if_pos hreg]
    simp only [Bool.and_eq_true, decide_eq_true_eq] at hok
    exact hok.1.symm
  · next htb =>
    rw [if_neg htb]
    exact width_readText _ _ _

/-- An accepted read answers data of its width and changes nothing of the unit, whether BUSY hides the value or not
(20_memory.md R65, R68, R73). -/
theorem exists_hostRead_data {s : State} {off : Nat} {width : Width} (hwin : off < Config.windowSize)
    (hok : accessOk off width = true) :
    ∃ t d, hostRead off width s = .next t ∧ t.response = some (.data d) ∧ d.width = width ∧ Claims.SameUnit s t := by
  unfold hostRead
  rw [if_neg (by omega), if_neg (by simp [hok])]
  split_ifs with hhidden
  · exact ⟨_, _, rfl, rfl, width_anyData _ _, sameUnit_withResponse s _ _⟩
  · exact ⟨_, _, rfl, rfl, width_readData hok, sameUnit_withResponse s _ _⟩

/-! ### The answer to a write -/

/-- A write that the region does not take gets BUS_ERROR (20_memory.md R65). -/
theorem hostWrite_refused {s : State} {off : Nat} {d : BusData} (hwin : off < Config.windowSize)
    (hbad : accessOk off d.width = false) : hostWrite off d s = .next { s with response := some (.busError none) } := by
  rw [hostWrite, if_neg (by omega), if_pos hbad]

/-- An accepted write that BUSY drops sets COLL and gets OKAY (20_memory.md R73). -/
theorem hostWrite_dropped {s : State} {off : Nat} {d : BusData} (hwin : off < Config.windowSize)
    (hok : accessOk off d.width = true) (hdropped : (s.status.busy && busyDropAt off) = true) :
    hostWrite off d s = .next { s with status := s.status.collide, response := some .okay } := by
  rw [hostWrite, if_neg (by omega), if_neg (by simp [hok]), if_pos hdropped]

/-- An accepted write that is not dropped takes effect and gets OKAY (20_memory.md R69). -/
theorem hostWrite_kept {s : State} {off : Nat} {d : BusData} (hwin : off < Config.windowSize)
    (hok : accessOk off d.width = true) (hkept : (s.status.busy && busyDropAt off) = false) :
    hostWrite off d s = .next { writeData s off d with response := some .okay } := by
  rw [hostWrite, if_neg (by omega), if_neg (by simp [hok]), if_neg (by simp [hkept])]

/-- Every accepted write gets OKAY, dropped or not (20_memory.md R65, R73). -/
theorem exists_hostWrite_okay {s : State} {off : Nat} {d : BusData} (hwin : off < Config.windowSize)
    (hok : accessOk off d.width = true) : ∃ t, hostWrite off d s = .next t ∧ t.response = some .okay := by
  cases hdropped : s.status.busy && busyDropAt off with
  | true => exact ⟨_, hostWrite_dropped hwin hok hdropped, rfl⟩
  | false => exact ⟨_, hostWrite_kept hwin hok hdropped, rfl⟩

/-- ID and the reserved words take a write without effect, and BUSY does not drop it (10_state.md R41, R47; 20_memory.md R73). -/
theorem readOnly_regWord (s : State) (w : BusWord) {p : RegWord} (h : p = .id ∨ p = .reserved) :
    busyDrop p = false ∧ writeRegWord s w p = s := by
  obtain rfl | rfl := h <;> exact ⟨rfl, rfl⟩

/-! ### TLEN and FLAGS as numbers (10_state.md R31, R46) -/

theorem toNat_readRegWord_tlen (s : State) : (readRegWord s .tlen).toNat = s.tlen.toNat :=
  BitVec.toNat_setWidth_of_le (by decide)

theorem toNat_readRegWord_xFlags (s : State) (r : RegNo) : (readRegWord s (.xFlags r)).toNat = (s.x r).u.toNat := by
  rw [readRegWord, BitVec.toNat_setWidth_of_le (by decide), BitVec.toNat_ofBool]

/-! ### The bytes of TB (20_memory.md R63) -/

/-- A write that takes effect at index `k` of TB writes its bytes from there on, and no other field. -/
theorem writeData_text (s : State) (k : Nat) (d : BusData) :
    writeData s (0x2000 + k) d = { s with tb := Memory.writeAll s.tb k d.bytes } := by
  rw [writeData.eq_def, if_neg (by unfold tbBase; omega), tbBase, Nat.add_sub_cancel_left]

/-- A read at index `k` of TB returns the bytes from there on. -/
theorem readData_text (s : State) (k : Nat) (width : Width) : readData s (0x2000 + k) width = readText s k width := by
  rw [readData, if_neg (by unfold tbBase; omega), tbBase, Nat.add_sub_cancel_left]

/-- TB reads the same under another schedule. -/
@[simp] theorem State.tbByte_withEnv (s : State) (env : List Event) (k : Nat) :
    { s with env := env }.tbByte k = s.tbByte k := rfl

/-- Of bytes written at rising indices, the first stands at the first index and the others from the next on. -/
theorem State.tbByte_writeAll_cons (s : State) (k : Nat) (b : Byte) (bs : List Byte) (j : Nat) :
    { s with tb := Memory.writeAll s.tb k (b :: bs) }.tbByte j =
      if j = k then b else { s with tb := Memory.writeAll s.tb (k + 1) bs }.tbByte j := by
  simp only [State.tbByte, Memory.writeAll]
  rw [Memory.read_writeAll, Memory.read_writeAll, Memory.read_write]
  by_cases hj : j = k
  · rw [if_neg (by omega), if_pos hj, if_pos hj]
  · rw [if_neg hj, if_neg hj]

/-- A byte put below a value adds its number to 256 times the value's. -/
theorem toNat_append_byte {n : Nat} (v : BitVec n) (b : Byte) : (v ++ b).toNat = b.toNat + 2 ^ 8 * v.toNat := by
  rw [BitVec.toNat_append, ← Nat.shiftLeft_add_eq_or_of_lt b.isLt, Nat.shiftLeft_eq]
  omega

end Sys2Proof.Machine

namespace Sys2Proof.Proofs
open Sys2Proof.Machine Sys2Proof.Claims

/-- Settles O47: the two conditions of the statement are refusal and acceptance by the region, which come before all else. -/
theorem badAccessGetsBusError : Obligations.BadAccessGetsBusError := by
  intro s u off n width d hwin hn hwidth
  have hbytes : n = width.bytes := by rw [hn]; cases width <;> rfl
  rw [hbytes, ← accessOk_eq_false_iff, ← accessOk_iff]
  subst hwidth
  refine ⟨fun hbad => ⟨fun hnext => ?readRefused, fun hnext => ?writeRefused⟩,
    fun hok => ⟨fun hnext => ?readAnswered, fun hnext => ?writeAnswered⟩⟩
  case readRefused =>
    exact ⟨_, _, (step_of_next hnext).trans (hostRead_refused hwin hbad), rfl, sameUnit_withResponse u _ _, rfl⟩
  case writeRefused =>
    exact ⟨_, (step_of_next hnext).trans (hostWrite_refused hwin hbad), rfl, sameUnit_withResponse u _ _, rfl⟩
  case readAnswered =>
    obtain ⟨t, d', hread, hdata, hwidth, -⟩ := exists_hostRead_data (s := u) hwin hok
    exact ⟨t, d', (step_of_next hnext).trans hread, hdata, hwidth⟩
  case writeAnswered =>
    obtain ⟨t, hwrite, hokay⟩ := exists_hostWrite_okay (s := u) hwin hok
    exact ⟨t, (step_of_next hnext).trans hwrite, hokay⟩

/-- Settles O48: a read inside the window is answered, and no answer to a read changes more than the response. -/
theorem readsHaveNoSideEffects : Obligations.ReadsHaveNoSideEffects := by
  intro s u off width hwin hnext
  obtain ⟨t, hread⟩ := exists_hostRead hwin width u
  refine ⟨t, (step_of_next hnext).trans hread, ?_⟩
  obtain ⟨-, response, draws, rfl⟩ := hostRead_next hread
  exact ⟨sameUnit_withResponse u _ _, rfl⟩

/-- Settles O49: a read returns the word that the map puts at its offset. -/
theorem idleReadsFollowTheMap : Obligations.IdleReadsFollowTheMap := by
  intro s u off hnext hidle hreg halign
  have hstep := step_of_next hnext
  obtain ⟨rest, -, rfl⟩ := hnext
  rw [deliver, hostRead_regWord hreg halign (by simp [hidle])] at hstep
  refine ⟨_, _, hstep, rfl, ?id, ?ctrl, ?status, ?cmd, ?tlen, ?low, ?high, ?tag, ?reserved⟩
  case id => rintro rfl; rfl
  case ctrl => rintro rfl; exact Ctrl.toNat_word _
  case status => rintro rfl; exact (Status.toNat_word _).trans (by simp [hidle])
  case cmd => rintro rfl; rfl
  case tlen => rintro rfl; exact toNat_readRegWord_tlen _
  case low => rintro r rfl; rw [regWordAt_lo]; rfl
  case high => rintro r rfl; rw [regWordAt_hi]; rfl
  case tag => rintro r rfl; rw [regWordAt_flags]; exact toNat_readRegWord_xFlags _ r
  case reserved => intro hres; rw [regWordAt_eq_reserved hres]; rfl

/-- Settles O51: the bytes of a value go to and come from rising indices, the low bits first. -/
theorem textBufferIsLittleEndian : Obligations.TextBufferIsLittleEndian := by
  refine ⟨?write, ?read⟩
  case write =>
    intro s u k d hnext hidle hk hmod
    have hstep := step_of_next hnext
    obtain ⟨rest, -, rfl⟩ := hnext
    have halign : k % d.width.bytes = 0 := by cases d <;> exact hmod
    have hwin : 0x2000 + k < Config.windowSize := by unfold Config.windowSize; omega
    rw [deliver, hostWrite_kept hwin (accessOk_text halign) (by simp [hidle]), writeData_text] at hstep
    refine ⟨_, hstep, rfl, rfl, fun _ => rfl, rfl, rfl, rfl, rfl, rfl, fun j => ?_⟩
    have hfirst := State.tbByte_writeAll_cons s k
    cases d with
    | b8 b => exact hfirst _ _ j
    | b16 h =>
      refine (hfirst _ _ j).trans ?_
      rw [State.tbByte_writeAll_cons]
      rfl
    | b32 w =>
      refine (hfirst _ _ j).trans ?_
      rw [State.tbByte_writeAll_cons, State.tbByte_writeAll_cons, State.tbByte_writeAll_cons]
      rfl
  case read =>
    intro s u k width hnext hidle hk hmod
    have hstep := step_of_next hnext
    obtain ⟨rest, -, rfl⟩ := hnext
    have halign : k % width.bytes = 0 := by cases width <;> exact hmod
    have hwin : 0x2000 + k < Config.windowSize := by unfold Config.windowSize; omega
    rw [deliver, hostRead_shown hwin (accessOk_text halign) (by simp [hidle]), readData_text] at hstep
    refine ⟨_, _, hstep, rfl, ?_⟩
    cases width with
    | w8 => exact ⟨rfl, rfl⟩
    | w16 => exact ⟨rfl, toNat_append_byte _ _⟩
    | w32 =>
      refine ⟨rfl, ?_⟩
      simp only [toNat_append_byte, State.tbByte_withEnv]
      omega

/-- Settles O53: BUSY drops a write and hides a read at the words that hold CMD or an operand, and leaves every other word of the
map as it is when idle. -/
theorem busyWritesAreDropped : Obligations.BusyWritesAreDropped := by
  intro s u hbusy slot reserved aligned
  have hbytes : ∀ off width, aligned off width → off % width.bytes = 0 := by
    intro off width halign
    cases width <;> exact halign
  refine ⟨?dropped, ?answered, ?ctrl, ?status, ?ignored, ?shown⟩
  case dropped =>
    intro off d hnext hoff
    have ⟨hwin, hok, hdrop⟩ : off < Config.windowSize ∧ accessOk off d.width = true ∧ busyDropAt off = true := by
      obtain ⟨hword, hwidth⟩ | ⟨htb, hwin, halign⟩ := hoff
      · obtain ⟨p, hp, hdrop⟩ : ∃ p : RegWord, p.offset = some off ∧ busyDrop p = true := by
          obtain rfl | rfl | hslot := hword
          exacts [⟨.cmd, rfl, rfl⟩, ⟨.tlen, rfl, rfl⟩, exists_busyDrop_slot hslot]
        obtain ⟨hwin, hok⟩ := RegWord.accessOk_offset hp
        exact ⟨hwin, hwidth ▸ hok, (busyDropAt_of_offset hp).trans hdrop⟩
      · exact access_text htb hwin (hbytes off d.width halign)
    have hstep := step_of_next hnext
    obtain ⟨rest, -, rfl⟩ := hnext
    rw [deliver, hostWrite_dropped hwin hok (by simp [hbusy, hdrop])] at hstep
    exact ⟨_, hstep, rfl, fun _ => rfl, fun _ => rfl, rfl, rfl, rfl, rfl, rfl⟩
  case answered =>
    intro off width hnext hoff
    have ⟨hwin, hok⟩ : off < Config.windowSize ∧ accessOk off width = true := by
      obtain ⟨rfl | hslot, rfl⟩ | ⟨htb, hwin, halign⟩ := hoff
      · exact RegWord.accessOk_offset (p := .tlen) rfl
      · obtain ⟨p, hp, -⟩ := exists_busyDrop_slot hslot
        exact RegWord.accessOk_offset hp
      · obtain ⟨hwin, hok, -⟩ := access_text htb hwin (hbytes off width halign)
        exact ⟨hwin, hok⟩
    obtain ⟨t, d, hread, hdata⟩ := exists_hostRead_data (s := u) hwin hok
    exact ⟨t, d, (step_of_next hnext).trans hread, hdata⟩
  case ctrl =>
    intro w hnext
    have hmap : regWordAt 0x004 = .ctrl := regWordAt_of_offset rfl
    have hwrite := hostWrite_regWord (s := u) (off := 0x004) w (by decide) rfl (by simp [hmap, busyDrop])
    rw [hmap] at hwrite
    exact ⟨_, (step_of_next hnext).trans hwrite, rfl, fun _ => rfl, fun _ => rfl, rfl, rfl, rfl, rfl, rfl⟩
  case status =>
    intro w hnext
    have hstep := step_of_next hnext
    obtain ⟨rest, -, rfl⟩ := hnext
    have hmap : regWordAt 0x008 = .status := regWordAt_of_offset rfl
    rw [deliver, hostWrite_regWord w (by decide) rfl (by simp [hmap, busyDrop]), hmap] at hstep
    exact ⟨_, hstep, rfl, fun _ => rfl, fun _ => rfl, rfl, rfl, by simp [writeRegWord_status, Status.clear, hbusy], rfl, rfl⟩
  case ignored =>
    intro off w hnext halign hoff
    have ⟨hreg, hword⟩ : off < tbBase ∧ (regWordAt off = .id ∨ regWordAt off = .reserved) := by
      obtain rfl | hres := hoff
      · exact ⟨by decide, .inl rfl⟩
      · exact (regWordAt_reserved_region hres).imp_right .inr
    obtain ⟨hdrop, hself⟩ := readOnly_regWord u w hword
    have hwrite := hostWrite_regWord (s := u) w hreg halign (by simp [hdrop])
    rw [hself] at hwrite
    exact ⟨_, (step_of_next hnext).trans hwrite, rfl, sameUnit_withResponse u _ _⟩
  case shown =>
    intro off hnext halign hoff
    have ⟨hreg, hshown⟩ : off < tbBase ∧ busyRead (regWordAt off) = false := by
      obtain rfl | rfl | rfl | rfl | hres := hoff
      exacts [⟨by decide, rfl⟩, ⟨by decide, rfl⟩, ⟨by decide, rfl⟩, ⟨by decide, rfl⟩,
        (regWordAt_reserved_region hres).imp_right (fun hmap => by rw [hmap]; rfl)]
    have hstep := step_of_next hnext
    obtain ⟨rest, -, rfl⟩ := hnext
    rw [deliver, hostRead_regWord hreg halign (by simp [hshown])] at hstep
    refine ⟨_, _, hstep, rfl, sameUnit_withResponse _ _ _, ?id, ?ctrl, ?status, ?cmd, ?reserved⟩
    case id => rintro rfl; rfl
    case ctrl => rintro rfl; exact Ctrl.toNat_word _
    case status => rintro rfl; exact (Status.toNat_word _).trans (by simp [hbusy])
    case cmd => rintro rfl; rfl
    case reserved => intro hres; rw [(regWordAt_reserved_region hres).2]; rfl

end Sys2Proof.Proofs
end

section
/-! PROOFS. The opcode map read both ways: the rows an encoded command and a decoded word meet, and the fields each mask fixes; the
pseudo-instructions. -/

namespace Sys2Proof

/-! ### Decoding as the opcode map says it (30_encoding.md R95, R96) -/

/-- A word is a command exactly when it meets a row, and the row's fields give the command (30_encoding.md R96). -/
theorem decode_eq_command_iff (w : BusWord) (i : Instr) :
    decode w = .command i ↔ ∃ r ∈ opcodeRows, w &&& r.mask = r.matchWord ∧ i = r.command w := by
  constructor
  · intro h
    obtain ⟨r, hrow, hm, hi⟩ := decode_eq_command h
    exact ⟨r, (rowOf_eq_some hrow).1, hm, hi⟩
  · rintro ⟨r, hr, hm, rfl⟩
    have hrow : rowOf (fieldOpc w) = some r := by rw [fieldOpc_of_match hr hm, rowOf_opc r hr]
    simp only [decode, hrow, if_pos hm]

/-- No two rows have one opcode (30_encoding.md R96). -/
theorem opcodeRows_opc_distinct : opcodeRows.Pairwise (fun r r' => r.opc ≠ r'.opc) := by decide

/-- Every command is spelled by a row of the opcode map. -/
theorem encodedByRow (i : Instr) : Laws.EncodedByRow.Statement i := by
  cases i with
  | add => exact Laws.EncodedByRow.add ..
  | sub => exact Laws.EncodedByRow.sub ..
  | mul => exact Laws.EncodedByRow.mul ..
  | div => exact Laws.EncodedByRow.div ..
  | mod => exact Laws.EncodedByRow.mod ..
  | neg => exact Laws.EncodedByRow.neg ..
  | mulwu => exact Laws.EncodedByRow.mulwu ..
  | divq9 => exact Laws.EncodedByRow.divq9 ..
  | shl => exact Laws.EncodedByRow.shl ..
  | shr => exact Laws.EncodedByRow.shr ..
  | shru => exact Laws.EncodedByRow.shru ..
  | shli => exact Laws.EncodedByRow.shli ..
  | shri => exact Laws.EncodedByRow.shri ..
  | shrui => exact Laws.EncodedByRow.shrui ..
  | cmp => exact Laws.EncodedByRow.cmp ..
  | cmpu => exact Laws.EncodedByRow.cmpu ..
  | eq => exact Laws.EncodedByRow.eq ..
  | cvtf => exact Laws.EncodedByRow.cvtf ..
  | iparse => exact Laws.EncodedByRow.iparse ..
  | ifmt => exact Laws.EncodedByRow.ifmt ..
  | dparse => exact Laws.EncodedByRow.dparse ..
  | dparser => exact Laws.EncodedByRow.dparser ..
  | dfmt => exact Laws.EncodedByRow.dfmt ..

/-- The word of a well-formed command decodes to it (30_encoding.md R95, R97). -/
theorem decode_encode {i : Instr} (h : i.wellFormed = true) : decode (encode i) = .command i := by
  obtain ⟨r, hrow, hi, hm⟩ := encodedByRow i
  exact (decode_eq_command_iff _ _).mpr ⟨r, (rowOf_eq_some hrow).1, hm h, hi.symm⟩

/-! ### What a mask says of a word's fields (30_encoding.md R97) -/

/-- A field that the mask covers whole is 0. -/
theorem eq_zero_of_and {n : Nat} {x m : BitVec n} (h : x &&& m = 0#n) (hm : m = BitVec.allOnes n := by decide) : x = 0#n := by
  rwa [hm, BitVec.and_allOnes] at h

/-- A flag that the mask covers is 0. -/
theorem eq_false_of_and {x m : Bool} (h : (x && m) = false) (hm : m = true := by decide) : x = false := by
  rwa [hm, Bool.and_true] at h

/-- A register number whose bit 0 the mask covers is even (30_encoding.md R92). -/
theorem evenReg_of_and {r m : RegNo} (h : r &&& m = 0#4) (hm : m = 1#4 := by decide) : evenReg r = true := by
  subst hm; revert r; decide

/-- A word that is an opcode alone under a mask over OPC and bits [31:27] is the assembly of that opcode and its own fields,
and each field is 0 where the mask covers it (30_encoding.md R95). -/
theorem fields_of_match {w mask : BusWord} {opc : BitVec 8} (hm : w &&& mask = assemble opc 0 0 0 0 false)
    (hmask : fieldOpc mask = BitVec.allOnes 8 ∧ mask.extractLsb' 27 5 = BitVec.allOnes 5 := by decide) :
    assemble opc (fieldRd w) (fieldRs1 w) (fieldRs2 w) (fieldImm6 w) (fieldUf w) = w ∧
      fieldRd w &&& fieldRd mask = 0#4 ∧ fieldRs1 w &&& fieldRs1 mask = 0#4 ∧ fieldRs2 w &&& fieldRs2 mask = 0#4 ∧
      fieldImm6 w &&& fieldImm6 mask = 0#6 ∧ (fieldUf w && fieldUf mask) = false := by
  obtain ⟨hopc_mask, hres_mask⟩ := hmask
  obtain ⟨hopc, hrd, hrs1, hrs2, himm6, huf, hres⟩ := fields_of_masked _ _ _ hm
  rw [fieldOpc_assemble, hopc_mask, BitVec.and_allOnes] at hopc
  rw [reserved_assemble] at hres
  have hw := assemble_fields w (eq_zero_of_and hres hres_mask)
  rw [hopc] at hw
  simp only [fieldRd_assemble, fieldRs1_assemble, fieldRs2_assemble, fieldImm6_assemble,
    fieldUf_assemble] at hrd hrs1 hrs2 himm6 huf
  exact ⟨hw, hrd, hrs1, hrs2, himm6, huf⟩

/-! ### A row spells the words it matches (30_encoding.md R95, R97) -/

/-- Every word that meets the row is that of the command the row reads from it, and that command is well formed. -/
def OpcodeRow.Spells (r : OpcodeRow) : Prop :=
  ∀ w : BusWord, w &&& r.mask = r.matchWord → (r.command w).wellFormed = true ∧ encode (r.command w) = w

/-- The format R3: the mask leaves RD, RS1 and RS2 free. -/
theorem spells_formatR3 (opc : BitVec 8) (c : RegNo → RegNo → RegNo → Instr)
    (hwf : ∀ rd rs1 rs2, (c rd rs1 rs2).wellFormed = true)
    (henc : ∀ rd rs1 rs2, encode (c rd rs1 rs2) = assemble opc rd rs1 rs2 0 false) :
    OpcodeRow.Spells ⟨opc, 0xFFF000FF#32, formatR3 c⟩ := by
  intro w hm
  obtain ⟨hw, -, -, -, himm6, huf⟩ := fields_of_match (mask := 0xFFF000FF#32) (hm.trans (matchWord_eq _))
  rw [eq_zero_of_and himm6, eq_false_of_and huf] at hw
  exact ⟨hwf _ _ _, (henc _ _ _).trans hw⟩

/-- The format RI: the mask leaves RD, RS1 and IMM6 free. -/
theorem spells_formatRI (opc : BitVec 8) (c : RegNo → RegNo → BitVec 6 → Instr)
    (hwf : ∀ rd rs1 imm6, (c rd rs1 imm6).wellFormed = true)
    (henc : ∀ rd rs1 imm6, encode (c rd rs1 imm6) = assemble opc rd rs1 0 imm6 false) :
    OpcodeRow.Spells ⟨opc, 0xFC0F00FF#32, formatRI c⟩ := by
  intro w hm
  obtain ⟨hw, -, -, hrs2, -, huf⟩ := fields_of_match (mask := 0xFC0F00FF#32) (hm.trans (matchWord_eq _))
  rw [eq_zero_of_and hrs2, eq_false_of_and huf] at hw
  exact ⟨hwf _ _ _, (henc _ _ _).trans hw⟩

/-- The format D1: the mask leaves the three high bits of RD free. -/
theorem spells_formatD1 (opc : BitVec 8) (c : RegNo → Instr) (hwf : ∀ rd, (c rd).wellFormed = evenReg rd)
    (henc : ∀ rd, encode (c rd) = assemble opc rd 0 0 0 false) :
    OpcodeRow.Spells ⟨opc, 0xFFFFF1FF#32, fun w => c (fieldRd w)⟩ := by
  intro w hm
  obtain ⟨hw, hrd, hrs1, hrs2, himm6, huf⟩ := fields_of_match (mask := 0xFFFFF1FF#32) (hm.trans (matchWord_eq _))
  rw [eq_zero_of_and hrs1, eq_zero_of_and hrs2, eq_zero_of_and himm6, eq_false_of_and huf] at hw
  exact ⟨(hwf _).trans (evenReg_of_and hrd), (henc _).trans hw⟩

/-- Every row of the opcode map spells the words it matches. -/
theorem spells_of_mem : ∀ r ∈ opcodeRows, r.Spells := by
  simp only [opcodeRows, List.forall_mem_cons]
  refine ⟨?add, ?sub, ?mul, ?div, ?mod, ?neg, ?mulwu, ?divq9, ?shl, ?shr, ?shru, ?shli, ?shri, ?shrui, ?cmp, ?cmpu, ?eq,
    ?cvtf, ?iparse, ?ifmt, ?dparse, ?dparser, ?dfmt, List.forall_mem_nil _⟩
  case add | sub | mul | div | mod | shl | shr | shru | cmp | cmpu | eq =>
    exact spells_formatR3 _ _ (fun _ _ _ => rfl) (fun _ _ _ => rfl)
  case shli | shri | shrui => exact spells_formatRI _ _ (fun _ _ _ => rfl) (fun _ _ _ => rfl)
  case dparse | dparser => exact spells_formatD1 _ _ (fun _ => rfl) (fun _ => rfl)
  case neg =>
    intro w hm
    obtain ⟨hw, -, -, hrs2, himm6, huf⟩ := fields_of_match (hm.trans (matchWord_eq _))
    rw [eq_zero_of_and hrs2, eq_zero_of_and himm6, eq_false_of_and huf] at hw
    exact ⟨rfl, hw⟩
  case mulwu =>
    intro w hm
    obtain ⟨hw, hrd, -, -, himm6, huf⟩ := fields_of_match (hm.trans (matchWord_eq _))
    rw [eq_zero_of_and himm6, eq_false_of_and huf] at hw
    exact ⟨evenReg_of_and hrd, hw⟩
  case divq9 =>
    intro w hm
    obtain ⟨hw, -, hrs1, hrs2, himm6, huf⟩ := fields_of_match (hm.trans (matchWord_eq _))
    rw [eq_zero_of_and hrs2, eq_zero_of_and himm6, eq_false_of_and huf] at hw
    exact ⟨evenReg_of_and hrs1, hw⟩
  case cvtf =>
    intro w hm
    obtain ⟨hw, -, -, hrs2, himm6, -⟩ := fields_of_match (hm.trans (matchWord_eq _))
    rw [eq_zero_of_and hrs2, eq_zero_of_and himm6] at hw
    exact ⟨rfl, hw⟩
  case iparse =>
    intro w hm
    obtain ⟨hw, -, hrs1, hrs2, -, -⟩ := fields_of_match (hm.trans (matchWord_eq _))
    rw [eq_zero_of_and hrs1, eq_zero_of_and hrs2] at hw
    exact ⟨rfl, hw⟩
  case ifmt =>
    intro w hm
    obtain ⟨hw, hrd, -, hrs2, -, huf⟩ := fields_of_match (hm.trans (matchWord_eq _))
    rw [eq_zero_of_and hrd, eq_zero_of_and hrs2, eq_false_of_and huf] at hw
    exact ⟨rfl, hw⟩
  case dfmt =>
    intro w hm
    obtain ⟨hw, hrd, hrs1, hrs2, himm6, huf⟩ := fields_of_match (hm.trans (matchWord_eq _))
    rw [eq_zero_of_and hrd, eq_zero_of_and hrs2, eq_zero_of_and himm6, eq_false_of_and huf] at hw
    exact ⟨evenReg_of_and hrs1, hw⟩

/-- A word that decodes is the word of the command, which is well formed (30_encoding.md R95, R97). -/
theorem encode_of_decode {w : BusWord} {i : Instr} (h : decode w = .command i) : i.wellFormed = true ∧ encode i = w := by
  obtain ⟨r, hr, hm, rfl⟩ := (decode_eq_command_iff w i).mp h
  exact spells_of_mem r hr w hm

end Sys2Proof

namespace Sys2Proof.Machine

/-! ### What MOV and CLR compute (30_encoding.md R101) -/

/-- A shift by 0 keeps pattern and tag. -/
theorem shiftLeft_zero (a : Reg) : shiftLeft a 0 = a := by
  simp only [shiftLeft, pow_zero, mul_one, wrap64_uint]

/-- A command whose meaning is one register write and success writes that register and nothing else. -/
theorem writesReg_of_exec {i : Instr} {s : State} {d : RegNo} {a : Reg} (h : exec i s = succeed (s.setX d a)) :
    Claims.WritesReg i s d a :=
  ⟨_, h, writesRegs_setX s d a, by simp⟩

/-- MOV writes its source (30_encoding.md R101). -/
theorem exec_mov (rd rs : RegNo) (s : State) : exec (.mov rd rs) s = succeed (s.setX rd (s.x rs)) := by
  show succeed (s.setX rd (shiftLeft (s.x rs) 0)) = _
  rw [shiftLeft_zero]

/-- CLR writes 0 under the register's own tag (30_encoding.md R101). -/
theorem exec_clr (rd : RegNo) (s : State) : exec (.clr rd) s = succeed (s.setX rd ⟨0#64, (s.x rd).u⟩) := by
  show succeed (s.setX rd ⟨wrap64 (uint (s.x rd).v - uint (s.x rd).v), (s.x rd).u⟩) = _
  rw [sub_self]
  rfl

end Sys2Proof.Machine

namespace Sys2Proof.Proofs
open Sys2Proof.Machine Sys2Proof.Claims

/-- Settles O1: the command's own row matches its word and reads the command back. -/
theorem decodeInvertsEncode : Obligations.DecodeInvertsEncode := fun _ => decode_encode

/-- Settles O2: the row a word meets fixes every field that the command does not hold. -/
theorem encodeInvertsDecode : Obligations.EncodeInvertsDecode := fun _ _ => encode_of_decode

/-- Settles O3: each mask covers the opcode, so a word meets at most the one row of its opcode. -/
theorem decodeFollowsOpcodeMap : Obligations.DecodeFollowsOpcodeMap := by
  refine ⟨by decide, decode_eq_command_iff, opcodeRows_opc_distinct.imp_of_mem ?_⟩
  intro r r' hr hr' hopc w ⟨hm, hm'⟩
  exact hopc ((fieldOpc_of_match hr hm).symm.trans (fieldOpc_of_match hr' hm'))

/-- Settles O5: MOV shifts by 0, and CLR subtracts a register from itself under that register's tag. -/
theorem pseudoInstructionsMovAndClr : Obligations.PseudoInstructionsMovAndClr := fun rd rs s =>
  ⟨⟨rfl, writesReg_of_exec (exec_mov rd rs s)⟩, ⟨rfl, writesReg_of_exec (exec_clr rd s)⟩⟩

/-- Settles O4: the nine words are those of well-formed commands, so they decode to them; of the other three, one has an opcode
of no row, one an odd pair register, and one a UF that ADD does not use. -/
theorem sampleWordsDecode : Obligations.SampleWordsDecode :=
  ⟨decode_encode (i := .add 5 5 4) rfl, decode_encode (i := .mulwu 4 1 2) rfl, decode_encode (i := .divq9 2 0) rfl,
    decode_encode (i := .shri 1 2 63) rfl, decode_encode (i := .eq 6 5 1) rfl, decode_encode (i := .cvtf 1 2 true) rfl,
    decode_encode (i := .iparse 1 10 true) rfl, decode_encode (i := .dparser 10) rfl, decode_encode (i := .dfmt 8) rfl,
    by decide, by decide, by decide⟩

end Sys2Proof.Proofs
end

section
/-! PROOFS. The command word of a statement as the encoder's word; wrap64 as a ring map; and DIV and MOD as the quotient and the
remainder of the dividend's mode. -/

namespace Sys2Proof.Claims

/-! ### Command words (30_encoding.md R103) -/

/-- Juxtaposition of patterns is addition of the shifted high part. -/
theorem toNat_append_eq_add {m n : Nat} (x : BitVec m) (y : BitVec n) : (x ++ y).toNat = x.toNat * 2 ^ n + y.toNat := by
  rw [BitVec.toNat_append, ← Nat.shiftLeft_add_eq_or_of_lt y.isLt, Nat.shiftLeft_eq]

/-- The sum of the shifted fields is the word that the encoder puts together. -/
theorem commandWord_eq_assemble {opc : Nat} (hopc : opc < 2 ^ 8) (rd rs1 rs2 : RegNo) (imm6 : BitVec 6) (uf : Bool) :
    commandWord opc rd rs1 rs2 imm6 uf = assemble (BitVec.ofNat 8 opc) rd rs1 rs2 imm6 uf := by
  have huf : (BitVec.ofBool uf).toNat = uf.toNat := BitVec.toNat_ofBool uf
  have hbit := uf.toNat_lt
  apply BitVec.eq_of_toNat_eq
  simp only [commandWord, assemble, toNat_append_eq_add, BitVec.toNat_ofNat, huf]
  omega

/-- The word of a well-formed command's opcode and fields decodes to it. -/
theorem decode_commandWord {opc : Nat} {rd rs1 rs2 : RegNo} {imm6 : BitVec 6} {uf : Bool} {i : Instr}
    (henc : encode i = assemble (BitVec.ofNat 8 opc) rd rs1 rs2 imm6 uf) (hopc : opc < 2 ^ 8 := by decide)
    (hwf : i.wellFormed = true := by rfl) : decode (commandWord opc rd rs1 rs2 imm6 uf) = .command i := by
  rw [commandWord_eq_assemble hopc, ← henc]
  exact decode_encode hwf

end Sys2Proof.Claims

namespace Sys2Proof.Machine

/-! ### The two shapes of a command's end -/

/-- A command whose meaning is one register write and success writes the number its pattern wraps. -/
theorem writesNumber_of_exec {i : Instr} {s : State} {d : RegNo} {v : Word} {u : Bool} {n : Int}
    (h : exec i s = succeed (s.setX d ⟨v, u⟩)) (hv : v = wrap64 n) : Claims.WritesNumber i s d n u := by
  obtain ⟨t, ht, hframe, hx⟩ := writesReg_of_exec h
  refine ⟨t, ht, hframe, ?_, by rw [hx]⟩
  rw [hx, hv]
  exact toNat_wrap64 n

/-- A command whose meaning is to raise a cause raises it. -/
theorem raisesCause_of_exec {i : Instr} {s : State} {c : Cause} (h : exec i s = raise c s) : Claims.RaisesCause i s c :=
  ⟨_, h, raises_finish s c⟩

/-! ### wrap64 keeps products and differences (00_scope.md R8) -/

/-- A product may be wrapped before or after it is taken. -/
theorem wrap64_mul (m n : Int) : wrap64 (m * n) = wrap64 m * wrap64 n := BitVec.ofInt_mul m n

/-- A difference may be wrapped before or after it is taken. -/
theorem wrap64_sub (m n : Int) : wrap64 (m - n) = wrap64 m - wrap64 n := by
  have hsum : wrap64 (m - n) + wrap64 n = wrap64 m := by rw [wrap64, wrap64, wrap64, ← BitVec.ofInt_add, sub_add_cancel]
  rw [← hsum, BitVec.add_sub_cancel]

/-- A signed number of 64 bits is read back from its wrapped pattern. -/
theorem sint_wrap64 {n : Int} (hlow : -2 ^ 63 ≤ n) (hhigh : n < 2 ^ 63) : sint (wrap64 n) = n :=
  BitVec.toInt_ofInt_eq_self (by decide) hlow hhigh

/-- An unsigned number of 64 bits is read back from its wrapped pattern. -/
theorem uint_wrap64 {n : Nat} (h : n < 2 ^ 64) : uint (wrap64 n) = n := by
  rw [wrap64, BitVec.ofInt_natCast, uint, BitVec.toNat_ofNat, Nat.mod_eq_of_lt h]

/-- Only the pattern 0 reads as the signed number 0. -/
theorem sint_eq_zero_iff (v : Word) : sint v = 0 ↔ v = 0#64 := by
  rw [sint, ← BitVec.toInt_inj, BitVec.toInt_zero]

/-! ### The quotient and the remainder of the dividend's mode (R134, R135, R140) -/

/-- The pattern MOD writes for a nonzero divisor. -/
def remainder (a b : Reg) : Word := wrap64 ((uint a.v : Int) - uint (quotient a b) * uint b.v)

/-- A dividend with tag 1 is divided unsigned. -/
theorem quotient_unsigned {a : Reg} (b : Reg) (hu : a.u = true) : quotient a b = wrap64 (uint a.v / uint b.v : Nat) := if_pos hu

/-- A dividend with tag 0 is divided signed. -/
theorem quotient_signed {a : Reg} (b : Reg) (hu : a.u = false) : quotient a b = wrap64 ((sint a.v).tdiv (sint b.v)) :=
  if_neg (by simp [hu])

/-- The remainder is the dividend less quotient times divisor, on the patterns. -/
theorem remainder_eq_sub (a b : Reg) : remainder a b = a.v - quotient a b * b.v := by
  rw [remainder, wrap64_sub, wrap64_mul, wrap64_uint, wrap64_uint, wrap64_uint]

/-- The division identity, bit for bit (R137). -/
theorem quotient_mul_add_remainder (a b : Reg) : quotient a b * b.v + remainder a b = a.v := by
  rw [remainder_eq_sub, add_sub_cancel]

/-- With tag 1 the remainder is the unsigned one. -/
theorem remainder_unsigned {a : Reg} (b : Reg) (hu : a.u = true) : remainder a b = wrap64 (uint a.v % uint b.v : Nat) := by
  rw [remainder_eq_sub, quotient_unsigned b hu, Int.natCast_mod, Int.emod_def, wrap64_sub, wrap64_mul, wrap64_uint, wrap64_uint,
    Int.natCast_ediv, mul_comm]

/-- With tag 0 the remainder is the signed one, of the truncated quotient. -/
theorem remainder_signed {a : Reg} (b : Reg) (hu : a.u = false) : remainder a b = wrap64 ((sint a.v).tmod (sint b.v)) := by
  rw [remainder_eq_sub, quotient_signed b hu, Int.tmod_def, wrap64_sub, wrap64_mul, wrap64_sint, wrap64_sint, mul_comm]

/-- With tag 1 the remainder is below the divisor (R137). -/
theorem uint_remainder_lt {a b : Reg} (hb : b.v ≠ 0#64) (hu : a.u = true) : uint (remainder a b) < uint b.v := by
  have hpos : 0 < uint b.v := Nat.pos_of_ne_zero fun h => hb (BitVec.eq_of_toNat_eq h)
  have hlt := Nat.mod_lt (uint a.v) hpos
  rwa [remainder_unsigned b hu, uint_wrap64 (hlt.trans b.v.isLt)]

/-- With tag 0 the remainder fits and reads as the exact one, even where the quotient MIN by -1 does not fit. -/
theorem sint_remainder {a b : Reg} (hb : b.v ≠ 0#64) (hu : a.u = false) :
    sint (remainder a b) = (sint a.v).tmod (sint b.v) ∧ ((sint a.v).tmod (sint b.v)).natAbs < (sint b.v).natAbs := by
  have hpos : 0 < (sint b.v).natAbs := Int.natAbs_pos.mpr fun h => hb ((sint_eq_zero_iff b.v).mp h)
  have hlt : ((sint a.v).tmod (sint b.v)).natAbs < (sint b.v).natAbs := by
    rw [Int.natAbs_tmod]
    exact Nat.mod_lt _ hpos
  have hhigh : sint b.v < 2 ^ 63 := BitVec.toInt_lt
  have hlow : -2 ^ 63 ≤ sint b.v := BitVec.le_toInt b.v
  refine ⟨?_, hlt⟩
  rw [remainder_signed b hu]
  exact sint_wrap64 (by omega) (by omega)

/-! ### Truncated division by magnitudes and signs (R139) -/

/-- The truncated quotient is that of the magnitudes, negated where the signs differ. -/
theorem tdiv_eq_ite_magnitudes (a b : Int) :
    a.tdiv b = if (a < 0 ↔ b < 0) then ((a.natAbs / b.natAbs : Nat) : Int) else -((a.natAbs / b.natAbs : Nat) : Int) := by
  rw [← show (a.tdiv b).natAbs = a.natAbs / b.natAbs from Int.natAbs_tdiv a b]
  rcases lt_or_ge a 0 with ha | ha <;> rcases lt_or_ge b 0 with hb | hb
  · have hpos := Int.tdiv_nonneg_of_nonpos_of_nonpos ha.le hb.le
    rw [if_pos (by omega), Int.natAbs_of_nonneg hpos]
  · have hneg := Int.tdiv_nonneg (neg_nonneg.mpr ha.le) hb
    rw [Int.neg_tdiv] at hneg
    rw [if_neg (by omega), Int.ofNat_natAbs_of_nonpos (by omega), neg_neg]
  · have hneg := Int.tdiv_nonpos_of_nonneg_of_nonpos ha hb.le
    rw [if_neg (by omega), Int.ofNat_natAbs_of_nonpos hneg, neg_neg]
  · have hpos := Int.tdiv_nonneg ha hb
    rw [if_pos (by omega), Int.natAbs_of_nonneg hpos]

/-- The truncated remainder is that of the magnitudes, with the dividend's sign. -/
theorem tmod_eq_ite_magnitudes (a b : Int) :
    a.tmod b = if a < 0 then -((a.natAbs % b.natAbs : Nat) : Int) else ((a.natAbs % b.natAbs : Nat) : Int) := by
  rw [← Int.natAbs_tmod]
  rcases lt_or_ge a 0 with ha | ha
  · have hneg := Int.tmod_nonneg b (neg_nonneg.mpr ha.le)
    rw [Int.neg_tmod] at hneg
    rw [if_pos ha, Int.ofNat_natAbs_of_nonpos (by omega), neg_neg]
  · rw [if_neg (not_lt.mpr ha), Int.natAbs_of_nonneg (Int.tmod_nonneg b ha)]

/-! ### DIV and MOD -/

section
variable {rs2 : RegNo} {s : State} (rd rs1 : RegNo)

/-- DIV by the pattern 0 raises DIV_BY_ZERO (R134). -/
theorem exec_div_zero (h : (s.x rs2).v = 0#64) : exec (.div rd rs1 rs2) s = raise .divByZero s := if_pos h

/-- MOD by the pattern 0 raises DIV_BY_ZERO (R135). -/
theorem exec_mod_zero (h : (s.x rs2).v = 0#64) : exec (.mod rd rs1 rs2) s = raise .divByZero s := if_pos h

/-- DIV by any other pattern writes the quotient under the dividend's tag (R134). -/
theorem exec_div_nonzero (h : (s.x rs2).v ≠ 0#64) :
    exec (.div rd rs1 rs2) s = succeed (s.setX rd ⟨quotient (s.x rs1) (s.x rs2), (s.x rs1).u⟩) := if_neg h

/-- MOD by any other pattern writes the remainder under the dividend's tag (R135). -/
theorem exec_mod_nonzero (h : (s.x rs2).v ≠ 0#64) :
    exec (.mod rd rs1 rs2) s = succeed (s.setX rd ⟨remainder (s.x rs1) (s.x rs2), (s.x rs1).u⟩) := if_neg h

/-- DIV of a dividend with tag 0 writes the truncated quotient (R134). -/
theorem writesNumber_div_signed (h : (s.x rs2).v ≠ 0#64) (hu : (s.x rs1).u = false) :
    Claims.WritesNumber (.div rd rs1 rs2) s rd ((sint (s.x rs1).v).tdiv (sint (s.x rs2).v)) false :=
  writesNumber_of_exec (hu ▸ exec_div_nonzero rd rs1 h) (quotient_signed _ hu)

/-- MOD of a dividend with tag 0 writes the remainder of the truncated quotient (R135). -/
theorem writesNumber_mod_signed (h : (s.x rs2).v ≠ 0#64) (hu : (s.x rs1).u = false) :
    Claims.WritesNumber (.mod rd rs1 rs2) s rd ((sint (s.x rs1).v).tmod (sint (s.x rs2).v)) false :=
  writesNumber_of_exec (hu ▸ exec_mod_nonzero rd rs1 h) (remainder_signed _ hu)

end

end Sys2Proof.Machine

namespace Sys2Proof.Proofs
open Sys2Proof.Machine Sys2Proof.Claims

/-- Settles O11: ADD wraps the sum of the unsigned values. -/
theorem addWritesWrappedSum : Obligations.AddWritesWrappedSum := fun _ _ _ _ =>
  ⟨decode_commandWord rfl, writesNumber_of_exec rfl rfl⟩

/-- Settles O12: SUB wraps the difference of the unsigned values, taken as integers. -/
theorem subWritesWrappedDifference : Obligations.SubWritesWrappedDifference := fun _ _ _ _ =>
  ⟨decode_commandWord rfl, writesNumber_of_exec rfl rfl⟩

/-- Settles O13: wrap64 keeps products, and the signed and the unsigned value of a pattern wrap to that pattern. -/
theorem mulWritesLowProduct : Obligations.MulWritesLowProduct := by
  intro rd rs1 rs2 s
  refine ⟨decode_commandWord rfl, writesNumber_of_exec rfl rfl, writesNumber_of_exec rfl ?_⟩
  show wrap64 (uint (s.x rs1).v * uint (s.x rs2).v) = wrap64 (sint (s.x rs1).v * sint (s.x rs2).v)
  rw [wrap64_mul, wrap64_mul, wrap64_uint, wrap64_uint, wrap64_sint, wrap64_sint]

/-- Settles O14: NEG wraps 0 minus the unsigned value. -/
theorem negWritesWrappedNegation : Obligations.NegWritesWrappedNegation := fun _ _ _ =>
  ⟨decode_commandWord rfl, writesNumber_of_exec rfl rfl⟩

/-- Settles O15: a zero divisor raises, and any other is divided by in the mode of the dividend's tag. -/
theorem divWritesQuotient : Obligations.DivWritesQuotient := fun rd rs1 _ _ =>
  ⟨decode_commandWord rfl, fun hzero => raisesCause_of_exec (exec_div_zero rd rs1 hzero),
    fun hb hu => writesNumber_of_exec (hu ▸ exec_div_nonzero rd rs1 hb) (quotient_unsigned _ hu),
    fun hb hu => writesNumber_div_signed rd rs1 hb hu⟩

/-- Settles O16: MOD subtracts the product with the quotient that DIV writes, which leaves the remainder of the dividend's
mode. -/
theorem modWritesRemainder : Obligations.ModWritesRemainder := by
  intro rd rs1 rs2 s
  refine ⟨decode_commandWord rfl, fun hzero => raisesCause_of_exec (exec_mod_zero rd rs1 hzero), fun hb d => ?_,
    fun hb hu => ?_, fun hb hu => writesNumber_mod_signed rd rs1 hb hu⟩
  · obtain ⟨t, hexec, -, hx⟩ := writesReg_of_exec (exec_div_nonzero d rs1 hb)
    refine ⟨t, hexec, writesNumber_of_exec (exec_mod_nonzero rd rs1 hb) ?_⟩
    rw [hx]
    rfl
  · exact writesNumber_of_exec (hu ▸ exec_mod_nonzero rd rs1 hb) (remainder_unsigned _ hu)

/-- Settles O17: the truncated quotient and its remainder, by the signs of dividend and divisor. -/
theorem signedDivisionSigns : Obligations.SignedDivisionSigns := by
  intro rd rs1 rs2 s hu a b q r
  have hq : a.tdiv b = if (a < 0 ↔ b < 0) then (q : Int) else -q := tdiv_eq_ite_magnitudes a b
  have hr : a.tmod b = if a < 0 then -(r : Int) else r := by
    rw [tmod_eq_ite_magnitudes, Nat.mod_eq_sub_div_mul]
  have hne (hb : b ≠ 0) : (s.x rs2).v ≠ 0#64 := fun h => hb ((sint_eq_zero_iff _).mpr h)
  have hdiv (hb : b ≠ 0) : WritesNumber (.div rd rs1 rs2) s rd (a.tdiv b) false := writesNumber_div_signed rd rs1 (hne hb) hu
  have hmod (hb : b ≠ 0) : WritesNumber (.mod rd rs1 rs2) s rd (a.tmod b) false := writesNumber_mod_signed rd rs1 (hne hb) hu
  rw [hq] at hdiv
  rw [hr] at hmod
  refine ⟨fun ha hb => ?_, fun ha hb => ?_, fun ha hb => ?_, fun ha hb => ?_, fun hb => ?_⟩
  · rw [if_pos (by omega)] at hdiv; rw [if_neg (by omega)] at hmod
    exact ⟨hdiv hb.ne', hmod hb.ne'⟩
  · rw [if_neg (by omega)] at hdiv; rw [if_pos ha] at hmod
    exact ⟨hdiv hb.ne', hmod hb.ne'⟩
  · rw [if_neg (by omega)] at hdiv; rw [if_neg (by omega)] at hmod
    exact ⟨hdiv hb.ne, hmod hb.ne⟩
  · rw [if_pos (by omega)] at hdiv; rw [if_pos ha] at hmod
    exact ⟨hdiv hb.ne, hmod hb.ne⟩
  · have hzero := (sint_eq_zero_iff _).mp hb
    exact ⟨raisesCause_of_exec (exec_div_zero rd rs1 hzero), raisesCause_of_exec (exec_mod_zero rd rs1 hzero)⟩

/-- Settles O18: MOD's pattern is the dividend less quotient times divisor, and reads as the exact remainder in the dividend's
mode, MIN by -1 included. -/
theorem divisionIdentity : Obligations.DivisionIdentity := by
  intro rd rs1 rs2 s hb
  obtain ⟨t, hdiv, -, hq⟩ := writesReg_of_exec (exec_div_nonzero rd rs1 hb)
  obtain ⟨t', hmod, -, hr⟩ := writesReg_of_exec (exec_mod_nonzero rd rs1 hb)
  refine ⟨t, t', hdiv, hmod, ?_⟩
  rw [hq, hr]
  refine ⟨quotient_mul_add_remainder _ _, rfl, rfl, uint_remainder_lt hb, fun hu _ => ?_⟩
  obtain ⟨hexact, hlt⟩ := sint_remainder hb hu
  rw [← hexact] at hlt
  refine ⟨hlt, ?_⟩
  rw [← sint_eq_zero_iff, ← Int.sign_eq_zero_iff_zero]
  show (sint (remainder (s.x rs1) (s.x rs2))).sign = 0 ∨ (sint (remainder (s.x rs1) (s.x rs2))).sign = (sint (s.x rs1).v).sign
  rw [hexact, Int.sign_tmod]
  split
  · exact .inl rfl
  · exact .inr rfl

end Sys2Proof.Proofs
end

section
/-! PROOFS. Words that spell no command because a pair register is odd; the number a pair holds; and MULWU and DIVQ9 as a product
and a Euclidean division of such numbers. -/

namespace Sys2Proof.Claims

/-! ### Words of odd pairs (30_encoding.md R95) -/

/-- The word of a command that is not well formed decodes to no command: its row reads back that very command, and only well-formed
commands are decoded. -/
theorem decode_encode_ne_command {i : Instr} (h : i.wellFormed = false) (j : Instr) : decode (encode i) ≠ .command j := by
  intro hdecode
  obtain ⟨r, hrow, hi, -⟩ := encodedByRow i
  obtain ⟨r', hrow', -, hj⟩ := decode_eq_command hdecode
  obtain rfl : r = r' := Option.some.inj (hrow.symm.trans hrow')
  obtain rfl : j = i := hj.trans hi
  simp [(encode_of_decode hdecode).1] at h

/-- The word of the opcode and fields of a command that is not well formed decodes to no command. -/
theorem decode_commandWord_ne_command {opc : Nat} {rd rs1 rs2 : RegNo} {imm6 : BitVec 6} {uf : Bool} (i : Instr)
    (hwf : i.wellFormed = false) (henc : encode i = assemble (BitVec.ofNat 8 opc) rd rs1 rs2 imm6 uf := by rfl)
    (hopc : opc < 2 ^ 8 := by decide) : ∀ j, decode (commandWord opc rd rs1 rs2 imm6 uf) ≠ .command j := by
  rw [commandWord_eq_assemble hopc, ← henc]
  exact decode_encode_ne_command hwf

end Sys2Proof.Claims

namespace Sys2Proof.Machine

/-! ### The number a pair holds (00_scope.md R9, 10_state.md R24) -/

/-- A pair is its high half times 2^64 plus its low half. -/
theorem State.toNat_pair (s : State) (r : RegNo) : (s.pair r).toNat = (s.x (highReg r)).v.toNat * 2 ^ 64 + (s.x r).v.toNat :=
  Claims.toNat_append_eq_add _ _

/-- Completion leaves every pair. -/
@[simp] theorem State.pair_finish (s : State) (c : Cause) (r : RegNo) : (s.finish c).pair r = s.pair r := rfl

/-- Writing a register outside a pair leaves the pair. -/
theorem State.pair_setX_of_ne (s : State) {r d : RegNo} (a : Reg) (hlow : d ≠ r) (hhigh : d ≠ highReg r) :
    (s.setX d a).pair r = s.pair r := by
  simp [State.pair, hlow.symm, hhigh.symm]

/-- The low half of a number of 128 bits. -/
theorem extractLow_ofNat (n : Nat) : (BitVec.ofNat 128 n).extractLsb' 0 64 = BitVec.ofNat 64 n := by
  apply BitVec.eq_of_toNat_eq
  simp only [BitVec.extractLsb'_toNat, BitVec.toNat_ofNat, Nat.shiftRight_zero]
  omega

/-- The high half of a number of 128 bits. -/
theorem extractHigh_ofNat (n : Nat) : (BitVec.ofNat 128 n).extractLsb' 64 64 = BitVec.ofNat 64 (n / 2 ^ 64) := by
  apply BitVec.eq_of_toNat_eq
  simp only [BitVec.extractLsb'_toNat, BitVec.toNat_ofNat, Nat.shiftRight_eq_div_pow]
  omega

/-- The low register of a pair after a number was written to the pair. -/
theorem State.x_setPair_low (s : State) (r : RegNo) (n : Nat) :
    (s.setPair r (BitVec.ofNat 128 n)).x r = ⟨BitVec.ofNat 64 n, true⟩ := by
  rw [State.x_setPair, if_neg (ne_highReg r), if_pos rfl, extractLow_ofNat]

/-- The high register of a pair after a number was written to the pair. -/
theorem State.x_setPair_high (s : State) (r : RegNo) (n : Nat) :
    (s.setPair r (BitVec.ofNat 128 n)).x (highReg r) = ⟨BitVec.ofNat 64 (n / 2 ^ 64), true⟩ := by
  rw [State.x_setPair, if_pos rfl, extractHigh_ofNat]

/-! ### MULWU (41_wide.md R160, R162) -/

/-- MULWU writes the product of the unsigned patterns to the pair. -/
theorem exec_mulwu (rd rs1 rs2 : RegNo) (s : State) :
    exec (.mulwu rd rs1 rs2) s = succeed (s.setPair rd (BitVec.ofNat 128 (uint (s.x rs1).v * uint (s.x rs2).v))) := rfl

/-- MUL writes the low half of that product. -/
theorem exec_mul (rd rs1 rs2 : RegNo) (s : State) :
    exec (.mul rd rs1 rs2) s =
      succeed (s.setX rd ⟨BitVec.ofNat 64 (uint (s.x rs1).v * uint (s.x rs2).v), (s.x rs1).u⟩) := by
  rw [← BitVec.ofInt_natCast]
  rfl

/-- The product of two patterns fits a pair. -/
theorem uint_mul_lt (v w : Word) : uint v * uint w < 2 ^ 128 :=
  (Nat.mul_lt_mul'' v.isLt w.isLt).trans_eq (pow_add 2 64 64).symm

/-! ### DIVQ9 (41_wide.md R161, R162) -/

/-- DIVQ9 writes the quotient of the pair by 10^9 to the pair, then the remainder to RD. -/
theorem exec_divq9 (rd rs1 : RegNo) (s : State) :
    exec (.divq9 rd rs1) s =
      succeed ((s.setPair rs1 (BitVec.ofNat 128 ((s.pair rs1).toNat / 1000000000))).setX rd
        ⟨BitVec.ofNat 64 ((s.pair rs1).toNat % 1000000000), true⟩) := by
  rw [Nat.mod_eq_sub_div_mul]
  rfl

/-- With RD outside the pair, DIVQ9 leaves the whole quotient in the pair, where it fits because the dividend did, and the remainder
in RD. -/
theorem exec_divq9_outside {rd rs1 : RegNo} (s : State) (hlow : rd ≠ rs1) (hhigh : rd ≠ highReg rs1) :
    ∃ t, exec (.divq9 rd rs1) s = .next t ∧ (t.pair rs1).toNat = (s.pair rs1).toNat / 1000000000 ∧
      (t.x rd).v.toNat = (s.pair rs1).toNat % 1000000000 := by
  refine ⟨_, exec_divq9 rd rs1 s, ?quotient, ?remainder⟩
  case quotient =>
    rw [State.pair_finish, State.pair_setX_of_ne _ _ hlow hhigh, State.pair_setPair, BitVec.toNat_ofNat]
    exact Nat.mod_eq_of_lt ((Nat.div_le_self _ _).trans_lt (s.pair rs1).isLt)
  case remainder =>
    have hlt : (s.pair rs1).toNat % 1000000000 < 1000000000 := Nat.mod_lt _ (by decide)
    rw [State.x_finish, State.x_setX, if_pos rfl, BitVec.toNat_ofNat]
    exact Nat.mod_eq_of_lt (hlt.trans (by decide))

end Sys2Proof.Machine

namespace Sys2Proof.Proofs
open Sys2Proof.Machine Sys2Proof.Claims

/-- Settles O19: the pair is written after both sources are read, half by half of the product; an odd RD is not well formed. -/
theorem mulwuWritesProductPair : Obligations.MulwuWritesProductPair := by
  intro rd rs1 rs2 s
  refine ⟨fun heven => ⟨decode_commandWord rfl (hwf := heven), ?_⟩,
    fun hodd => decode_commandWord_ne_command (.mulwu rd rs1 rs2) hodd⟩
  exact ⟨_, exec_mulwu rd rs1 rs2 s, writesRegs_setPair s rd _, State.x_setPair_low s rd _, State.x_setPair_high s rd _⟩

/-- Settles O20: the remainder is written last, so it stands in RD always, and each half of the quotient stands where RD is another
register; an odd RS1 is not well formed. -/
theorem divq9DividesPair : Obligations.Divq9DividesPair := by
  intro rd rs1 s
  refine ⟨fun heven => ?_, fun hodd => decode_commandWord_ne_command (.divq9 rd rs1) hodd⟩
  rw [← State.toNat_pair]
  refine ⟨decode_commandWord rfl (hwf := heven), _, exec_divq9 rd rs1 s, writesRegs_setPair_setX s rs1 rd _ _, ?remainder,
    fun hlow => ?low, fun hhigh => ?high⟩
  case remainder => rw [State.x_finish, State.x_setX, if_pos rfl]
  case low => rw [State.x_finish, State.x_setX, if_neg hlow.symm, State.x_setPair_low]
  case high => rw [State.x_finish, State.x_setX, if_neg hhigh.symm, State.x_setPair_high]

/-- Settles O21: a product of two patterns fits the pair, so the pair holds it whole and MUL's register its low half; quotient and
remainder rebuild the dividend as in any Euclidean division. -/
theorem wideStepLaws : Obligations.WideStepLaws := by
  refine ⟨fun rd d rs1 rs2 s _ => ⟨_, _, exec_mulwu rd rs1 rs2 s, exec_mul d rs1 rs2 s, ?product, ?low⟩,
    fun rd rs1 s _ hlow hhigh => ?dividend⟩
  case product =>
    rw [← State.toNat_pair, State.pair_finish, State.pair_setPair, BitVec.toNat_ofNat]
    exact Nat.mod_eq_of_lt (uint_mul_lt _ _)
  case low => rw [State.x_finish, State.x_finish, State.x_setPair_low, State.x_setX, if_pos rfl]
  case dividend =>
    obtain ⟨t, hexec, hquotient, hremainder⟩ := exec_divq9_outside s hlow hhigh
    refine ⟨t, hexec, ?_⟩
    rw [← State.toNat_pair, ← State.toNat_pair, hquotient, hremainder]
    exact ⟨Nat.div_add_mod' _ _, Nat.mod_lt _ (by decide)⟩

end Sys2Proof.Proofs
end

section
/-! PROOFS. The three shifts as shifts of the pattern, the six commands as one register write each, and the shifts as a product and a
quotient by a power of two. -/

namespace Sys2Proof.Machine

/-! ### The shifts of a register's pattern (42_shift.md R180) -/

/-- The low 6 bits of the amount register are its value modulo 64. -/
theorem shiftAmount_eq_amountOf (b : Reg) : shiftAmount b = Claims.amountOf b := by
  rw [shiftAmount, BitVec.extractLsb'_toNat, Nat.shiftRight_zero]
  rfl

/-- Wrapping the product with 2^n moves the bits left (R181). -/
theorem shiftLeft_eq (a : Reg) (n : Nat) : shiftLeft a n = ⟨a.v <<< n, a.u⟩ := by
  have hv : wrap64 (uint a.v * 2 ^ n : Nat) = a.v <<< n := by
    apply BitVec.eq_of_toNat_eq
    rw [wrap64, BitVec.ofInt_natCast, BitVec.toNat_ofNat, BitVec.toNat_shiftLeft, Nat.shiftLeft_eq]
    rfl
  rw [shiftLeft, ← hv]
  push_cast
  rfl

/-- The floor of the signed quotient by 2^n moves the bits right and copies bit 63 (R182). -/
theorem shiftRightArith_eq (a : Reg) (n : Nat) : shiftRightArith a n = ⟨a.v.sshiftRight n, a.u⟩ := by
  rw [shiftRightArith, BitVec.sshiftRight_eq, Int.shiftRight_eq_div_pow, Int.fdiv_eq_ediv_of_nonneg _ (by positivity)]
  push_cast
  rfl

/-- The unsigned quotient by 2^n moves the bits right and fills with 0 (R183); it fits without wrapping. -/
theorem shiftRightLogic_eq (a : Reg) (n : Nat) : shiftRightLogic a n = ⟨a.v >>> n, a.u⟩ := by
  have hv : uint a.v / 2 ^ n = uint (a.v >>> n) := by
    rw [uint, uint, BitVec.toNat_ushiftRight, Nat.shiftRight_eq_div_pow]
  rw [shiftRightLogic, hv, wrap64_uint]

/-- Where bit 63 is 0 the bit copied in is the 0 filled in (R187). -/
theorem shiftRightArith_eq_logic {a : Reg} (h : a.v.getLsbD 63 = false) (n : Nat) :
    shiftRightArith a n = shiftRightLogic a n := by
  have hmsb : a.v.msb = false := by rwa [BitVec.msb_eq_getLsbD_last]
  rw [shiftRightArith_eq, shiftRightLogic_eq, BitVec.sshiftRight_eq_of_msb_false hmsb]

/-! ### What the shift commands compute (42_shift.md R181 to R186) -/

section
variable (rd rs1 rs2 : RegNo) (imm6 : BitVec 6) (s : State)

/-- SHL (R181). -/
theorem exec_shl : exec (.shl rd rs1 rs2) s = succeed (s.setX rd (shiftLeft (s.x rs1) (Claims.amountOf (s.x rs2)))) := by
  rw [← shiftAmount_eq_amountOf]
  rfl

/-- SHR (R182). -/
theorem exec_shr : exec (.shr rd rs1 rs2) s = succeed (s.setX rd (shiftRightArith (s.x rs1) (Claims.amountOf (s.x rs2)))) := by
  rw [← shiftAmount_eq_amountOf]
  rfl

/-- SHRU (R183). -/
theorem exec_shru : exec (.shru rd rs1 rs2) s = succeed (s.setX rd (shiftRightLogic (s.x rs1) (Claims.amountOf (s.x rs2)))) := by
  rw [← shiftAmount_eq_amountOf]
  rfl

/-- SHLI (R184). -/
theorem exec_shli : exec (.shli rd rs1 imm6) s = succeed (s.setX rd (shiftLeft (s.x rs1) imm6.toNat)) := rfl

/-- SHRI (R185). -/
theorem exec_shri : exec (.shri rd rs1 imm6) s = succeed (s.setX rd (shiftRightArith (s.x rs1) imm6.toNat)) := rfl

/-- SHRUI (R186). -/
theorem exec_shrui : exec (.shrui rd rs1 imm6) s = succeed (s.setX rd (shiftRightLogic (s.x rs1) imm6.toNat)) := rfl

end

/-! ### Shifts as arithmetic with a power of two (42_shift.md R187) -/

/-- The product with 2^n is the left shift by n. -/
theorem shiftLeft_eq_mul (a : Reg) {b : Reg} {n : Nat} (hb : uint b.v = 2 ^ n) :
    shiftLeft a n = ⟨BitVec.ofNat 64 (uint a.v * uint b.v), a.u⟩ := by
  rw [← BitVec.ofInt_natCast, hb]
  push_cast
  rfl

/-- The quotient of a pattern with tag 1 by 2^n is the logical right shift by n. -/
theorem quotient_eq_shiftRightLogic {a b : Reg} {n : Nat} (hu : a.u = true) (hb : uint b.v = 2 ^ n) :
    quotient a b = (shiftRightLogic a n).v := by
  rw [quotient_unsigned b hu, hb]
  rfl

/-- A power of two in a register is not the pattern 0. -/
theorem ne_zero_of_uint_eq_two_pow {v : Word} {n : Nat} (h : uint v = 2 ^ n) : v ≠ 0#64 := by
  rintro rfl
  exact (Nat.two_pow_pos n).ne h

end Sys2Proof.Machine

namespace Sys2Proof.Proofs
open Sys2Proof.Machine Sys2Proof.Claims

/-- Settles O22: both forms write the left shift of the source's pattern under its tag. -/
theorem leftShiftsMoveBits : Obligations.LeftShiftsMoveBits := by
  intro rd rs1 rs2 imm6 s
  rw [← shiftLeft_eq, ← shiftLeft_eq]
  exact ⟨decode_commandWord rfl, decode_commandWord rfl, writesReg_of_exec (exec_shl rd rs1 rs2 s),
    writesReg_of_exec (exec_shli rd rs1 imm6 s)⟩

/-- Settles O23: both forms write the arithmetic right shift of the source's pattern under its tag, which is not read. -/
theorem arithmeticShiftsCopySign : Obligations.ArithmeticShiftsCopySign := by
  intro rd rs1 rs2 imm6 s
  rw [← shiftRightArith_eq, ← shiftRightArith_eq]
  exact ⟨decode_commandWord rfl, decode_commandWord rfl, writesReg_of_exec (exec_shr rd rs1 rs2 s),
    writesReg_of_exec (exec_shri rd rs1 imm6 s)⟩

/-- Settles O24: both forms write the logical right shift of the source's pattern under its tag, which is not read. -/
theorem logicalShiftsFillZero : Obligations.LogicalShiftsFillZero := by
  intro rd rs1 rs2 imm6 s
  rw [← shiftRightLogic_eq, ← shiftRightLogic_eq]
  exact ⟨decode_commandWord rfl, decode_commandWord rfl, writesReg_of_exec (exec_shru rd rs1 rs2 s),
    writesReg_of_exec (exec_shrui rd rs1 imm6 s)⟩

/-- Settles O25: a left shift is the product with 2^n, a logical right shift the unsigned quotient by it, an arithmetic one the
logical one where bit 63 is 0, and a register form differs from the immediate form only in where the amount stands. -/
theorem shiftLaws : Obligations.ShiftLaws := by
  intro rd rs1 rs2 ra d imm6 s
  refine ⟨fun hpow => ?mul, fun hpow hv hu => ?div, fun hbit => ?arith, fun hamount => ?forms⟩
  case mul => rw [exec_shli, exec_mul, shiftLeft_eq_mul _ hpow]
  case div =>
    obtain ⟨t, hshift, -, hx⟩ := writesReg_of_exec (exec_shrui rd rs1 imm6 s)
    obtain ⟨t', hdiv, -, hx'⟩ := writesReg_of_exec (exec_div_nonzero d ra (ne_zero_of_uint_eq_two_pow hpow))
    refine ⟨t, t', hshift, hdiv, ?_⟩
    rw [hx, hx', quotient_eq_shiftRightLogic hu hpow, shiftRightLogic_eq, shiftRightLogic_eq, hv]
  case arith => rw [exec_shri, exec_shrui, shiftRightArith_eq_logic hbit]
  case forms => simp only [exec_shl, exec_shr, exec_shru, exec_shli, exec_shri, exec_shrui, hamount, and_self]

end Sys2Proof.Proofs
end

section
/-! PROOFS. The three results of a comparison as patterns, when two tagged patterns have one value, and CMP, CMPU and EQ as one
register write each. -/

namespace Sys2Proof.Machine

/-! ### The result of a comparison (43_compare.md R200) -/

/-- The pattern of -1 is written for "less" alone. -/
theorem wrap64_comparison_eq_minus_one_iff (m n : Int) : wrap64 (comparison m n) = 0xFFFFFFFFFFFFFFFF#64 ↔ m < n := by
  unfold comparison
  split_ifs with hlt
  · exact iff_of_true rfl hlt
  · exact iff_of_false (by decide) hlt
  · exact iff_of_false (by decide) hlt

/-- The pattern 0 is written for "equal" alone. -/
theorem wrap64_comparison_eq_zero_iff (m n : Int) : wrap64 (comparison m n) = 0#64 ↔ m = n := by
  unfold comparison
  split_ifs with hlt heq
  · exact iff_of_false (by decide) hlt.ne
  · exact iff_of_true rfl heq
  · exact iff_of_false (by decide) heq

/-- The comparison the other way round writes the negated pattern (R204). -/
theorem wrap64_comparison_swap (m n : Int) : wrap64 (comparison m n) = -wrap64 (comparison n m) := by
  have hswap : comparison m n = -comparison n m := by
    unfold comparison
    split_ifs <;> omega
  rw [hswap, wrap64, BitVec.ofInt_neg, wrap64]

/-- The pattern 1 is written for "greater" alone: "greater" is "less" the other way round. -/
theorem wrap64_comparison_eq_one_iff (m n : Int) : wrap64 (comparison m n) = 1#64 ↔ n < m := by
  rw [wrap64_comparison_swap, neg_eq_iff_eq_neg]
  exact wrap64_comparison_eq_minus_one_iff n m

/-- Subtracting one number from both sides does not change a comparison. -/
theorem comparison_sub_right (m n k : Int) : comparison (m - k) (n - k) = comparison m n := by
  simp only [comparison, sub_lt_sub_iff_right, sub_left_inj]

/-! ### The value of a tagged pattern (00_scope.md R8) -/

/-- The signed value is the unsigned one, less 2^64 where bit 63 is 1. -/
theorem sint_eq_uint_sub (v : Word) : sint v = uint v - if v.getLsbD 63 then 2 ^ 64 else 0 := by
  have hmsb : v.msb = v.getLsbD 63 := v.msb_eq_getLsbD_last
  rw [sint, BitVec.toInt_eq_msb_cond, hmsb, uint]
  split
  · rfl
  · exact (sub_zero _).symm

/-- The signed and the unsigned value agree exactly where bit 63 is 0. -/
theorem sint_eq_uint_iff (v : Word) : sint v = uint v ↔ v.getLsbD 63 = false := by
  rw [sint_eq_uint_sub]
  cases v.getLsbD 63 <;> simp

/-- Two tagged patterns have one value exactly when EQ's formula holds: the patterns are equal, and where the tags differ bit 63
is 0 (43_compare.md R203, R204). -/
theorem Reg.val_eq_iff (a b : Reg) :
    a.val = b.val ↔ a.v = b.v ∧ ¬ (a.u ≠ b.u ∧ a.v.getLsbD 63 = true ∧ b.v.getLsbD 63 = true) := by
  obtain hv | hv := ne_or_eq a.v b.v
  · have hval : a.val ≠ b.val := fun h => hv (by rw [← wrap64_val a, h, wrap64_val])
    exact iff_of_false hval fun h => hv h.1
  · have hsign : sint b.v = uint b.v ↔ b.v.getLsbD 63 = false := sint_eq_uint_iff b.v
    have hsign' : uint b.v = sint b.v ↔ b.v.getLsbD 63 = false := eq_comm.trans hsign
    cases ha : a.u <;> cases hb : b.u <;> simp [Reg.val, ha, hb, hv, hsign, hsign']

/-! ### What the comparison commands compute (43_compare.md R201 to R203) -/

section
variable (rd rs1 rs2 : RegNo) (s : State)

/-- CMP (R201). -/
theorem exec_cmp :
    exec (.cmp rd rs1 rs2) s = succeed (s.setX rd ⟨wrap64 (comparison (s.x rs1).val (s.x rs2).val), false⟩) := rfl

/-- CMPU (R202). -/
theorem exec_cmpu :
    exec (.cmpu rd rs1 rs2) s = succeed (s.setX rd ⟨wrap64 (comparison (uint (s.x rs1).v) (uint (s.x rs2).v)), false⟩) := rfl

/-- EQ's formula tests whether the two values are equal (R203, R204). -/
theorem exec_eq :
    exec (.eq rd rs1 rs2) s = succeed (s.setX rd ⟨if (s.x rs1).val = (s.x rs2).val then 1#64 else 0#64, false⟩) := by
  show execEq rd rs1 rs2 s = _
  simp [execEq, Reg.val_eq_iff, imp_iff_not_or, or_assoc]

end

/-- The comparison of a wrapped sum with an addend is "less" exactly when the sum carried out of bit 63 (R202). -/
theorem uint_wrap64_add_lt_iff (v w : Word) : (uint (wrap64 (uint v + uint w)) : Int) < uint w ↔ 2 ^ 64 ≤ uint v + uint w := by
  have hv : uint v < 2 ^ 64 := v.isLt
  have hw : uint w < 2 ^ 64 := w.isLt
  have hsum : (uint (wrap64 (uint v + uint w)) : Int) = (uint v + uint w) % 2 ^ 64 := toNat_wrap64 _
  omega

end Sys2Proof.Machine

namespace Sys2Proof.Proofs
open Sys2Proof.Machine Sys2Proof.Claims

/-- Settles O26: CMP writes the comparison of the two values. -/
theorem cmpComparesValues : Obligations.CmpComparesValues := by
  intro rd rs1 rs2 s val
  have hcmp {v : Word} (h : wrap64 (comparison (s.x rs1).val (s.x rs2).val) = v) :
      WritesReg (.cmp rd rs1 rs2) s rd ⟨v, false⟩ := writesReg_of_exec (h ▸ exec_cmp rd rs1 rs2 s)
  exact ⟨decode_commandWord rfl, fun hlt => hcmp ((wrap64_comparison_eq_minus_one_iff _ _).mpr hlt),
    fun heq => hcmp ((wrap64_comparison_eq_zero_iff _ _).mpr heq),
    fun hgt => hcmp ((wrap64_comparison_eq_one_iff _ _).mpr hgt)⟩

/-- Settles O27: CMPU writes the comparison of the two unsigned values; and a sum modulo 2^64 is below its addend exactly when it
wrapped. -/
theorem cmpuComparesPatternsAndShowsCarry : Obligations.CmpuComparesPatternsAndShowsCarry := by
  intro rd rs1 rs2 s
  have hcmpu {v : Word} (h : wrap64 (comparison (uint (s.x rs1).v) (uint (s.x rs2).v)) = v) :
      WritesReg (.cmpu rd rs1 rs2) s rd ⟨v, false⟩ := writesReg_of_exec (h ▸ exec_cmpu rd rs1 rs2 s)
  refine ⟨decode_commandWord rfl, fun hlt => hcmpu ((wrap64_comparison_eq_minus_one_iff _ _).mpr (Int.ofNat_lt.mpr hlt)),
    fun heq => hcmpu ((wrap64_comparison_eq_zero_iff _ _).mpr (by rw [heq])),
    fun hgt => hcmpu ((wrap64_comparison_eq_one_iff _ _).mpr (Int.ofNat_lt.mpr hgt)), fun d hd => ?carry⟩
  case carry =>
    obtain ⟨t', hexec, -, hx⟩ := writesReg_of_exec
      (exec_cmpu rd d rs2 ((s.setX d ⟨wrap64 (uint (s.x rs1).v + uint (s.x rs2).v), (s.x rs1).u⟩).finish .none))
    refine ⟨_, t', rfl, hexec, ?_⟩
    rw [hx, wrap64_comparison_eq_minus_one_iff, State.x_finish, State.x_finish, State.x_setX, State.x_setX, if_pos rfl,
      if_neg hd.symm]
    exact uint_wrap64_add_lt_iff _ _

/-- Settles O28: EQ's formula is equality of the two values, which EQ tests. -/
theorem eqTestsEquality : Obligations.EqTestsEquality := by
  intro rd rs1 rs2 s e
  have he : e ↔ (s.x rs1).val = (s.x rs2).val := (Reg.val_eq_iff _ _).symm
  exact ⟨decode_commandWord rfl, fun h => writesReg_of_exec (by rw [exec_eq, if_pos (he.mp h)]),
    fun h => writesReg_of_exec (by rw [exec_eq, if_neg (mt he.mpr h)])⟩

/-- Settles O29: CMP writes the order of the values and EQ their equality, so the laws are those of the order of the integers; and
the signed and the unsigned values of patterns with one bit 63 differ by one constant. -/
theorem comparisonLaws : Obligations.ComparisonLaws := by
  intro rd a b c s
  obtain ⟨ab, hab, -, xab⟩ := writesReg_of_exec (exec_cmp rd a b s)
  obtain ⟨ba, hba, -, xba⟩ := writesReg_of_exec (exec_cmp rd b a s)
  obtain ⟨bc, hbc, -, xbc⟩ := writesReg_of_exec (exec_cmp rd b c s)
  obtain ⟨ac, hac, -, xac⟩ := writesReg_of_exec (exec_cmp rd a c s)
  obtain ⟨eq, heq, -, xeq⟩ := writesReg_of_exec (exec_eq rd a b s)
  obtain ⟨un, hun, -, xun⟩ := writesReg_of_exec (exec_cmpu rd a b s)
  have heqval : (eq.x rd).v = 1#64 ↔ (s.x a).val = (s.x b).val := by simp [xeq]
  refine ⟨ab, ba, bc, ac, eq, un, hab, hba, hbc, hac, heq, hun, ?zero, heqval, fun ha hb => ?unsigned,
    fun ha hb hsign => ?signed, ?antisymmetric, ?transitive⟩
  case zero => rw [heqval, xab, wrap64_comparison_eq_zero_iff]
  case unsigned => rw [xab, xun, Reg.val, Reg.val, if_pos ha, if_pos hb]
  case signed =>
    rw [xab, xun, Reg.val, Reg.val, if_neg (by simp [ha]), if_neg (by simp [hb]), sint_eq_uint_sub, sint_eq_uint_sub, hsign,
      comparison_sub_right]
  case antisymmetric => rw [xab, xba, wrap64_comparison_swap]
  case transitive =>
    rw [xab, xbc, xac]
    simp only [wrap64_comparison_eq_minus_one_iff]
    exact lt_trans

end Sys2Proof.Proofs
end

section
/-! PROOFS. The integer texts of a radix as the model parses and writes them, and IPARSE and IFMT as their reading and writing. -/

namespace Sys2Proof.Machine

/-! ### The radix field (44_int_convert.md R224) -/

/-- A radix field selects the radix that the rule names. -/
theorem radixOf_eq_some_iff {imm6 : BitVec 6} {r : Nat} : radixOf imm6 = some r ↔ Claims.Radix imm6 r := by
  have hzero : imm6 = 0#6 ↔ imm6.toNat = 0 := BitVec.toNat_inj.symm
  unfold radixOf Claims.Radix
  rw [hzero]
  split_ifs with h10 hrange
  · rw [Option.some_inj]; omega
  · rw [Option.some_inj]; omega
  · exact iff_of_false id (by omega)

/-- A radix field selects no radix exactly where it is 1 or above 36. -/
theorem radixOf_eq_none_iff {imm6 : BitVec 6} : radixOf imm6 = none ↔ Claims.RadixOutOfRange imm6 := by
  unfold radixOf Claims.RadixOutOfRange
  split_ifs with h10 hrange
  · exact iff_of_false id (by omega)
  · exact iff_of_false id (by omega)
  · exact iff_of_true rfl (by omega)

/-! ### Digits read (44_int_convert.md R222) -/

/-- The bytes with a digit value are "0".."9", "a".."z" and "A".."Z". -/
theorem digitValue_eq_some_iff {b : Byte} {d : Nat} : digitValue b = some d ↔ Claims.DigitByte b d := by
  unfold digitValue Claims.DigitByte
  split_ifs with hdecimal hlower hupper
  · rw [Option.some_inj]; omega
  · rw [Option.some_inj]; omega
  · rw [Option.some_inj]; omega
  · exact iff_of_false id (by omega)

/-- The digits of a radix are the bytes whose digit value is below it. -/
theorem digitOf_eq_some_iff {r : Nat} {b : Byte} {d : Nat} : digitOf r b = some d ↔ Claims.DigitByte b d ∧ d < r := by
  rw [← digitValue_eq_some_iff, digitOf]
  cases digitValue b with
  | none => simp
  | some e => grind

/-- A text has digit values exactly where each byte is a digit of the radix. -/
theorem digitsOf_eq_some_iff {r : Nat} {bs : List Byte} {ds : List Nat} :
    digitsOf r bs = some ds ↔ List.Forall₂ Claims.DigitByte bs ds ∧ ∀ d ∈ ds, d < r := by
  induction bs generalizing ds with
  | nil => cases ds <;> simp [digitsOf]
  | cons b bs ih =>
    cases ds with
    | nil => simp only [digitsOf]; split <;> simp
    | cons d ds =>
      rw [List.forall₂_cons, List.forall_mem_cons, and_and_and_comm, ← digitOf_eq_some_iff, ← ih, digitsOf]
      cases digitOf r b <;> cases digitsOf r bs <;> simp

/-- A text of digits holds no "-", which is no digit. -/
theorem minus_notMem_of_digits {r : Nat} {bs : List Byte} {ds : List Nat} (h : digitsOf r bs = some ds) : chMinus ∉ bs := by
  induction bs generalizing ds with
  | nil => exact List.not_mem_nil
  | cons b bs ih =>
    obtain ⟨hdigits, hlt⟩ := digitsOf_eq_some_iff.mp h
    obtain _ | ⟨hb, hbs⟩ := hdigits
    have hminus : ∀ d, ¬ Claims.DigitByte chMinus d := by simp [← digitValue_eq_some_iff, digitValue, chMinus]
    rintro (_ | ⟨_, hmem⟩)
    · exact hminus _ hb
    · exact ih (digitsOf_eq_some_iff.mpr ⟨hbs, fun d hd => hlt d (List.mem_cons_of_mem _ hd)⟩) hmem

/-! ### Integer texts read (44_int_convert.md R222, R223) -/

/-- The number that a text with these digit values spells: "-" in front negates it. -/
def signedNumeral (r : Nat) (t : List Byte) (ds : List Nat) : Int :=
  if t.head? = some chMinus then -(numeral r ds : Int) else numeral r ds

/-- A text that begins with a digit is its own unsigned part. -/
theorem unsignedPart_of_notMem {t : List Byte} (h : chMinus ∉ t) : unsignedPart t = t ∧ t.head? ≠ some chMinus := by
  cases t with
  | nil => simp [unsignedPart]
  | cons b rest =>
    have hb : b ≠ chMinus := fun hb => h (hb ▸ List.mem_cons_self)
    simp [unsignedPart, hb]

/-- An integer text is a text whose unsigned part is one or more digits of the radix, and its value is theirs, signed. -/
theorem integerText_iff {r : Nat} {t : List Byte} {v : Int} :
    Claims.IntegerText r t v ↔
      ∃ ds, unsignedPart t ≠ [] ∧ digitsOf r (unsignedPart t) = some ds ∧ v = signedNumeral r t ds := by
  constructor
  · rintro ⟨bs, ds, hne, hdigits, hlt, ⟨rfl, rfl⟩ | ⟨rfl, rfl⟩⟩
    · have hds := digitsOf_eq_some_iff.mpr ⟨hdigits, hlt⟩
      obtain ⟨hpart, hhead⟩ := unsignedPart_of_notMem (minus_notMem_of_digits hds)
      refine ⟨ds, ?_⟩
      rw [hpart, signedNumeral, if_neg hhead, numeral_eq_ofDigits]
      exact ⟨hne, hds, rfl⟩
    · refine ⟨ds, hne, digitsOf_eq_some_iff.mpr ⟨hdigits, hlt⟩, ?_⟩
      show _ = signedNumeral r (chMinus :: bs) ds
      rw [signedNumeral, List.head?_cons, if_pos rfl, numeral_eq_ofDigits, Nat.coe_ofDigits]
  · rintro ⟨ds, hne, hds, rfl⟩
    obtain ⟨hdigits, hlt⟩ := digitsOf_eq_some_iff.mp hds
    refine ⟨unsignedPart t, ds, hne, hdigits, hlt, ?_⟩
    rw [signedNumeral, numeral_eq_ofDigits, ← Nat.coe_ofDigits]
    cases t with
    | nil => simp [unsignedPart] at hne
    | cons b rest => by_cases hb : b = chMinus <;> simp [unsignedPart, hb]; rfl

/-- With a radix in range, parsing answers the value of an integer text and of nothing else. The test for an interior "-" refuses
no text that the digits do not refuse. -/
theorem parseInteger_eq_value_iff {imm6 : BitVec 6} {r : Nat} {t : List Byte} {v : Int} (hr : radixOf imm6 = some r) :
    parseInteger imm6 t = .value v ↔ Claims.IntegerText r t v := by
  rw [integerText_iff]
  cases t with
  | nil => simp [parseInteger, unsignedPart]
  | cons b rest =>
    simp only [parseInteger, hr]
    by_cases hinterior : rest.contains chMinus
    · rw [if_pos hinterior]
      refine iff_of_false nofun ?_
      rintro ⟨ds, -, hds, -⟩
      have hmem : chMinus ∈ rest := by simpa using hinterior
      refine minus_notMem_of_digits hds ?_
      rw [unsignedPart]
      split
      · exact hmem
      · exact List.mem_cons_of_mem b hmem
    rw [if_neg hinterior]
    by_cases hempty : unsignedPart (b :: rest) = []
    · simp [hempty]
    rw [if_neg hempty]
    cases hds : digitsOf r (unsignedPart (b :: rest)) with
    | none => simp
    | some ds => simp [hempty, signedNumeral, eq_comm]

/-- With a radix in range, parsing refuses a text with FORMAT alone. -/
theorem parseInteger_fails_of_radix {imm6 : BitVec 6} {r : Nat} {t : List Byte} {c : Cause} (hr : radixOf imm6 = some r)
    (h : parseInteger imm6 t = .fails c) : c = .format := by
  cases t with
  | nil => cases h; rfl
  | cons b rest =>
    simp only [parseInteger, hr] at h
    split at h
    · cases h; rfl
    · split at h
      · cases h; rfl
      · split at h <;> cases h; rfl

/-- Without a radix, parsing refuses every text but the empty one with RADIX. -/
theorem parseInteger_of_no_radix {imm6 : BitVec 6} {t : List Byte} (ht : t ≠ []) (hr : radixOf imm6 = none) :
    parseInteger imm6 t = .fails .radix := by
  obtain ⟨b, rest, rfl⟩ := List.exists_cons_of_ne_nil ht
  simp [parseInteger, hr]

/-! ### Integer texts written (44_int_convert.md R225, R226) -/

/-- The model's digit byte is the rule's. -/
theorem digitChar_eq_outByte (d : Nat) : digitChar d = Claims.outByte d := by
  unfold digitChar Claims.outByte
  split
  · rfl
  · congr 1; omega

/-- The model's digit string is the shortest one. -/
theorem digitText_eq_outDigits {r : Nat} (hr : 2 ≤ r) (n : Nat) : digitText r n = Claims.outDigits r n := by
  rw [digitText, digitValues_eq r n hr, Claims.outDigits, show digitChar = Claims.outByte from funext digitChar_eq_outByte]
  split
  · rfl
  · exact List.map_reverse

/-- The text written for an integer is an integer text of it, in every radix (R227). -/
theorem integerText_spells {r : Nat} (h2 : 2 ≤ r) (h36 : r ≤ 36) (n : Int) : Claims.IntegerText r (integerText r n) n := by
  obtain ⟨hdigits, hlt⟩ := digitsOf_eq_some_iff.mp (digitsOf_digitText r n.natAbs h2 h36)
  have hvalue : Nat.ofDigits r (digitValues r n.natAbs).reverse = n.natAbs := by
    rw [← numeral_eq_ofDigits, numeral_digitValues r n.natAbs h2]
  have hne : digitText r n.natAbs ≠ [] := by simpa [digitText] using digitValues_ne_nil r n.natAbs h2
  refine ⟨_, _, hne, hdigits, hlt, ?_⟩
  rw [← Nat.coe_ofDigits, hvalue, integerText]
  split
  · next hneg => exact .inr ⟨rfl, by omega⟩
  · next hpos => exact .inl ⟨rfl, by omega⟩

/-! ### What IPARSE and IFMT do (44_int_convert.md R223, R225) -/

/-- IPARSE of a text that parses writes the wrapped value under the tag UF. -/
theorem exec_iparse_of_value (rd : RegNo) {imm6 : BitVec 6} (uf : Bool) {s : State} {v : Int}
    (h : parseInteger imm6 s.text = .value v) : exec (.iparse rd imm6 uf) s = succeed (s.setX rd ⟨wrap64 v, uf⟩) := by
  simp only [exec, execIparse, h]

/-- IPARSE of a text that does not parse raises the cause. -/
theorem exec_iparse_of_fails (rd : RegNo) {imm6 : BitVec 6} (uf : Bool) {s : State} {c : Cause}
    (h : parseInteger imm6 s.text = .fails c) : exec (.iparse rd imm6 uf) s = raise c s := by
  simp only [exec, execIparse, h]

/-- IFMT with a radix in range writes the text of the register's value. -/
theorem exec_ifmt_of_radix (rs1 : RegNo) {imm6 : BitVec 6} {r : Nat} (s : State) (h : radixOf imm6 = some r) :
    exec (.ifmt rs1 imm6) s = succeed (s.setText (integerText r (s.x rs1).val)) := by
  simp only [exec, execIfmt, h]

/-- IFMT without a radix raises RADIX. -/
theorem exec_ifmt_of_no_radix (rs1 : RegNo) {imm6 : BitVec 6} (s : State) (h : radixOf imm6 = none) :
    exec (.ifmt rs1 imm6) s = raise .radix s := by
  simp only [exec, execIfmt, h]

/-- IFMT with a radix in range writes that text and nothing else: it fits TB. -/
theorem writesOutput_ifmt (rs1 : RegNo) {imm6 : BitVec 6} {r : Nat} (s : State) (h : radixOf imm6 = some r) :
    Claims.WritesOutput (.ifmt rs1 imm6) s (integerText r (s.x rs1).val) := by
  have hlen := length_integerText_le (radixOf_eq_some h).1 (s.x rs1)
  exact ⟨_, exec_ifmt_of_radix rs1 s h, writesText_setText s _ (by omega)⟩

end Sys2Proof.Machine

namespace Sys2Proof.Proofs
open Sys2Proof.Machine Sys2Proof.Claims

/-- Settles O33: IFMT leaves an integer text of the register's value, so IPARSE reads that value and wraps it to the register's
pattern. -/
theorem integerTextRoundTrip : Obligations.IntegerTextRoundTrip := by
  intro rs1 rd imm6 r s hradix
  have hr := radixOf_eq_some_iff.mpr hradix
  obtain ⟨h2, h36⟩ := radixOf_eq_some hr
  obtain ⟨t, hifmt, htext⟩ := writesOutput_ifmt rs1 s hr
  have hparse : parseInteger imm6 t.text = .value (s.x rs1).val := by
    rw [htext.text_eq, parseInteger_eq_value_iff hr]
    exact integerText_spells h2 h36 _
  obtain ⟨t', hiparse, hframe, hx⟩ := writesReg_of_exec (exec_iparse_of_value rd (s.x rs1).u hparse)
  exact ⟨t, t', hifmt, hiparse, hframe, by rw [hx, wrap64_val]⟩

/-- Settles O31: emptiness is tested before the radix, the radix before the digits, and parsing answers the value of an integer
text and of nothing else. -/
theorem iparseReadsIntegerText : Obligations.IparseReadsIntegerText := by
  intro rd imm6 uf s
  refine ⟨decode_commandWord rfl, fun hempty => ?empty, fun hne hradix => ?radix, fun r hne hradix hnot => ?format,
    fun r v hradix htext => ?value⟩
  case empty =>
    refine raisesCause_of_exec (exec_iparse_of_fails rd uf ?_)
    rw [(State.text_eq_nil s).mpr hempty]
    rfl
  case radix =>
    exact raisesCause_of_exec (exec_iparse_of_fails rd uf
      (parseInteger_of_no_radix (mt (State.text_eq_nil s).mp hne) (radixOf_eq_none_iff.mpr hradix)))
  case format =>
    have hr := radixOf_eq_some_iff.mpr hradix
    cases h : parseInteger imm6 s.text with
    | value v => exact absurd ((parseInteger_eq_value_iff hr).mp h) (hnot v)
    | fails c =>
      obtain rfl := parseInteger_fails_of_radix hr h
      exact raisesCause_of_exec (exec_iparse_of_fails rd uf h)
  case value =>
    have hparse := (parseInteger_eq_value_iff (radixOf_eq_some_iff.mpr hradix)).mpr htext
    exact writesNumber_of_exec (exec_iparse_of_value rd uf hparse) rfl

/-- Settles O32: the model's digits are Mathlib's, most significant first, and its digit bytes the rule's. -/
theorem ifmtWritesShortestText : Obligations.IfmtWritesShortestText := by
  intro rs1 imm6 s a n
  refine ⟨decode_commandWord rfl, fun r hradix => ?text,
    fun hradix => raisesCause_of_exec (exec_ifmt_of_no_radix rs1 s (radixOf_eq_none_iff.mpr hradix))⟩
  case text =>
    have hr := radixOf_eq_some_iff.mpr hradix
    have htext : minusText (decide (n < 0)) ++ outDigits r n.natAbs = integerText r (s.x rs1).val := by
      rw [← digitText_eq_outDigits (radixOf_eq_some hr).1, minusText, integerText]
      simp only [decide_eq_true_eq]
      rfl
    rw [htext]
    exact writesOutput_ifmt rs1 s hr

end Sys2Proof.Proofs
end

section
/-! PROOFS. A binary64 pattern as a signed rational magnitude, its rounding toward zero and clamping, and CVTF as one register
write. -/

namespace Sys2Proof.Machine

/-! ### Rounding toward zero (44_int_convert.md R220) -/

/-- The shifted magnitude is the floor of the scaled one. -/
theorem floorScaled_eq_floor (m : Nat) (e : Int) : (floorScaled m e : Int) = ⌊(m : ℚ) * 2 ^ e⌋ := by
  unfold floorScaled
  split
  · next he =>
    obtain ⟨k, rfl⟩ := Int.eq_ofNat_of_zero_le he
    rw [Int.toNat_natCast, Nat.shiftLeft_eq, zpow_natCast]
    exact_mod_cast (Int.floor_natCast (R := ℚ) (m * 2 ^ k)).symm
  · next he =>
    obtain ⟨k, hk⟩ := Int.eq_ofNat_of_zero_le (show 0 ≤ -e by omega)
    obtain rfl : e = -(k : Int) := by omega
    rw [neg_neg, Int.toNat_natCast, Nat.shiftRight_eq_div_pow, zpow_neg, zpow_natCast, ← div_eq_mul_inv]
    exact_mod_cast (Rat.floor_natCast_div_natCast m (2 ^ k)).symm

/-- A number of a sign and a nonnegative magnitude is rounded toward zero by flooring the magnitude. -/
theorem truncRat_signed (neg : Bool) {x : ℚ} (hx : 0 ≤ x) :
    Claims.truncRat ((if neg then -1 else 1) * x) = if neg then -⌊x⌋ else ⌊x⌋ := by
  unfold Claims.truncRat
  cases neg with
  | false => simp [hx]
  | true =>
    obtain rfl | hpos := hx.eq_or_lt
    · simp
    · simp [not_le.mpr hpos, Int.ceil_neg]

/-! ### The value of a pattern (44_int_convert.md R221) -/

/-- The exponent field is the greatest one as a number exactly when it is as a pattern. -/
theorem exponentField_eq_iff (w : Word) : (w.extractLsb' 52 11).toNat = 0x7FF ↔ w.extractLsb' 52 11 = 0x7FF#11 :=
  BitVec.toNat_inj (y := 0x7FF#11)

/-- The greatest exponent and a nonzero fraction are a NaN. -/
theorem binary64Value_nan {w : Word} (he : w.extractLsb' 52 11 = 0x7FF#11) (hf : w.extractLsb' 0 52 ≠ 0#52) :
    binary64Value w = .nan := by
  have hf' : (w.extractLsb' 0 52).toNat ≠ 0 := mt (BitVec.toNat_inj (y := 0#52)).mp hf
  rw [binary64Value, if_pos ((exponentField_eq_iff w).mpr he), if_pos hf']

/-- The greatest exponent and the fraction 0 are an infinity. -/
theorem binary64Value_infinite {w : Word} (he : w.extractLsb' 52 11 = 0x7FF#11) (hf : w.extractLsb' 0 52 = 0#52) :
    binary64Value w = .infinite (w.getLsbD 63) := by
  simp [binary64Value, he, hf]

/-- Any other pattern stands for a signed magnitude, the rational number of the rule. -/
theorem binary64Value_finite {w : Word} (he : w.extractLsb' 52 11 ≠ 0x7FF#11) :
    ∃ neg m e, binary64Value w = .finite neg m e ∧
      Claims.binary64Rat w = (if neg then -1 else 1) * ((m : ℚ) * 2 ^ e) := by
  have hmax := mt (exponentField_eq_iff w).mp he
  rw [binary64Value, Claims.binary64Rat]
  rw [if_neg hmax]
  split
  · exact ⟨_, _, _, rfl, mul_assoc _ _ _⟩
  · refine ⟨_, _, _, rfl, ?_⟩
    push_cast
    exact mul_assoc _ _ _

/-! ### The conversion (44_int_convert.md R220) -/

/-- The least integer of the result kind. -/
def leastOf (uf : Bool) : Int := if uf then 0 else -2 ^ 63

/-- The greatest integer of the result kind. -/
def greatestOf (uf : Bool) : Int := if uf then 2 ^ 64 - 1 else 2 ^ 63 - 1

/-- An infinity converts to an end of the range. -/
theorem convertBinary64_infinite (uf neg : Bool) :
    convertBinary64 uf (.infinite neg) = wrap64 (if neg then leastOf uf else greatestOf uf) := by
  cases uf <;> cases neg <;> rfl

/-- A value at or below the range is clamped to its least end. -/
theorem clampInt_eq_low {lo hi n : Int} (h : n ≤ lo) : Claims.clampInt lo hi n = lo :=
  max_eq_left ((min_le_right hi n).trans h)

/-- A value at or above the range is clamped to its greatest end. -/
theorem clampInt_eq_high {lo hi n : Int} (hrange : lo ≤ hi) (h : hi ≤ n) : Claims.clampInt lo hi n = hi := by
  rw [Claims.clampInt, min_eq_left h, max_eq_right hrange]

/-- A value inside the range is not changed by clamping. -/
theorem clampInt_eq_self {lo hi n : Int} (hlo : lo ≤ n) (hhi : n ≤ hi) : Claims.clampInt lo hi n = n := by
  rw [Claims.clampInt, min_eq_right hhi, max_eq_right hlo]

/-- A finite value converts to its magnitude's floor with its sign, clamped to the range of the result kind. -/
theorem convertBinary64_finite (uf neg : Bool) (m : Nat) (e : Int) :
    convertBinary64 uf (.finite neg m e) =
      wrap64 (Claims.clampInt (leastOf uf) (greatestOf uf)
        (if neg then -(floorScaled m e : Int) else floorScaled m e)) := by
  unfold convertBinary64
  cases uf <;> cases neg <;> simp only [leastOf, greatestOf, if_true, Bool.false_eq_true, if_false]
  case false.false =>
    split
    · rw [clampInt_eq_high (by omega) (by omega)]; rfl
    · rw [clampInt_eq_self (by omega) (by omega)]
  case false.true =>
    split
    · rw [clampInt_eq_low (by omega)]; rfl
    · rw [clampInt_eq_self (by omega) (by omega)]
  case true.false =>
    split
    · rw [clampInt_eq_high (by omega) (by omega)]; rfl
    · rw [clampInt_eq_self (by omega) (by omega)]
  case true.true => rw [clampInt_eq_low (by omega)]; rfl

/-- CVTF writes the converted number under the tag UF, and does not read the source's tag. -/
theorem exec_cvtf (rd rs1 : RegNo) (uf : Bool) (s : State) :
    exec (.cvtf rd rs1 uf) s = succeed (s.setX rd ⟨convertBinary64 uf (binary64Value (s.x rs1).v), uf⟩) := rfl

end Sys2Proof.Machine

namespace Sys2Proof.Proofs
open Sys2Proof.Machine Sys2Proof.Claims

/-- Settles O30: rounding a signed magnitude toward zero is flooring the magnitude, which is what the model shifts out, and both
clamp to the range of the result kind. -/
theorem cvtfConvertsBinary64 : Obligations.CvtfConvertsBinary64 := by
  intro rd rs1 uf s w lo hi
  have hcvtf {n : Int} (h : convertBinary64 uf (binary64Value w) = wrap64 n) :
      WritesNumber (.cvtf rd rs1 uf) s rd n uf := writesNumber_of_exec (exec_cvtf rd rs1 uf s) h
  refine ⟨decode_commandWord rfl, fun he hf => hcvtf ?nan, fun he hf => hcvtf ?infinite, fun he => hcvtf ?finite⟩
  case nan => rw [binary64Value_nan he hf]; rfl
  case infinite => rw [binary64Value_infinite he hf, convertBinary64_infinite]; rfl
  case finite =>
    obtain ⟨neg, m, e, hvalue, hrat⟩ := binary64Value_finite he
    rw [hvalue, hrat, truncRat_signed neg (by positivity), ← floorScaled_eq_floor]
    exact convertBinary64_finite uf neg m e

end Sys2Proof.Proofs
end

section
/-! PROOFS. The decimal texts that the unit parses are those of the grammar: what each part of the parser takes off a text, and the
whole text. -/

namespace Sys2Proof.Machine

/-! ### Digits (45_decimal_parse.md R254, 00_scope.md R12) -/

/-- The model's digits are the rule's. -/
theorem isDecDigit_iff {b : Byte} : isDecDigit b = true ↔ 0x30 ≤ b.toNat ∧ b.toNat ≤ 0x39 := by simp [isDecDigit]

/-- A digit string is a text all of whose bytes are digits. -/
theorem all_isDecDigit_iff {ds : List Byte} : ds.all isDecDigit = true ↔ Claims.DecDigits ds := by
  simp only [List.all_eq_true, isDecDigit_iff, Claims.DecDigits]

/-- The model's number of a digit string is the rule's. -/
theorem decInt_eq_decNumeral (ds : List Byte) : Claims.decInt ds = decNumeral ds := by
  rw [decNumeral, numeral_eq_ofDigits, ← List.map_reverse]
  rfl

/-- The text ends or goes on with a byte that is no digit. -/
def EndsDigits (t : List Byte) : Prop := ∀ b ∈ t.head?, isDecDigit b = false

/-- Taking digits off a text stops where a byte is no digit. -/
theorem takeWhile_digits {ds rest : List Byte} (hds : Claims.DecDigits ds) (hrest : EndsDigits rest) :
    (ds ++ rest).takeWhile isDecDigit = ds := by
  have hnil : rest.takeWhile isDecDigit = [] := by
    cases rest with
    | nil => rfl
    | cons b rest => exact List.takeWhile_cons_of_neg (by simp [hrest b rfl])
  rw [List.takeWhile_append_of_pos (fun b hb => isDecDigit_iff.mpr (hds b hb)), hnil, List.append_nil]

/-- What is left of a text after its digits were taken off. -/
theorem dropWhile_digits {ds rest : List Byte} (hds : Claims.DecDigits ds) (hrest : EndsDigits rest) :
    (ds ++ rest).dropWhile isDecDigit = rest := by
  have htake := List.takeWhile_append_dropWhile (p := isDecDigit) (l := ds ++ rest)
  rw [takeWhile_digits hds hrest] at htake
  exact List.append_cancel_left htake

/-- The digits taken off a text are digits. -/
theorem decDigits_takeWhile (t : List Byte) : Claims.DecDigits (t.takeWhile isDecDigit) :=
  fun _ hb => isDecDigit_iff.mp (List.mem_takeWhile_imp hb)

/-! ### The sign -/

/-- The text does not begin with a sign. -/
def NoSign (t : List Byte) : Prop := ∀ b ∈ t.head?, b ≠ chMinus ∧ b ≠ chPlus

/-- A text that begins with a digit does not begin with a sign. -/
theorem noSign_of_digits {ds : List Byte} (hne : ds ≠ []) (hds : Claims.DecDigits ds) (rest : List Byte) :
    NoSign (ds ++ rest) := by
  obtain ⟨d, ds, rfl⟩ := List.exists_cons_of_ne_nil hne
  rintro b ⟨⟩
  obtain ⟨hlo, -⟩ := hds d List.mem_cons_self
  constructor <;> rintro rfl <;> exact absurd hlo (by decide)

/-- The sign of the grammar is taken off a text. -/
theorem splitSign_append {neg : Bool} {sg rest : List Byte} (hsg : Claims.SignPart neg sg) (hrest : NoSign rest) :
    splitSign (sg ++ rest) = (neg, rest) := by
  obtain ⟨rfl, rfl | rfl⟩ | ⟨rfl, rfl⟩ := hsg
  · cases rest with
    | nil => rfl
    | cons b rest =>
      obtain ⟨hminus, hplus⟩ := hrest b rfl
      simp [splitSign, hminus, hplus]
  · rfl
  · rfl

/-- What is taken off a text is a sign of the grammar. -/
theorem exists_signPart_append {t r : List Byte} {neg : Bool} (h : splitSign t = (neg, r)) :
    ∃ sg, Claims.SignPart neg sg ∧ t = sg ++ r := by
  cases t with
  | nil => cases h; exact ⟨[], .inl ⟨rfl, .inl rfl⟩, rfl⟩
  | cons b rest =>
    rw [splitSign] at h
    split_ifs at h with hminus hplus <;> cases h
    · exact ⟨[chMinus], .inr ⟨rfl, rfl⟩, by rw [hminus]; rfl⟩
    · exact ⟨[chPlus], .inl ⟨rfl, .inr rfl⟩, by rw [hplus]; rfl⟩
    · exact ⟨[], .inl ⟨rfl, .inl rfl⟩, rfl⟩

/-! ### The fraction -/

/-- The text ends or goes on with "E", as it does after the fraction. -/
def EndsFraction (t : List Byte) : Prop := ∀ b ∈ t.head?, b = chE

/-- "E" is no digit. -/
theorem EndsFraction.endsDigits {t : List Byte} (h : EndsFraction t) : EndsDigits t := by
  intro b hb
  rw [h b hb]
  rfl

/-- Neither "." nor "E" is a digit, so the digits before them end there. -/
theorem endsDigits_fraction {ft fp rest : List Byte} (hft : Claims.FractionPart ft fp) (hrest : EndsFraction rest) :
    EndsDigits (ft ++ rest) := by
  obtain ⟨rfl, rfl⟩ | ⟨-, -, rfl⟩ := hft
  · exact hrest.endsDigits
  · rintro b ⟨⟩; rfl

/-- The fraction of the grammar is taken off a text. -/
theorem splitFraction_append {ft fp rest : List Byte} (hft : Claims.FractionPart ft fp) (hrest : EndsFraction rest) :
    splitFraction (ft ++ rest) = some (fp, rest) := by
  obtain ⟨rfl, rfl⟩ | ⟨hne, hfp, rfl⟩ := hft
  · cases rest with
    | nil => rfl
    | cons b rest =>
      obtain rfl := hrest b rfl
      rfl
  · show splitFraction (chPoint :: (fp ++ rest)) = _
    rw [splitFraction, if_pos rfl, takeWhile_digits hfp hrest.endsDigits, dropWhile_digits hfp hrest.endsDigits, if_neg hne]

/-- What is taken off a text is a fraction of the grammar. -/
theorem exists_fractionPart_append {t fp r : List Byte} (h : splitFraction t = some (fp, r)) :
    ∃ ft, Claims.FractionPart ft fp ∧ t = ft ++ r := by
  cases t with
  | nil => cases h; exact ⟨[], .inl ⟨rfl, rfl⟩, rfl⟩
  | cons b rest =>
    rw [splitFraction] at h
    split_ifs at h with hpoint hne <;> cases h
    · refine ⟨chPoint :: rest.takeWhile isDecDigit, .inr ⟨hne, decDigits_takeWhile rest, rfl⟩, ?_⟩
      rw [List.cons_append, List.takeWhile_append_dropWhile, hpoint]
    · exact ⟨[], .inl ⟨rfl, rfl⟩, rfl⟩

/-! ### The exponent -/

/-- The exponent texts are those of the grammar, with its value. -/
theorem parseExponent_eq_some_iff {t : List Byte} {e : Int} : parseExponent t = some e ↔ Claims.ExponentPart t e := by
  constructor
  · intro h
    cases t with
    | nil => cases h; exact .inl ⟨rfl, rfl⟩
    | cons b rest =>
      obtain ⟨neg, ds, hsplit⟩ : ∃ neg ds, splitSign rest = (neg, ds) := ⟨_, _, rfl⟩
      obtain ⟨sg, hsg, rfl⟩ := exists_signPart_append hsplit
      simp only [parseExponent, hsplit, ← decInt_eq_decNumeral] at h
      generalize hvalue : (if neg then -(Claims.decInt ds : Int) else Claims.decInt ds) = v at h
      split_ifs at h with hE hne hdigits
      obtain rfl := Option.some.inj h
      exact .inr ⟨neg, sg, ds, hsg, hne, all_isDecDigit_iff.mp hdigits, by rw [hE]; rfl, hvalue.symm⟩
  · rintro (⟨rfl, rfl⟩ | ⟨neg, sg, ds, hsg, hne, hds, rfl, rfl⟩)
    · rfl
    · have hsplit : splitSign (sg ++ ds) = (neg, ds) := by
        simpa using splitSign_append hsg (noSign_of_digits hne hds [])
      show parseExponent (chE :: (sg ++ ds)) = _
      rw [parseExponent, if_pos rfl, hsplit, decInt_eq_decNumeral]
      simp only [if_neg hne, if_pos (all_isDecDigit_iff.mpr hds)]

/-- An exponent text is empty or begins with "E". -/
theorem endsFraction_of_exponentPart {t : List Byte} {e : Int} (h : Claims.ExponentPart t e) : EndsFraction t := by
  obtain ⟨rfl, -⟩ | ⟨_, _, _, -, -, -, rfl, -⟩ := h
  · nofun
  · rintro b ⟨⟩; rfl

/-! ### The whole text -/

/-- The text `t` is a sign, the digits `ip`, a fraction with the digits `fp`, and an exponent text of the value `e`. -/
def NumericParts (t : List Byte) (neg : Bool) (ip fp : List Byte) (e : Int) : Prop :=
  ∃ sg ft et, Claims.SignPart neg sg ∧ ip ≠ [] ∧ Claims.DecDigits ip ∧ Claims.FractionPart ft fp ∧
    Claims.ExponentPart et e ∧ t = sg ++ ip ++ ft ++ et

/-- A numeric text has the value of its parts. -/
theorem numericText_iff_parts {t : List Byte} {neg : Bool} {c : Nat} {q : Int} :
    Claims.NumericText t neg c q ↔
      ∃ ip fp e, NumericParts t neg ip fp e ∧ c = decNumeral (ip ++ fp) ∧ q = e - fp.length := by
  simp only [← decInt_eq_decNumeral]
  constructor
  · rintro ⟨sg, ip, ft, fp, et, e, hsg, hne, hip, hft, het, ht, hc, hq⟩
    exact ⟨ip, fp, e, ⟨sg, ft, et, hsg, hne, hip, hft, het, ht⟩, hc, hq⟩
  · rintro ⟨ip, fp, e, ⟨sg, ft, et, hsg, hne, hip, hft, het, ht⟩, hc, hq⟩
    exact ⟨sg, ip, ft, fp, et, e, hsg, hne, hip, hft, het, ht, hc, hq⟩

/-- The digits of the parts are digits. -/
theorem NumericParts.decDigits {t ip fp : List Byte} {neg : Bool} {e : Int} (h : NumericParts t neg ip fp e) :
    Claims.DecDigits (ip ++ fp) := by
  obtain ⟨_, _, _, -, -, hip, hft, -, -⟩ := h
  have hfp : Claims.DecDigits fp := by
    obtain ⟨-, rfl⟩ | ⟨-, hfp, -⟩ := hft
    · nofun
    · exact hfp
  exact List.forall_mem_append.mpr ⟨hip, hfp⟩

/-- Of a text with these parts nothing but the sign is no digit before the first digit, so it is no special form. -/
theorem parseDecimalText_of_parts {t ip fp : List Byte} {neg : Bool} {e : Int} (h : NumericParts t neg ip fp e) :
    parseDecimalText t = some (.numeric neg ip fp e) := by
  obtain ⟨sg, ft, et, hsg, hne, hip, hft, het, rfl⟩ := h
  have hends := endsFraction_of_exponentPart het
  have hsplit : splitSign (sg ++ ip ++ ft ++ et) = (neg, ip ++ (ft ++ et)) := by
    simpa using splitSign_append hsg (noSign_of_digits hne hip (ft ++ et))
  have htake := takeWhile_digits hip (endsDigits_fraction hft hends)
  have hinfinity : ip ++ (ft ++ et) ≠ infinityText := fun h => hne (by rw [← htake, h]; rfl)
  have hnan : ip ++ (ft ++ et) ≠ nanText := fun h => hne (by rw [← htake, h]; rfl)
  simp only [parseDecimalText, hsplit, if_neg hinfinity, if_neg hnan, htake, if_neg hne,
    dropWhile_digits hip (endsDigits_fraction hft hends), splitFraction_append hft hends, parseExponent_eq_some_iff.mpr het]

/-- Neither special form begins with a sign. -/
theorem noSign_special : NoSign infinityText ∧ NoSign nanText := by
  constructor <;> rintro b ⟨⟩ <;> decide

/-- The texts of the Infinities. -/
theorem parseDecimalText_of_infinityForm {t : List Byte} {neg : Bool} (h : Claims.InfinityForm t neg) :
    parseDecimalText t = some (.infinity neg) := by
  obtain ⟨sg, hsg, rfl⟩ := h
  have hsplit : splitSign (sg ++ infinityText) = (neg, infinityText) := splitSign_append hsg noSign_special.1
  show parseDecimalText (sg ++ infinityText) = _
  simp only [parseDecimalText, hsplit, if_true]

/-- The texts of the NaN. -/
theorem parseDecimalText_of_nanForm {t : List Byte} (h : Claims.NanForm t) : parseDecimalText t = some .nan := by
  obtain ⟨neg, sg, hsg, rfl⟩ := h
  have hsplit : splitSign (sg ++ nanText) = (neg, nanText) := splitSign_append hsg noSign_special.2
  have hne : nanText ≠ infinityText := by decide
  show parseDecimalText (sg ++ nanText) = _
  simp only [parseDecimalText, hsplit, if_neg hne, if_true]

/-- What a parsed text says of the text it was parsed from. -/
def SpelledBy (t : List Byte) : DecimalText → Prop
  | .infinity neg => Claims.InfinityForm t neg
  | .nan => Claims.NanForm t
  | .numeric neg ip fp e => NumericParts t neg ip fp e

/-- Every text that parses is a text of the grammar. -/
theorem spelledBy_of_parseDecimalText {t : List Byte} {p : DecimalText} (h : parseDecimalText t = some p) : SpelledBy t p := by
  obtain ⟨neg, r, hsplit⟩ : ∃ neg r, splitSign t = (neg, r) := ⟨_, _, rfl⟩
  obtain ⟨sg, hsg, rfl⟩ := exists_signPart_append hsplit
  simp only [parseDecimalText, hsplit] at h
  split_ifs at h with hinfinity hnan hne
  · cases h
    exact ⟨sg, hsg, by rw [hinfinity]; rfl⟩
  · cases h
    exact ⟨neg, sg, hsg, by rw [hnan]; rfl⟩
  · split at h
    · cases h
    · next fp et hfraction =>
      split at h
      · cases h
      · next e hexponent =>
        cases h
        obtain ⟨ft, hft, hrest⟩ := exists_fractionPart_append hfraction
        refine ⟨sg, ft, et, hsg, hne, decDigits_takeWhile r, hft, parseExponent_eq_some_iff.mp hexponent, ?_⟩
        rw [List.append_assoc, List.append_assoc, ← hrest, List.takeWhile_append_dropWhile]

end Sys2Proof.Machine
end

section
/-! PROOFS. A numeric text as the digits of its coefficient at its exponent, the patterns the parser writes as numbers, and the
numeric rules of DPARSE and DPARSER as arithmetic on coefficient and exponent. -/

namespace Sys2Proof.Machine
open Sys2Proof.Claims (digitCount rhe)

variable {rule : Bool → Digits → Parsed Quad}

/-! ### The digits of a coefficient (45_decimal_parse.md R256) -/

/-- The digits of the coefficient `c`, none for 0, at the exponent `q`. -/
def digitsAt (c : Nat) (q : Int) : Digits := ⟨(Nat.digits 10 c).reverse, q⟩

/-- The digits of a coefficient spell it. -/
theorem numeral_reverse_digits (c : Nat) : numeral 10 (Nat.digits 10 c).reverse = c := by
  rw [numeral_eq_ofDigits, List.reverse_reverse, Nat.ofDigits_digits]

/-- A digit string without its leading zeros is that of the number it spells. -/
theorem dropWhile_zero_eq_digits {ds : List Nat} (h : ∀ d ∈ ds, d < 10) :
    ds.dropWhile (· == 0) = (Nat.digits 10 (numeral 10 ds)).reverse := by
  have hdigits : ∀ d ∈ (ds.dropWhile (· == 0)).reverse, d < 10 :=
    fun d hd => h d ((List.dropWhile_sublist _).mem (List.mem_reverse.mp hd))
  have hlead : ∀ hne : (ds.dropWhile (· == 0)).reverse ≠ [], (ds.dropWhile (· == 0)).reverse.getLast hne ≠ 0 := by
    intro hne
    rw [List.getLast_reverse]
    simpa using List.head_dropWhile_not (· == 0) (l := ds) (by simpa using hne)
  rw [← numeral_dropWhile_zero, numeral_eq_ofDigits, Nat.digits_ofDigits 10 (by decide) _ hdigits hlead, List.reverse_reverse]

/-- The significant digits of a text are those of its coefficient, at its exponent. -/
theorem significant_eq_digitsAt {ip fp : List Byte} (h : Claims.DecDigits (ip ++ fp)) (e : Int) :
    significant ip fp e = digitsAt (decNumeral (ip ++ fp)) (e - fp.length) := by
  have hdigits : ∀ d ∈ (ip ++ fp).map decDigit, d < 10 := by
    simp only [List.forall_mem_map, decDigit]
    intro b hb
    have hdigit := h b hb
    omega
  rw [significant, dropWhile_zero_eq_digits hdigits]
  rfl

/-- The exponent of the digits. -/
@[simp] theorem digitsAt_q (c : Nat) (q : Int) : (digitsAt c q).q = q := rfl

/-- Least significant first the digits are Mathlib's. -/
@[simp] theorem reverse_digitsAt_g (c : Nat) (q : Int) : (digitsAt c q).g.reverse = Nat.digits 10 c := List.reverse_reverse _

/-- A nonzero coefficient has digits. -/
theorem digitsAt_g_ne_nil {c : Nat} (hc : 0 < c) (q : Int) : (digitsAt c q).g ≠ [] := by
  simpa [digitsAt, Nat.digits_eq_nil_iff_eq_zero] using hc.ne'

/-- The rule counts the digits of a nonzero coefficient. -/
theorem digitCount_eq {c : Nat} (hc : 0 < c) : digitCount c = (Nat.digits 10 c).length := by
  simp [digitCount, Claims.outDigits, hc.ne']

/-- As many digits as the rule counts. -/
theorem length_digitsAt {c : Nat} (hc : 0 < c) (q : Int) : (digitsAt c q).g.length = digitCount c := by
  rw [digitCount_eq hc, digitsAt, List.length_reverse]

/-- A coefficient has at most `k` digits exactly when it is below 10^k. -/
theorem digitCount_le_iff {c : Nat} (hc : 0 < c) (k : Nat) : digitCount c ≤ k ↔ c < 10 ^ k := by
  rw [digitCount_eq hc, Nat.digits_length_le_iff (by decide)]

/-- A coefficient is below the power of ten that its number of digits gives. -/
theorem lt_pow_digitCount {c : Nat} (hc : 0 < c) : c < 10 ^ digitCount c := (digitCount_le_iff hc _).mp le_rfl

/-- A factor of a power of ten adds its zeros to the digits. -/
theorem digitCount_pow_mul {c : Nat} (hc : 0 < c) (j : Nat) : digitCount (10 ^ j * c) = j + digitCount c := by
  rw [digitCount_eq (by positivity), digitCount_eq hc, Nat.digits_base_pow_mul (by decide) hc, List.length_append,
    List.length_replicate]

/-- Where all but 34 digits go, a coefficient below 10^34 is left. -/
theorem div_pow_lt {c m : Nat} (hc : 0 < c) (hm : digitCount c ≤ m + 34) : c / 10 ^ m < 10 ^ 34 := by
  refine Nat.div_lt_of_lt_mul ?_
  rw [← pow_add]
  exact (digitCount_le_iff hc _).mp hm

/-! ### What a text parses to (45_decimal_parse.md R254, R255) -/

/-- A text of 7000 bytes or more is refused. -/
theorem parseDecimal_of_long {t : List Byte} (ht : 7000 ≤ t.length) :
    parseDecimal rule t = .fails .format := if_pos ht

/-- A shorter text outside the grammar is refused as well. -/
theorem parseDecimal_of_none {t : List Byte} (h : parseDecimalText t = none) :
    parseDecimal rule t = .fails .format := by
  simp only [parseDecimal, h, ite_self]

/-- The text of an Infinity fits, and gives its pattern. -/
theorem parseDecimal_of_infinityForm {t : List Byte} {neg : Bool}
    (h : Claims.InfinityForm t neg) : parseDecimal rule t = .value (infinityPattern neg) := by
  have hlen : t.length < 7000 := by
    obtain ⟨sg, ⟨-, rfl | rfl⟩ | ⟨-, rfl⟩, rfl⟩ := h <;> decide
  rw [parseDecimal, if_neg (by simpa [decTextLimit] using hlen), parseDecimalText_of_infinityForm h]

/-- The text of the NaN fits, and gives its pattern. -/
theorem parseDecimal_of_nanForm {t : List Byte} (h : Claims.NanForm t) :
    parseDecimal rule t = .value nanPattern := by
  have hlen : t.length < 7000 := by
    obtain ⟨neg, sg, ⟨-, rfl | rfl⟩ | ⟨-, rfl⟩, rfl⟩ := h <;> decide
  rw [parseDecimal, if_neg (by simpa [decTextLimit] using hlen), parseDecimalText_of_nanForm h]

/-- A numeric text gives what the command's rule makes of its coefficient and exponent. -/
theorem parseDecimal_of_numericText {t : List Byte} {neg : Bool} {c : Nat} {q : Int}
    (ht : t.length < 7000) (h : Claims.NumericText t neg c q) : parseDecimal rule t = rule neg (digitsAt c q) := by
  obtain ⟨ip, fp, e, hparts, rfl, rfl⟩ := numericText_iff_parts.mp h
  rw [parseDecimal, if_neg (by simpa [decTextLimit] using ht), parseDecimalText_of_parts hparts]
  exact congrArg (rule neg) (significant_eq_digitsAt hparts.decDigits e)

/-- A text that parses is short and of one of the three forms. -/
theorem form_of_parseDecimal_value {t : List Byte} {p : Quad}
    (h : parseDecimal rule t = .value p) :
    t.length < 7000 ∧
      ((∃ neg, Claims.InfinityForm t neg) ∨ Claims.NanForm t ∨ ∃ neg c q, Claims.NumericText t neg c q) := by
  refine ⟨?_, ?_⟩
  · by_contra hlong
    rw [parseDecimal_of_long (by omega)] at h
    cases h
  · cases hparse : parseDecimalText t with
    | none => rw [parseDecimal_of_none hparse] at h; cases h
    | some d =>
      have hspelled := spelledBy_of_parseDecimalText hparse
      cases d with
      | infinity neg => exact .inl ⟨neg, hspelled⟩
      | nan => exact .inr (.inl hspelled)
      | numeric neg ip fp e => exact .inr (.inr ⟨neg, _, _, numericText_iff_parts.mpr ⟨ip, fp, e, hspelled, rfl, rfl⟩⟩)

/-! ### The patterns as numbers (45_decimal_parse.md R252, R262) -/

/-- A coefficient of at most 34 digits fits the 113 bits of its field. -/
theorem ten_pow_34_lt_two_pow_113 : 10 ^ 34 < 2 ^ 113 := by decide

/-- The pattern of layout 1 as a number, for an exponent in range. -/
theorem packDecimal_eq_ofNat (neg : Bool) {q : Int} {c : Nat} (hlo : -6176 ≤ q) (hhi : q ≤ 6111) (hc : c ≤ 10 ^ 34) :
    packDecimal neg q c = BitVec.ofNat 128 (Claims.finitePattern neg q c) := by
  have hneg : (BitVec.ofBool neg).toNat = neg.toNat := BitVec.toNat_ofBool neg
  have hbit := neg.toNat_lt
  have hfit := ten_pow_34_lt_two_pow_113
  apply BitVec.eq_of_toNat_eq
  simp only [packDecimal, Claims.finitePattern, decBias, Claims.toNat_append_eq_add, BitVec.toNat_ofNat, BitVec.toNat_ofInt,
    hneg]
  omega

/-- The pattern of an Infinity as a number. -/
theorem infinityPattern_eq_ofNat (neg : Bool) : infinityPattern neg = BitVec.ofNat 128 (Claims.infinityNumber neg) := by
  cases neg <;> rfl

/-- The pattern of the NaN as a number. -/
theorem nanPattern_eq_ofNat : nanPattern = BitVec.ofNat 128 Claims.nanNumber := rfl

/-! ### What the two numeric rules share (45_decimal_parse.md R257 to R259) -/

/-- The rule is that of DPARSE or that of DPARSER. -/
def IsNumericRule (rule : Bool → Digits → Parsed Quad) : Prop := rule = strictNumeric ∨ rule = roundingNumeric

/-- A zero keeps its sign, and its exponent is clamped (R257). -/
theorem IsNumericRule.zero (hrule : IsNumericRule rule) (neg : Bool) (q : Int) :
    rule neg (digitsAt 0 q) = .value (packDecimal neg (clampExp q) 0) := by
  obtain rfl | rfl := hrule <;> rfl

/-- An exponent in range is not changed (R258). -/
theorem absorbExcess_of_le (c : Nat) {q : Int} (hq : q ≤ 6111) : absorbExcess (digitsAt c q) = .value (digitsAt c q) :=
  if_neg (not_lt.mpr hq)

/-- An exponent above the range is moved into appended zeros, or raises OVERFLOW (R258). -/
theorem absorbExcess_of_gt {c : Nat} {q : Int} (hc : 0 < c) (hq : 6111 < q) :
    absorbExcess (digitsAt c q) =
      if 34 < min (digitCount c) 34 + (q - 6111).toNat then .fails .overflow
      else .value (digitsAt (10 ^ (q - 6111).toNat * c) 6111) := by
  have hzeros (k : Nat) : (digitsAt c q).g ++ List.replicate k 0 = (Nat.digits 10 (10 ^ k * c)).reverse := by
    rw [Nat.digits_base_pow_mul (by decide) hc, List.reverse_append, List.reverse_replicate, digitsAt]
  rw [absorbExcess, if_pos (show decMaxExp < (digitsAt c q).q from hq)]
  dsimp only
  rw [hzeros, length_digitsAt hc]
  rfl

/-- How many digits must go (R259). -/
theorem cast_dropCount {c : Nat} (hc : 0 < c) (q : Int) :
    ((dropCount (digitsAt c q) : Nat) : Int) = max 0 (max ((digitCount c : Int) - 34) (-6176 - q)) := by
  rw [dropCount, length_digitsAt hc]
  show ((max (digitCount c - 34) (-6176 - q).toNat : Nat) : Int) = _
  omega

/-- A coefficient of at most 34 digits at an exponent not below the least one loses no digit. -/
theorem dropCount_eq_zero {c : Nat} {q : Int} (hc : 0 < c) (hfit : c < 10 ^ 34) (hq : -6176 ≤ q) :
    dropCount (digitsAt c q) = 0 := by
  have hcount := (digitCount_le_iff hc 34).mpr hfit
  have hdrop := cast_dropCount hc q
  omega

/-- Where the exponent cannot be absorbed, both rules fail (R258). -/
theorem IsNumericRule.of_absorbExcess_fails (hrule : IsNumericRule rule) (neg : Bool) {c : Nat} {q : Int} {k : Cause}
    (hc : 0 < c) (h : absorbExcess (digitsAt c q) = .fails k) : rule neg (digitsAt c q) = .fails k := by
  obtain rfl | rfl := hrule
  · rw [strictNumeric, if_neg (digitsAt_g_ne_nil hc q), h]
  · rw [roundingNumeric, if_neg (digitsAt_g_ne_nil hc q), h]

/-- Nothing to remove. -/
theorem removeZeros_zero (rev : List Nat) (q : Int) : removeZeros rev 0 q = .value (rev, q) := by
  cases rev <;> rfl

/-- Where a coefficient of at most 34 digits is left at an exponent in range, both rules write it. -/
theorem IsNumericRule.of_absorbExcess_value (hrule : IsNumericRule rule) (neg : Bool) {c c' : Nat} {q q' : Int}
    (hc : 0 < c) (h : absorbExcess (digitsAt c q) = .value (digitsAt c' q')) (hc' : 0 < c') (hfit : c' < 10 ^ 34)
    (hq' : -6176 ≤ q') : rule neg (digitsAt c q) = .value (packDecimal neg q' c') := by
  have hdrop := dropCount_eq_zero hc' hfit hq'
  have hnumeral : numeral 10 (digitsAt c' q').g = c' := numeral_reverse_digits c'
  obtain rfl | rfl := hrule
  · simp only [strictNumeric, if_neg (digitsAt_g_ne_nil hc q), h, hdrop, removeZeros_zero, digitsAt_q, List.reverse_reverse,
      hnumeral]
  · simp only [roundingNumeric, if_neg (digitsAt_g_ne_nil hc q), h, hdrop, if_true, digitsAt_q, hnumeral]

/-- A number that fits is written as it is (R259). -/
theorem IsNumericRule.fits (hrule : IsNumericRule rule) (neg : Bool) {c : Nat} {q : Int}
    (hc : 0 < c) (hfit : c < 10 ^ 34) (hlo : -6176 ≤ q) (hhi : q ≤ 6111) :
    rule neg (digitsAt c q) = .value (packDecimal neg q c) :=
  hrule.of_absorbExcess_value neg hc (absorbExcess_of_le c hhi) hc hfit hlo

/-- A coefficient with spare digit positions for the excess of the exponent is below 10^34 with the zeros appended. -/
theorem pow_mul_lt_of_spare {c k : Nat} (hc : 0 < c) (hk : 0 < k) (h : min (digitCount c) 34 + k ≤ 34) :
    10 ^ k * c < 10 ^ 34 := by
  rw [← digitCount_le_iff (by positivity), digitCount_pow_mul hc]
  omega

/-- An exponent that is absorbed (R258). -/
theorem IsNumericRule.absorbs (hrule : IsNumericRule rule) (neg : Bool) {c : Nat} {q : Int}
    (hc : 0 < c) (hq : 6111 < q) (h : min (digitCount c) 34 + (q - 6111).toNat ≤ 34) :
    rule neg (digitsAt c q) = .value (packDecimal neg 6111 (10 ^ (q - 6111).toNat * c)) := by
  have habsorb := absorbExcess_of_gt hc hq
  rw [if_neg (not_lt.mpr h)] at habsorb
  exact hrule.of_absorbExcess_value neg hc habsorb (by positivity) (pow_mul_lt_of_spare hc (by omega) h) (by decide)

/-- An exponent that is too great to be absorbed (R258). -/
theorem IsNumericRule.overflows (hrule : IsNumericRule rule) (neg : Bool) {c : Nat} {q : Int}
    (hc : 0 < c) (hq : 6111 < q) (h : 34 < min (digitCount c) 34 + (q - 6111).toNat) :
    rule neg (digitsAt c q) = .fails .overflow :=
  hrule.of_absorbExcess_fails neg hc (by rw [absorbExcess_of_gt hc hq, if_pos h])

/-! ### The removal of zeros (45_decimal_parse.md R260) -/

/-- A last digit 0 that is not the only one is removed, unless the exponent is the greatest one. -/
theorem removeZeros_ten_mul {c : Nat} (hc : 0 < c) (m : Nat) (q : Int) :
    removeZeros (Nat.digits 10 (10 * c)) (m + 1) q =
      if 6111 ≤ q then .fails .overflow else removeZeros (Nat.digits 10 c) m (q + 1) := by
  have hdigits : Nat.digits 10 (10 * c) = 0 :: Nat.digits 10 c := by
    simpa using Nat.digits_base_pow_mul (b := 10) (k := 1) (by decide) hc
  have hne : Nat.digits 10 c ≠ [] := Nat.digits_ne_nil_iff_ne_zero.mpr hc.ne'
  rw [hdigits, removeZeros, if_neg (Nat.succ_ne_zero m), if_neg hne, if_neg (not_not.mpr rfl)]
  rfl

/-- A last digit that is not 0 is not removed: it is the only one, or precision would be lost. -/
theorem removeZeros_of_last_ne_zero {c : Nat} (hc : c % 10 ≠ 0) (m : Nat) (q : Int) :
    removeZeros (Nat.digits 10 c) (m + 1) q = .fails (if c < 10 then .underflow else .inexact) := by
  have honly : Nat.digits 10 (c / 10) = [] ↔ c < 10 := by rw [Nat.digits_eq_nil_iff_eq_zero]; omega
  rw [Nat.digits_def' (by decide) (by omega), removeZeros, if_neg (Nat.succ_ne_zero m)]
  simp only [honly, ne_eq, hc, not_false_eq_true, if_true]
  split_ifs <;> rfl

/-- Zeros are removed as long as the exponent stays in range. -/
theorem removeZeros_pow_mul {c : Nat} (hc : 0 < c) (j m : Nat) {q : Int} (hq : q + j ≤ 6111) :
    removeZeros (Nat.digits 10 (10 ^ j * c)) (m + j) q = removeZeros (Nat.digits 10 c) m (q + j) := by
  induction j generalizing q with
  | zero => simp
  | succ j ih =>
    rw [pow_succ', mul_assoc, ← Nat.add_assoc, removeZeros_ten_mul (by positivity), if_neg (by omega), ih (by omega)]
    congr 1
    omega

/-- Enough zeros and exponents: all the digits that had to go are removed. -/
theorem removeZeros_of_enough {c z m : Nat} {q : Int} (hc : 0 < c) (hz : m ≤ z) (hq : q + m ≤ 6111) :
    removeZeros (Nat.digits 10 (10 ^ z * c)) m q = .value (Nat.digits 10 (10 ^ z * c / 10 ^ m), q + m) := by
  obtain ⟨k, rfl⟩ := Nat.exists_eq_add_of_le hz
  have hremove := removeZeros_pow_mul (c := 10 ^ k * c) (by positivity) m 0 hq
  rw [Nat.zero_add, removeZeros_zero] at hremove
  rw [pow_add, mul_assoc, Nat.mul_div_cancel_left _ (by positivity), hremove]

/-- Too few zeros: the first removal after them fails. -/
theorem removeZeros_of_too_few {c z m : Nat} {q : Int} (hc : c % 10 ≠ 0) (hz : z < m) (hq : q + z ≤ 6111) :
    removeZeros (Nat.digits 10 (10 ^ z * c)) m q = .fails (if c < 10 then .underflow else .inexact) := by
  obtain ⟨k, rfl⟩ : ∃ k, m = k + 1 + z := ⟨m - z - 1, by omega⟩
  rw [removeZeros_pow_mul (by omega) z (k + 1) hq, removeZeros_of_last_ne_zero hc]

/-- Too few exponents: the removal at the greatest one fails. -/
theorem removeZeros_of_overflow {c z m : Nat} {q : Int} (hc : 0 < c) (hle : q ≤ 6111) (hq : 6111 < q + min z m) :
    removeZeros (Nat.digits 10 (10 ^ z * c)) m q = .fails .overflow := by
  obtain ⟨j, hj⟩ : ∃ j : Nat, q + j = 6111 := ⟨(6111 - q).toNat, by omega⟩
  obtain ⟨k, rfl⟩ : ∃ k, z = j + (1 + k) := ⟨z - j - 1, by omega⟩
  obtain ⟨l, rfl⟩ : ∃ l, m = l + 1 + j := ⟨m - j - 1, by omega⟩
  rw [pow_add, pow_add, pow_one, mul_assoc, mul_assoc, removeZeros_pow_mul (by positivity) j (l + 1) hj.le,
    removeZeros_ten_mul (by positivity), if_pos hj.ge]

/-- Where removal succeeds, every digit removed was a 0, and the exponent stayed in range. -/
theorem removeZeros_digits_value {c m : Nat} {q q' : Int} {rev : List Nat} (hc : 0 < c) (hq : q ≤ 6111)
    (h : removeZeros (Nat.digits 10 c) m q = .value (rev, q')) :
    ∃ c', c = 10 ^ m * c' ∧ rev = Nat.digits 10 c' ∧ q' = q + m ∧ q' ≤ 6111 := by
  induction m generalizing c q with
  | zero =>
    rw [removeZeros_zero] at h
    cases h
    exact ⟨c, by simp, rfl, by simp, hq⟩
  | succ m ih =>
    by_cases hlast : c % 10 = 0
    · obtain ⟨d, rfl⟩ := Nat.dvd_of_mod_eq_zero hlast
      rw [removeZeros_ten_mul (by omega)] at h
      split_ifs at h with hmax
      obtain ⟨c', rfl, hrev, hq', hle⟩ := ih (by omega) (by omega) h
      exact ⟨c', by rw [pow_succ', mul_assoc], hrev, by omega, hle⟩
    · rw [removeZeros_of_last_ne_zero hlast] at h
      cases h

/-! ### The rule of DPARSE (45_decimal_parse.md R260) -/

/-- DPARSE's rule writes the digits that are left after the removal. -/
theorem strictNumeric_of_removeZeros_value (neg : Bool) {c c' : Nat} {q q' : Int} (hc : 0 < c) (hq : q ≤ 6111)
    (h : removeZeros (Nat.digits 10 c) (dropCount (digitsAt c q)) q = .value (Nat.digits 10 c', q')) :
    strictNumeric neg (digitsAt c q) = .value (packDecimal neg q' c') := by
  simp only [strictNumeric, if_neg (digitsAt_g_ne_nil hc q), absorbExcess_of_le c hq, reverse_digitsAt_g, digitsAt_q, h,
    numeral_reverse_digits]

/-- DPARSE's rule fails as the removal does. -/
theorem strictNumeric_of_removeZeros_fails (neg : Bool) {c : Nat} {q : Int} {k : Cause} (hc : 0 < c) (hq : q ≤ 6111)
    (h : removeZeros (Nat.digits 10 c) (dropCount (digitsAt c q)) q = .fails k) :
    strictNumeric neg (digitsAt c q) = .fails k := by
  simp only [strictNumeric, if_neg (digitsAt_g_ne_nil hc q), absorbExcess_of_le c hq, reverse_digitsAt_g, digitsAt_q, h]

/-- Where DPARSE's rule succeeds at an exponent not above the range, the digits that had to go were zeros. -/
theorem strictNumeric_value {neg : Bool} {c : Nat} {q : Int} {p : Quad} (hc : 0 < c) (hq : q ≤ 6111)
    (h : strictNumeric neg (digitsAt c q) = .value p) :
    ∃ c', c = 10 ^ dropCount (digitsAt c q) * c' ∧ q + dropCount (digitsAt c q) ≤ 6111 ∧
      p = packDecimal neg (q + dropCount (digitsAt c q)) c' := by
  cases hremove : removeZeros (Nat.digits 10 c) (dropCount (digitsAt c q)) q with
  | fails k =>
    rw [strictNumeric_of_removeZeros_fails neg hc hq hremove] at h
    cases h
  | value r =>
    obtain ⟨rev, q'⟩ := r
    obtain ⟨c', hc', rfl, rfl, hle⟩ := removeZeros_digits_value hc hq hremove
    rw [strictNumeric_of_removeZeros_value neg hc hq hremove] at h
    cases h
    exact ⟨c', hc', hle, rfl⟩

/-! ### The rule of DPARSER (45_decimal_parse.md R261) -/

/-- The model's rounding is the rule's (00_scope.md R12). -/
theorem roundHalfEven_eq_rhe (c : Nat) {m : Nat} (hm : 0 < m) : roundHalfEven c m = rhe c m := by
  obtain ⟨k, rfl⟩ : ∃ k, m = k + 1 := ⟨m - 1, by omega⟩
  have hpow : 10 ^ (k + 1) = 10 * 10 ^ k := pow_succ' 10 k
  rw [roundHalfEven, rhe, if_neg hm.ne']
  dsimp only
  rw [← Nat.mod_eq_sub_div_mul, Nat.add_sub_cancel]
  refine if_congr ?_ rfl rfl
  omega

/-- The rounded digits of a coefficient. -/
theorem roundDigits_digitsAt (c : Nat) (q : Int) {m : Nat} (hm : 0 < m) : roundDigits (digitsAt c q).g m = rhe c m := by
  have hdigits : ∀ d ∈ (digitsAt c q).g, d < 10 := fun d hd => Nat.digits_lt_base (by decide) (List.mem_reverse.mp hd)
  rw [roundDigits_eq _ _ hdigits, roundHalfEven_eq_rhe _ hm, digitsAt, numeral_reverse_digits]

/-- DPARSER's rule, where digits must go at an exponent not above the range. -/
theorem roundingNumeric_eq (neg : Bool) {c m : Nat} {q : Int} (hc : 0 < c) (hq : q ≤ 6111) (hm : 0 < m)
    (hdrop : dropCount (digitsAt c q) = m) :
    roundingNumeric neg (digitsAt c q) =
      if 6111 < q + m then .fails .overflow
      else if m < digitCount c ∧ rhe c m = 10 ^ (digitCount c - m) then
        if q + m < 6111 then .value (packDecimal neg (q + m + 1) (10 ^ (digitCount c - m - 1)))
        else .value (infinityPattern neg)
      else .value (packDecimal neg (q + m) (rhe c m)) := by
  have hcarry : 1 ≤ digitCount c - m ↔ m < digitCount c := by omega
  simp only [roundingNumeric, if_neg (digitsAt_g_ne_nil hc q), absorbExcess_of_le c hq, hdrop, if_neg hm.ne',
    length_digitsAt hc, roundDigits_digitsAt c q hm, hcarry]
  rfl

/-- Rounding leaves at most 10^34 where all but 34 digits go. -/
theorem rhe_le {c m : Nat} (hc : 0 < c) (hm : digitCount c ≤ m + 34) : rhe c m ≤ 10 ^ 34 := by
  have hquotient := div_pow_lt hc hm
  unfold rhe
  dsimp only
  split <;> omega

/-- Rounding away zeros changes nothing. -/
theorem rhe_pow_mul (c m : Nat) : rhe (10 ^ m * c) m = c := by
  have hpos : 0 < 10 ^ m := by positivity
  rw [rhe, Nat.mul_mod_right, Nat.mul_div_cancel_left c hpos]
  exact if_neg (by omega)

/-- What DPARSE's rule answers, DPARSER's answers: removed zeros are no rounding, and leave no carry. -/
theorem roundingNumeric_of_strictNumeric {neg : Bool} {c : Nat} {q : Int} {p : Quad}
    (h : strictNumeric neg (digitsAt c q) = .value p) : roundingNumeric neg (digitsAt c q) = .value p := by
  have hstrict : IsNumericRule strictNumeric := .inl rfl
  have hrounding : IsNumericRule roundingNumeric := .inr rfl
  obtain rfl | hc := Nat.eq_zero_or_pos c
  · rwa [hrounding.zero, ← hstrict.zero]
  obtain hq | hq := le_or_gt q 6111
  · obtain ⟨c', hpow, hmax, rfl⟩ := strictNumeric_value hc hq h
    have hdrop := cast_dropCount hc q
    generalize hm : dropCount (digitsAt c q) = m at hpow hmax hdrop ⊢
    have hc' : 0 < c' := Nat.pos_of_mul_pos_left (hpow ▸ hc)
    have hcount : digitCount c = m + digitCount c' := by rw [hpow, digitCount_pow_mul hc']
    obtain rfl | hm0 := Nat.eq_zero_or_pos m
    · have hfit : c < 10 ^ 34 := (digitCount_le_iff hc 34).mp (by omega)
      rw [hrounding.fits neg hc hfit (by omega) hq, hpow]
      simp
    · have hnocarry : rhe c m ≠ 10 ^ (digitCount c - m) := by
        rw [hcount, Nat.add_sub_cancel_left, hpow, rhe_pow_mul]
        exact (lt_pow_digitCount hc').ne
      rw [roundingNumeric_eq neg hc hq hm0 hm, if_neg (by omega), if_neg (fun hcarry => hnocarry hcarry.2), hpow, rhe_pow_mul]
  · obtain hspare | hover := le_or_gt (min (digitCount c) 34 + (q - 6111).toNat) 34
    · rwa [hrounding.absorbs neg hc hq hspare, ← hstrict.absorbs neg hc hq hspare]
    · rw [hstrict.overflows neg hc hq hover] at h
      cases h

end Sys2Proof.Machine
end

section
/-! PROOFS. DPARSE and DPARSER as the writing of what parsing answers, and what they do with each kind of text. -/

namespace Sys2Proof.Machine
open Sys2Proof.Claims (digitCount)

/-! ### The end of a parse (45_decimal_parse.md R260, R261) -/

/-- DPARSE ends with what parsing by its rule answers. -/
theorem exec_dparse (rd : RegNo) (s : State) :
    exec (.dparse rd) s = finishParse rd s (parseDecimal strictNumeric s.text) := rfl

/-- DPARSER ends with what parsing by its rule answers. -/
theorem exec_dparser (rd : RegNo) (s : State) :
    exec (.dparser rd) s = finishParse rd s (parseDecimal roundingNumeric s.text) := rfl

/-- A command that ends with a parsed pattern writes it to the pair. -/
theorem writesPair_of_parse {i : Instr} {rd : RegNo} {s : State} {parsed : Parsed Quad} {p : Nat}
    (hexec : exec i s = finishParse rd s parsed) (h : parsed = .value (BitVec.ofNat 128 p)) : Claims.WritesPair i s rd p :=
  ⟨_, by rw [hexec, h]; rfl, writesRegs_setPair s rd _, State.x_setPair_low s rd p, State.x_setPair_high s rd p⟩

/-- A command that ends with a failed parse raises its cause. -/
theorem raisesCause_of_parse {i : Instr} {rd : RegNo} {s : State} {parsed : Parsed Quad} {c : Cause}
    (hexec : exec i s = finishParse rd s parsed) (h : parsed = .fails c) : Claims.RaisesCause i s c :=
  raisesCause_of_exec (by rw [hexec, h]; rfl)

/-- A text that both rules parse to one pattern. -/
theorem writesPair_both (rd : RegNo) {s : State} {p : Nat}
    (h : ∀ rule, IsNumericRule rule → parseDecimal rule s.text = .value (BitVec.ofNat 128 p)) :
    Claims.WritesPair (.dparse rd) s rd p ∧ Claims.WritesPair (.dparser rd) s rd p :=
  ⟨writesPair_of_parse (exec_dparse rd s) (h _ (.inl rfl)), writesPair_of_parse (exec_dparser rd s) (h _ (.inr rfl))⟩

/-- A text that both rules refuse with one cause. -/
theorem raisesCause_both (rd : RegNo) {s : State} {c : Cause}
    (h : ∀ rule, IsNumericRule rule → parseDecimal rule s.text = .fails c) :
    Claims.RaisesCause (.dparse rd) s c ∧ Claims.RaisesCause (.dparser rd) s c :=
  ⟨raisesCause_of_parse (exec_dparse rd s) (h _ (.inl rfl)), raisesCause_of_parse (exec_dparser rd s) (h _ (.inr rfl))⟩

/-- DPARSE completes with cause NONE exactly where parsing answers a pattern, and then it has written it. -/
theorem exec_dparse_success {rd : RegNo} {s t : State} (h : exec (.dparse rd) s = .next t) (hcause : t.status.cause = .none) :
    ∃ p, parseDecimal strictNumeric s.text = .value p ∧ t = (s.setPair rd p).finish .none := by
  obtain hvalue | ⟨c, hfails, rfl⟩ := (finishParse_eq_next rd s t _).mp h
  · exact hvalue
  · obtain rfl : c = .none := hcause
    obtain hformat | ⟨neg, d, hstrict⟩ := parseDecimal_fails hfails
    · cases hformat
    · simpa using strictNumeric_fails hstrict

/-- A text that DPARSE's rule parses, DPARSER's parses to the same pattern (45_decimal_parse.md R261). -/
theorem parseDecimal_rounding_of_strict {t : List Byte} {p : Quad} (h : parseDecimal strictNumeric t = .value p) :
    parseDecimal roundingNumeric t = .value p := by
  obtain ⟨hlen, ⟨neg, hform⟩ | hform | ⟨neg, c, q, hform⟩⟩ := form_of_parseDecimal_value h
  · rwa [parseDecimal_of_infinityForm hform] at h ⊢
  · rwa [parseDecimal_of_nanForm hform] at h ⊢
  · rw [parseDecimal_of_numericText hlen hform] at h ⊢
    exact roundingNumeric_of_strictNumeric h

/-! ### Exactness of DPARSE (45_decimal_parse.md R260) -/

/-- Zeros at the end of a coefficient count as much in its exponent. -/
theorem pow_mul_scaled (c k : Nat) (q : Int) : ((10 ^ k * c : Nat) : ℚ) * 10 ^ q = c * 10 ^ (q + k) := by
  rw [zpow_add₀ (by norm_num), zpow_natCast]
  push_cast
  ring

/-- Where DPARSE's rule succeeds it writes the number's value: zeros were appended or removed, and the exponent moved with them. -/
theorem strictNumeric_exact {neg : Bool} {c : Nat} {q : Int} {p : Quad} (h : strictNumeric neg (digitsAt c q) = .value p) :
    ∃ (c' : Nat) (q' : Int), c' < 10 ^ 34 ∧ -6176 ≤ q' ∧ q' ≤ 6111 ∧
      (c' : ℚ) * 10 ^ q' = (c : ℚ) * 10 ^ (if c = 0 then q' else q) ∧ p = packDecimal neg q' c' := by
  have hstrict : IsNumericRule strictNumeric := .inl rfl
  obtain rfl | hc := Nat.eq_zero_or_pos c
  · rw [hstrict.zero] at h
    cases h
    exact ⟨0, clampExp q, by decide, by simp [clampExp, decMinExp, decMaxExp], by simp [clampExp, decMaxExp], by simp, rfl⟩
  simp only [if_neg hc.ne']
  obtain hq | hq := le_or_gt q 6111
  · obtain ⟨c', hpow, hmax, rfl⟩ := strictNumeric_value hc hq h
    have hdrop := cast_dropCount hc q
    generalize dropCount (digitsAt c q) = m at hpow hmax hdrop ⊢
    have hc' : c' < 10 ^ 34 := by
      have hlt := div_pow_lt hc (m := m) (by omega)
      rwa [hpow, Nat.mul_div_cancel_left _ (by positivity)] at hlt
    exact ⟨c', q + m, hc', by omega, hmax, by rw [hpow, pow_mul_scaled], rfl⟩
  · obtain hspare | hover := le_or_gt (min (digitCount c) 34 + (q - 6111).toNat) 34
    · rw [hstrict.absorbs neg hc hq hspare] at h
      cases h
      obtain ⟨k, hk⟩ : ∃ k : Nat, q = 6111 + k := ⟨(q - 6111).toNat, by omega⟩
      refine ⟨_, 6111, pow_mul_lt_of_spare hc (by omega) hspare, by decide, le_rfl, ?_, rfl⟩
      rw [pow_mul_scaled, hk, add_sub_cancel_left, Int.toNat_natCast]
    · rw [hstrict.overflows neg hc hq hover] at h
      cases h

end Sys2Proof.Machine

namespace Sys2Proof.Proofs
open Sys2Proof.Machine Sys2Proof.Claims

/-- Settles O34: a number that fits loses no digit and absorbs no exponent, in either rule; an odd RD is not well formed. -/
theorem decimalParseKeepsFittingNumber : Obligations.DecimalParseKeepsFittingNumber := by
  intro rd s neg c q
  refine ⟨fun heven => ⟨decode_commandWord rfl (hwf := heven), decode_commandWord rfl (hwf := heven),
    fun hlen htext hc hfit hlo hhi => writesPair_both rd fun rule hrule => ?_⟩,
    fun hodd i => ⟨decode_commandWord_ne_command (.dparse rd) hodd rfl (by decide) i,
      decode_commandWord_ne_command (.dparser rd) hodd rfl (by decide) i⟩⟩
  rw [parseDecimal_of_numericText (by simpa using hlen) htext, hrule.fits neg hc hfit hlo hhi,
    packDecimal_eq_ofNat neg hlo hhi hfit.le]

/-- Settles O35: both rules take a coefficient without digits first, and clamp its exponent. -/
theorem decimalZeroClampsExponent : Obligations.DecimalZeroClampsExponent := by
  intro rd s neg q _ hlen htext
  refine writesPair_both rd fun rule hrule => ?_
  rw [parseDecimal_of_numericText (by simpa using hlen) htext, hrule.zero]
  exact congrArg _ (packDecimal_eq_ofNat neg (q := min (max q (-6176)) 6111) (by omega) (by omega) (by decide))

/-- Settles O36: the special forms are answered before the numeric rule is asked. -/
theorem decimalSpecialForms : Obligations.DecimalSpecialForms := by
  intro rd s _
  refine ⟨fun neg hform => writesPair_both rd fun rule _ => ?infinity, fun hform => writesPair_both rd fun rule _ => ?nan⟩
  case infinity => rw [parseDecimal_of_infinityForm hform, infinityPattern_eq_ofNat]
  case nan => rw [parseDecimal_of_nanForm hform, nanPattern_eq_ofNat]

/-- Settles O37: the length is tested first, and every text that parses is of one of the three forms. -/
theorem decimalMalformedRaisesFormat : Obligations.DecimalMalformedRaisesFormat := by
  intro rd s
  refine ⟨fun hlong => raisesCause_both rd fun rule _ => parseDecimal_of_long (by simpa using hlong),
    fun hinfinity hnan hnumeric => raisesCause_both rd fun rule _ => parseDecimal_of_none ?_⟩
  cases hparse : parseDecimalText s.text with
  | none => rfl
  | some d =>
    have hspelled := spelledBy_of_parseDecimalText hparse
    cases d with
    | infinity neg => exact absurd hspelled (hinfinity neg)
    | nan => exact absurd hspelled hnan
    | numeric neg ip fp e =>
      exact absurd (numericText_iff_parts.mpr ⟨ip, fp, e, hspelled, rfl, rfl⟩) (hnumeric neg _ _)

/-- Settles O38: the excess of the exponent becomes zeros in the spare digit positions, after which no digit must go. -/
theorem decimalExcessExponent : Obligations.DecimalExcessExponent := by
  intro rd s neg c q _ hlen htext hc hq
  have hparse (rule) : parseDecimal rule s.text = rule neg (digitsAt c q) :=
    parseDecimal_of_numericText (by simpa using hlen) htext
  refine ⟨fun hover => raisesCause_both rd fun rule hrule => ?overflow,
    fun hspare => writesPair_both rd fun rule hrule => ?absorbed⟩
  case overflow => rw [hparse, hrule.overflows neg hc hq (by omega)]
  case absorbed =>
    have hspare' : min (digitCount c) 34 + (q - 6111).toNat ≤ 34 := by omega
    rw [hparse, hrule.absorbs neg hc hq hspare', mul_comm c]
    exact congrArg _ (packDecimal_eq_ofNat neg (by decide) le_rfl (pow_mul_lt_of_spare hc (by omega) hspare').le)

/-- Settles O39: the removal takes zeros one by one, and ends after `m` of them, at the last digit that is not 0, or at the
greatest exponent. -/
theorem strictParseDropsOnlyZeros : Obligations.StrictParseDropsOnlyZeros := by
  intro rd s neg c c' z m q _ hlen htext hpow hlast hq hm
  have hc' : 0 < c' := by omega
  have hc : 0 < c := hpow ▸ by positivity
  have hcount : digitCount c = z + digitCount c' := by rw [hpow, digitCount_pow_mul hc']
  have hone : digitCount c' ≤ 1 ↔ c' < 10 := digitCount_le_iff hc' 1
  have hdrop : dropCount (digitsAt c q) = m := by
    have hcast := cast_dropCount hc q
    omega
  have hparse : parseDecimal strictNumeric s.text = strictNumeric neg (digitsAt c q) :=
    parseDecimal_of_numericText (by simpa using hlen) htext
  have hraises {k : Cause} (h : removeZeros (Nat.digits 10 c) m q = .fails k) : RaisesCause (.dparse rd) s k :=
    raisesCause_of_parse (exec_dparse rd s)
      (hparse.trans (strictNumeric_of_removeZeros_fails neg hc hq (by rwa [hdrop])))
  have hstops (hz : z < m) (hmax : q + z ≤ 6111) :
      removeZeros (Nat.digits 10 c) m q = .fails (if c' < 10 then .underflow else .inexact) :=
    hpow ▸ removeZeros_of_too_few hlast hz hmax
  refine ⟨fun hz hmax => ?exact, fun hz hmore hmax => hraises ?inexact, fun hz honly hmax => hraises ?underflow,
    fun hover => hraises ?overflow⟩
  case exact =>
    have hremove : removeZeros (Nat.digits 10 c) m q = .value (Nat.digits 10 (c / 10 ^ m), q + m) :=
      hpow ▸ removeZeros_of_enough hc' hz hmax
    refine writesPair_of_parse (exec_dparse rd s) ?_
    rw [hparse, strictNumeric_of_removeZeros_value neg hc hq (by rwa [hdrop]),
      packDecimal_eq_ofNat neg (by omega) hmax (div_pow_lt hc (by omega)).le]
  case inexact => rw [hstops hz hmax, if_neg (by omega)]
  case underflow => rw [hstops hz hmax, if_pos (by omega)]
  case overflow => exact hpow ▸ removeZeros_of_overflow hc' hq hover

/-- Settles O40: DPARSE succeeds on a number only where its rule moved zeros between coefficient and exponent. -/
theorem strictParseIsExact : Obligations.StrictParseIsExact := by
  intro rd s t neg c q _ htext hexec hcause
  obtain ⟨p, hparse, rfl⟩ := exec_dparse_success hexec hcause
  obtain ⟨hlen, -⟩ := form_of_parseDecimal_value hparse
  rw [parseDecimal_of_numericText hlen htext] at hparse
  obtain ⟨c', q', hfit, hlo, hhi, hvalue, rfl⟩ := strictNumeric_exact hparse
  refine ⟨c', q', hfit, hlo, hhi, hvalue, ?_⟩
  rw [packDecimal_eq_ofNat neg hlo hhi hfit.le, State.x_finish, State.x_finish]
  exact ⟨State.x_setPair_low s rd _, State.x_setPair_high s rd _⟩

/-- Settles O41: the branches of DPARSER's rule where digits must go; what is left fits the coefficient's field. -/
theorem roundingParseRoundsHalfEven : Obligations.RoundingParseRoundsHalfEven := by
  intro rd s neg c m q _ hlen htext hc hq hm0 hm
  have hdrop : dropCount (digitsAt c q) = m := by
    have hcast := cast_dropCount hc q
    omega
  have hparse := parseDecimal_of_numericText (rule := roundingNumeric) (by simpa using hlen) htext
  rw [roundingNumeric_eq neg hc hq hm0 hdrop] at hparse
  refine ⟨fun hover => raisesCause_of_parse (exec_dparser rd s) ?overflow,
    fun hmax hnocarry => writesPair_of_parse (exec_dparser rd s) ?rounded,
    fun hmax hkept hcarry => writesPair_of_parse (exec_dparser rd s) ?carried,
    fun hmax hkept hcarry => writesPair_of_parse (exec_dparser rd s) ?infinity⟩
  case overflow => rw [hparse, if_pos hover]
  case rounded =>
    rw [hparse, if_neg (by omega), if_neg hnocarry, packDecimal_eq_ofNat neg (by omega) hmax (rhe_le hc (by omega))]
  case carried =>
    have hfit : 10 ^ (digitCount c - m - 1) ≤ 10 ^ 34 := Nat.pow_le_pow_right (by decide) (by omega)
    rw [hparse, if_neg (by omega), if_pos ⟨hkept, hcarry⟩, if_pos hmax, packDecimal_eq_ofNat neg (by omega) (by omega) hfit]
  case infinity =>
    rw [hparse, if_neg (by omega), if_pos ⟨hkept, hcarry⟩, if_neg (by omega), infinityPattern_eq_ofNat]

/-- Settles O42: what DPARSE parses, DPARSER parses to the same pattern, and both write it alike. -/
theorem roundingAgreesWithStrict : Obligations.RoundingAgreesWithStrict := by
  intro rd s t hexec hcause
  obtain ⟨p, hparse, rfl⟩ := exec_dparse_success hexec hcause
  rw [exec_dparser, parseDecimal_rounding_of_strict hparse]
  rfl

end Sys2Proof.Proofs
end

section
/-! PROOFS. The patterns of layout 1 as the unit reads them, the text it writes for each as a numeric text of its value, and the
round trip of both. -/

namespace Sys2Proof.Machine

/-! ### The patterns read (46_decimal_format.md R291, 45_decimal_parse.md R250, R252) -/

/-- A pair is the pattern of the number it holds. -/
theorem State.pair_eq_ofNat (s : State) (r : RegNo) :
    s.pair r = BitVec.ofNat 128 ((s.x (highReg r)).v.toNat * 2 ^ 64 + (s.x r).v.toNat) := by
  rw [← State.toNat_pair, BitVec.ofNat_toNat, BitVec.setWidth_eq]

/-- A field of a pattern, given as a number, is a digit of the number. -/
theorem toNat_field_ofNat (n start len : Nat) (hfits : start + len ≤ 128) :
    ((BitVec.ofNat 128 n).extractLsb' start len).toNat = n / 2 ^ start % 2 ^ len := by
  have hpow : 2 ^ 128 = 2 ^ start * 2 ^ (128 - start) := by rw [← pow_add, Nat.add_sub_cancel' (by omega)]
  rw [BitVec.extractLsb'_toNat, BitVec.toNat_ofNat, Nat.shiftRight_eq_div_pow, hpow, Nat.mod_mul_right_div_self,
    Nat.mod_mod_of_dvd _ (Nat.pow_dvd_pow 2 (by omega))]

/-- The fields of a layout-1 number: the combination field, the exponent, the coefficient and the sign. -/
theorem fields_finitePattern (neg : Bool) {q : Int} {c : Nat} (hlo : -6176 ≤ q) (hhi : q ≤ 6111) (hc : c < 2 ^ 113) :
    Claims.finitePattern neg q c / 2 ^ 122 % 2 ^ 5 < 24 ∧
      ((Claims.finitePattern neg q c / 2 ^ 113 % 2 ^ 14 : Nat) : Int) = q + 6176 ∧
      Claims.finitePattern neg q c / 2 ^ 0 % 2 ^ 113 = c ∧ Claims.finitePattern neg q c / 2 ^ 127 % 2 = neg.toNat := by
  have hbit := neg.toNat_lt
  rw [Claims.finitePattern]
  omega

/-- A layout-1 number in range is read as its sign, exponent and coefficient: its combination field is below 24, so its two high
bits are not both 1. -/
theorem unpackDecimal_finitePattern (neg : Bool) {q : Int} {c : Nat} (hlo : -6176 ≤ q) (hhi : q ≤ 6111) (hc : c < 2 ^ 113) :
    unpackDecimal (BitVec.ofNat 128 (Claims.finitePattern neg q c)) = .finite neg q c := by
  obtain ⟨hfield, hexponent, hcoefficient, hsign⟩ := fields_finitePattern neg hlo hhi hc
  generalize Claims.finitePattern neg q c = n at hfield hexponent hcoefficient hsign ⊢
  have hlayout : ∀ g : BitVec 5, g.toNat < 24 → g ≠ 0b11111#5 ∧ g ≠ 0b11110#5 ∧ g.extractLsb' 3 2 ≠ 0b11#2 := by decide
  rw [← toNat_field_ofNat n 122 5 (by decide)] at hfield
  rw [← toNat_field_ofNat n 113 14 (by decide)] at hexponent
  rw [← toNat_field_ofNat n 0 113 (by decide)] at hcoefficient
  have hneg : (BitVec.ofNat 128 n).getLsbD 127 = neg := by
    rw [BitVec.getLsbD_ofNat, Nat.testBit_eq_decide_div_mod_eq, hsign]
    cases neg <;> rfl
  obtain ⟨hnan, hinfinity, hlarge⟩ := hlayout _ hfield
  simp only [unpackDecimal, if_neg hnan, if_neg hinfinity, if_neg hlarge, hneg, hexponent, hcoefficient, decBias,
    add_sub_cancel_right]

/-- The number of an Infinity is read as one. -/
theorem unpackDecimal_infinityNumber (neg : Bool) :
    unpackDecimal (BitVec.ofNat 128 (Claims.infinityNumber neg)) = .infinity neg := by
  cases neg <;> decide

/-- The number of the NaN is read as one. -/
theorem unpackDecimal_nanNumber : unpackDecimal (BitVec.ofNat 128 Claims.nanNumber) = .nan := by decide

/-! ### The digits written (46_decimal_format.md R293) -/

/-- The bytes of decimal digits are digits with their values. -/
theorem decDigit_digitChar : ∀ d < 10, isDecDigit (digitChar d) = true ∧ decDigit (digitChar d) = d := by decide

/-- The digits of a number are digits. -/
theorem decDigits_digitText (c : Nat) : Claims.DecDigits (digitText 10 c) := by
  refine all_isDecDigit_iff.mp (List.all_eq_true.mpr ?_)
  rw [digitText, List.forall_mem_map]
  exact fun d hd => (decDigit_digitChar d (digitValues_lt 10 c (by decide) d hd)).1

/-- The digits of a number spell it. -/
theorem decNumeral_digitText (c : Nat) : decNumeral (digitText 10 c) = c := by
  have hvalues : (digitText 10 c).map decDigit = digitValues 10 c := by
    rw [digitText, List.map_map]
    exact (List.map_congr_left fun d hd => (decDigit_digitChar d (digitValues_lt 10 c (by decide) d hd)).2).trans (List.map_id _)
  rw [decNumeral, hvalues, numeral_digitValues 10 c (by decide)]

/-- A number has digits. -/
theorem digitText_ne_nil (c : Nat) : digitText 10 c ≠ [] := by
  simpa [digitText] using digitValues_ne_nil 10 c (by decide)

/-- "0" in front does not change the number of a digit string. -/
theorem decNumeral_zeros_append (k : Nat) (ds : List Byte) : decNumeral (List.replicate k chZero ++ ds) = decNumeral ds := by
  have hzeros : numeral 10 (List.replicate k 0) = 0 := by simpa using numeral_append_zeros 10 [] k
  rw [decNumeral, List.map_append, List.map_replicate, numeral_append]
  show numeral 10 (List.replicate k 0) * _ + _ = _
  rw [hzeros, Nat.zero_mul, Nat.zero_add, decNumeral]

/-! ### The parts of a written text (46_decimal_format.md R295 to R298) -/

/-- With any sign in front the text is a numeric text of that sign, the coefficient `c` and the exponent `q`. -/
def SpellsMagnitude (t : List Byte) (c : Nat) (q : Int) : Prop :=
  ∀ neg, Claims.NumericText (signText neg ++ t) neg c q

/-- The sign written is a sign of the grammar. -/
theorem signPart_signText (neg : Bool) : Claims.SignPart neg (signText neg) := by
  cases neg
  · exact .inl ⟨rfl, .inl rfl⟩
  · exact .inr ⟨rfl, rfl⟩

/-- Digits, a fraction and an exponent text spell a magnitude. -/
theorem spellsMagnitude_of_parts {ip ft fp et : List Byte} {e : Int} (hne : ip ≠ []) (hdigits : Claims.DecDigits (ip ++ fp))
    (hft : Claims.FractionPart ft fp) (het : Claims.ExponentPart et e) :
    SpellsMagnitude (ip ++ ft ++ et) (decNumeral (ip ++ fp)) (e - fp.length) := by
  intro neg
  refine numericText_iff_parts.mpr ⟨ip, fp, e, ⟨signText neg, ft, et, signPart_signText neg, hne, ?_, hft, het, ?_⟩, rfl, rfl⟩
  · exact (List.forall_mem_append.mp hdigits).1
  · simp only [List.append_assoc]

/-- The exponent written is an exponent text of its value. -/
theorem exponentPart_exponentText (n : Int) : Claims.ExponentPart (exponentText n) n := by
  have hdigits : digitText 10 n.natAbs ≠ [] ∧ Claims.DecDigits (digitText 10 n.natAbs) :=
    ⟨digitText_ne_nil _, decDigits_digitText _⟩
  have hvalue : Claims.decInt (digitText 10 n.natAbs) = n.natAbs := by rw [decInt_eq_decNumeral, decNumeral_digitText]
  unfold exponentText
  split_ifs with hpos hneg
  · refine .inr ⟨false, [chPlus], _, .inl ⟨rfl, .inr rfl⟩, hdigits.1, hdigits.2, rfl, ?_⟩
    rw [hvalue, if_neg (by decide)]
    omega
  · refine .inr ⟨true, [chMinus], _, .inr ⟨rfl, rfl⟩, hdigits.1, hdigits.2, rfl, ?_⟩
    rw [hvalue, if_pos rfl]
    omega
  · exact .inl ⟨rfl, by omega⟩

/-- Digits after a point are a fraction. -/
theorem fractionPart_point {fp : List Byte} (hne : fp ≠ []) (hfp : Claims.DecDigits fp) :
    Claims.FractionPart (chPoint :: fp) fp :=
  .inr ⟨hne, hfp, rfl⟩

/-- The digits of a string from some place on are a fraction, with a point only where there are any. -/
theorem fractionPart_drop {dg : List Byte} (hdg : Claims.DecDigits dg) (n : Nat) :
    Claims.FractionPart (if n < dg.length then chPoint :: dg.drop n else []) (dg.drop n) := by
  split_ifs with hlt
  · exact fractionPart_point (by simpa using hlt) (fun b hb => hdg b (List.mem_of_mem_drop hb))
  · exact .inl ⟨rfl, List.drop_eq_nil_of_le (by omega)⟩

/-- A digit string with a point after its first `n` digits, and an exponent text. -/
theorem spellsMagnitude_point {dg et : List Byte} {e : Int} (hdg : Claims.DecDigits dg) {n : Nat} (hn : 0 < n)
    (hlen : n ≤ dg.length) (het : Claims.ExponentPart et e) :
    SpellsMagnitude (dg.take n ++ (if n < dg.length then chPoint :: dg.drop n else []) ++ et) (decNumeral dg)
      (e - ((dg.length : Int) - n)) := by
  have hne : dg.take n ≠ [] := List.ne_nil_of_length_pos (by rw [List.length_take]; omega)
  have hsplit : dg.take n ++ dg.drop n = dg := List.take_append_drop n dg
  have hspells := spellsMagnitude_of_parts hne (hsplit.symm ▸ hdg) (fractionPart_drop hdg n) het
  rwa [hsplit, List.length_drop, Nat.cast_sub hlen] at hspells

/-- Scientific form spells the value of its digits, where they are at most 34 (46_decimal_format.md R295). -/
theorem spellsMagnitude_scientificText {dg : List Byte} (hne : dg ≠ []) (hdg : Claims.DecDigits dg) (hlen : dg.length ≤ 34)
    (q : Int) : SpellsMagnitude (scientificText dg q ((dg.length : Int) - 1 + q)) (decNumeral dg) q := by
  have hpos : 0 < dg.length := List.length_pos_iff.mpr hne
  have hspells := spellsMagnitude_point hdg (n := 1) (by decide) hpos (exponentPart_exponentText ((dg.length : Int) - 1 + q))
  have hq : (dg.length : Int) - 1 + q - ((dg.length : Int) - (1 : Nat)) = q := by omega
  rw [hq] at hspells
  rw [scientificText, if_pos (by simpa [decDigits] using hlen)]
  exact hspells

/-- Positional form spells the value of its digits (46_decimal_format.md R297). -/
theorem spellsMagnitude_positionalText {dg : List Byte} (hne : dg ≠ []) (hdg : Claims.DecDigits dg) {q : Int} (hq : q ≤ 0) :
    SpellsMagnitude (positionalText dg q) (decNumeral dg) q := by
  have hnone : Claims.ExponentPart [] 0 := .inl ⟨rfl, rfl⟩
  have hpos : 0 < dg.length := List.length_pos_iff.mpr hne
  rw [positionalText]
  split_ifs with hzero hpoint
  · have hspells := spellsMagnitude_point hdg hpos le_rfl hnone
    simpa [hzero] using hspells
  · obtain ⟨n, hn⟩ : ∃ n : Nat, (dg.length : Int) + q = n := ⟨((dg.length : Int) + q).toNat, by omega⟩
    have hspells := spellsMagnitude_point hdg (n := n) (by omega) (by omega) hnone
    have hexponent : 0 - ((dg.length : Int) - n) = q := by omega
    rw [hexponent, if_pos (by omega), List.append_nil] at hspells
    rwa [hn, Int.toNat_natCast]
  · generalize hk : (-((dg.length : Int) + q)).toNat = k
    have hfp : Claims.DecDigits (List.replicate k chZero ++ dg) := by
      refine List.forall_mem_append.mpr ⟨fun b hb => ?_, hdg⟩
      rw [List.eq_of_mem_replicate hb]
      decide
    have hip : Claims.DecDigits ([chZero] ++ (List.replicate k chZero ++ dg)) :=
      List.forall_mem_append.mpr ⟨by simp [chZero], hfp⟩
    have hspells := spellsMagnitude_of_parts (by simp) hip (fractionPart_point (by simp [hne]) hfp) hnone
    have hvalue : decNumeral ([chZero] ++ (List.replicate k chZero ++ dg)) = decNumeral dg :=
      decNumeral_zeros_append (k + 1) dg
    have hexponent : 0 - (((List.replicate k chZero ++ dg).length : Nat) : Int) = q := by
      rw [List.length_append, List.length_replicate]
      omega
    rw [hvalue, hexponent, List.append_nil] at hspells
    exact hspells

/-- The text of a finite value of at most 34 digits spells it, in the form chosen (46_decimal_format.md R294). -/
theorem spellsMagnitude_finiteText {c : Nat} (hc : c < 10 ^ 34) (q : Int) : SpellsMagnitude (finiteText q c) c q := by
  have hlen : (digitText 10 c).length ≤ 34 := by
    rw [length_digitText]
    exact length_digitValues_le 10 c 34 (by decide) (by decide) hc
  have hscientific := spellsMagnitude_scientificText (digitText_ne_nil c) (decDigits_digitText c) hlen q
  have hpositional (hq : q ≤ 0) := spellsMagnitude_positionalText (digitText_ne_nil c) (decDigits_digitText c) hq
  rw [decNumeral_digitText] at hscientific hpositional
  rw [finiteText]
  split_ifs with hform
  · exact hscientific
  · exact hpositional (by omega)

/-- DFMT leaves the text of the pair's number, which is shorter than the parser's limit (46_decimal_format.md R299). -/
theorem exec_dfmt_ofNat {rs1 : RegNo} {s : State} {p : Nat} {d : Decimal}
    (hp : (s.x (highReg rs1)).v.toNat * 2 ^ 64 + (s.x rs1).v.toNat = p) (hd : unpackDecimal (BitVec.ofNat 128 p) = d) :
    ∃ t, exec (.dfmt rs1) s = .next t ∧ t.text = decimalText d ∧ t.tlen.toNat < 7000 := by
  obtain ⟨t, hexec, htext⟩ := exec_dfmt rs1 s
  have hlen := length_decimalText_le (s.pair rs1)
  rw [← htext, State.length_text] at hlen
  rw [State.pair_eq_ofNat, hp, hd] at htext
  exact ⟨t, hexec, htext, by omega⟩

end Sys2Proof.Machine

namespace Sys2Proof.Proofs
open Sys2Proof.Machine Sys2Proof.Claims

/-- Settles O45: DFMT leaves a text of the pattern's value, at its very exponent, which DPARSE writes as it is, the zeros included,
or the special form of the pattern. -/
theorem strictDecimalRoundTrip : Obligations.StrictDecimalRoundTrip := by
  intro rs1 rd s _ heven p hp
  have hparsed {d : Decimal} (hd : unpackDecimal (BitVec.ofNat 128 p) = d)
      (hback : ∀ t : State, t.text = decimalText d → t.tlen.toNat < 7000 → WritesPair (.dparse rd) t rd p) :
      ∃ t, exec (.dfmt rs1) s = .next t ∧ WritesPair (.dparse rd) t rd p := by
    obtain ⟨t, hexec, htext, hlen⟩ := exec_dfmt_ofNat (p := p) rfl hd
    exact ⟨t, hexec, hback t htext hlen⟩
  obtain ⟨neg, q, c, hc, hlo, hhi, hp⟩ | ⟨neg, hp⟩ | hp := hp
  · refine hparsed (hp ▸ unpackDecimal_finitePattern neg hlo hhi (hc.trans ten_pow_34_lt_two_pow_113)) fun t htext hlen => ?_
    have hnumeric : NumericText t.text neg c q := htext ▸ spellsMagnitude_finiteText hc q neg
    rw [hp]
    obtain rfl | hpos := Nat.eq_zero_or_pos c
    · have hclamp : min (max q (-6176)) 6111 = q := by omega
      rw [← hclamp]
      exact (decimalZeroClampsExponent rd t neg q heven hlen hnumeric).1
    · obtain ⟨-, -, hfits⟩ := (decimalParseKeepsFittingNumber rd t neg c q).1 heven
      exact (hfits hlen hnumeric hpos hc hlo hhi).1
  · refine hparsed (hp ▸ unpackDecimal_infinityNumber neg) fun t htext _ => ?_
    rw [hp]
    exact ((decimalSpecialForms rd t heven).1 neg ⟨signText neg, signPart_signText neg, htext⟩).1
  · refine hparsed (hp ▸ unpackDecimal_nanNumber) fun t htext _ => ?_
    rw [hp]
    exact ((decimalSpecialForms rd t heven).2 ⟨false, [], .inl ⟨rfl, .inl rfl⟩, htext⟩).1

end Sys2Proof.Proofs
end

section
/-! PROOFS. The text that DFMT writes as the rules name it, the fields of a pattern as bits of the pair's two halves, and the least
lengths of the texts that DFMT and IFMT write. -/

namespace Sys2Proof.Machine

/-! ### The notation (46_decimal_format.md R293 to R298) -/

/-- The model's exponent text is the rule's. -/
theorem exponentText_eq_expText (n : Int) : exponentText n = Claims.expText n := by
  unfold exponentText Claims.expText
  rw [digitText_eq_outDigits (by decide)]
  obtain hneg | rfl | hpos := lt_trichotomy n 0
  · rw [if_neg (by omega), if_pos hneg, if_neg hneg.ne, if_neg (by omega)]; rfl
  · rfl
  · rw [if_pos hpos, if_neg hpos.ne', if_pos hpos]; rfl

/-- The model's text of a finite value is the rule's. -/
theorem finiteText_eq_magnitudeText (q : Int) (c : Nat) : finiteText q c = Claims.magnitudeText c q := by
  unfold finiteText Claims.magnitudeText scientificText
  rw [digitText_eq_outDigits (by decide)]
  simp only [exponentText_eq_expText]
  rfl

/-- A finite value is written as its sign and the text of its magnitude. -/
theorem decimalText_finite (neg : Bool) (q : Int) (c : Nat) :
    decimalText (.finite neg q c) = Claims.minusText neg ++ Claims.magnitudeText c q := by
  rw [← finiteText_eq_magnitudeText]
  rfl

/-! ### The fields of a pair (46_decimal_format.md R291, 45_decimal_parse.md R250, R251) -/

/-- A part of a field is a field. -/
theorem extractLsb'_of_extractLsb' {w : Nat} (x : BitVec w) (base width : Nat) {start len : Nat} (h : start + len ≤ width) :
    (x.extractLsb' base width).extractLsb' start len = x.extractLsb' (base + start) len := by
  ext i hi
  simp only [BitVec.getElem_extractLsb', BitVec.getLsbD_extractLsb', Nat.add_assoc]
  simp only [show start + i < width by omega, decide_true, Bool.true_and]

/-- A field that begins at the low end of a pattern and reaches into its high half. -/
theorem toNat_extractLsb'_append_zero (hi lo : Word) (n : Nat) :
    ((hi ++ lo).extractLsb' 0 (n + 64)).toNat = (hi.extractLsb' 0 n).toNat * 2 ^ 64 + lo.toNat := by
  have hsplit := BitVec.extractLsb'_append_extractLsb'_eq_extractLsb' (x := hi ++ lo) (start₁ := 0) (len₁ := 64) (len₂ := n) rfl
  rw [← hsplit, BitVec.extractLsb'_append_eq_of_le (by decide), BitVec.extractLsb'_append_eq_right, Claims.toNat_append_eq_add]

/-- What a pattern stands for, from its two halves. -/
theorem unpackDecimal_append (hi lo : Word) :
    unpackDecimal (hi ++ lo) =
      if hi.extractLsb' 58 5 = 0b11111#5 then .nan
      else if hi.extractLsb' 58 5 = 0b11110#5 then .infinity (hi.getLsbD 63)
      else if hi.extractLsb' 61 2 = 0b11#2 then
        .finite (hi.getLsbD 63) ((hi.extractLsb' 47 14).toNat - 6176)
          (2 ^ 113 + (hi.extractLsb' 0 47).toNat * 2 ^ 64 + lo.toNat)
      else
        .finite (hi.getLsbD 63) ((hi.extractLsb' 49 14).toNat - 6176) ((hi.extractLsb' 0 49).toNat * 2 ^ 64 + lo.toNat) := by
  have hhigh {start len : Nat} (h : 64 ≤ start) : (hi ++ lo).extractLsb' start len = hi.extractLsb' (start - 64) len :=
    BitVec.extractLsb'_append_eq_of_le h
  have hsign : (hi ++ lo).getLsbD 127 = hi.getLsbD 63 := BitVec.getLsbD_append
  have hlayout : (hi.extractLsb' 58 5).extractLsb' 3 2 = hi.extractLsb' 61 2 := extractLsb'_of_extractLsb' hi 58 5 (by decide)
  simp only [unpackDecimal, decBias, hsign, hhigh (show 64 ≤ 122 by decide), hhigh (show 64 ≤ 113 by decide),
    hhigh (show 64 ≤ 111 by decide), toNat_extractLsb'_append_zero hi lo 47, toNat_extractLsb'_append_zero hi lo 49,
    Nat.reduceSub, hlayout, Nat.add_assoc]

/-- A combination field whose upper or middle two bits are not both 1 is that of a finite pattern. -/
theorem finite_of_combination {hi : Word} (h : hi.extractLsb' 61 2 ≠ 0b11#2 ∨ hi.extractLsb' 59 2 ≠ 0b11#2) :
    hi.extractLsb' 58 5 ≠ 0b11111#5 ∧ hi.extractLsb' 58 5 ≠ 0b11110#5 := by
  have hfield : ∀ g : BitVec 5, g.extractLsb' 3 2 ≠ 0b11#2 ∨ g.extractLsb' 1 2 ≠ 0b11#2 → g ≠ 0b11111#5 ∧ g ≠ 0b11110#5 := by
    decide
  apply hfield
  rwa [extractLsb'_of_extractLsb' hi 58 5 (by decide), extractLsb'_of_extractLsb' hi 58 5 (by decide)]

/-! ### The text written (46_decimal_format.md R290, R299) -/

/-- DFMT writes the text of what the pair's pattern stands for and nothing else: it fits TB. -/
theorem writesOutput_dfmt (rs1 : RegNo) (s : State) :
    Claims.WritesOutput (.dfmt rs1) s (decimalText (unpackDecimal (s.pair rs1))) := by
  have hlen := length_decimalText_le (s.pair rs1)
  exact ⟨_, rfl, writesText_setText s _ (by omega)⟩

/-- DFMT writes the text of what the two halves stand for. -/
theorem writesOutput_dfmt_of_halves {rs1 : RegNo} {s : State} {d : Decimal} {out : List Byte}
    (hd : unpackDecimal ((s.x (highReg rs1)).v ++ (s.x rs1).v) = d) (hout : decimalText d = out) :
    Claims.WritesOutput (.dfmt rs1) s out := by
  rw [← hout, ← hd]
  exact writesOutput_dfmt rs1 s

/-- Scientific form of some digits is not empty. -/
theorem scientificText_ne_nil {dg : List Byte} (hne : dg ≠ []) (q sci : Int) : scientificText dg q sci ≠ [] := by
  unfold scientificText
  split_ifs
  · simp [hne]
  · simp [hne]
  · exact List.cons_ne_nil _ _

/-- Positional form of some digits is not empty. -/
theorem positionalText_ne_nil {dg : List Byte} (hne : dg ≠ []) (q : Int) : positionalText dg q ≠ [] := by
  unfold positionalText
  dsimp only
  split_ifs
  · exact hne
  · exact List.append_ne_nil_of_right_ne_nil _ (List.cons_ne_nil _ _)
  · exact List.append_ne_nil_of_right_ne_nil _ hne

/-- Every pattern has a text of at least one byte. -/
theorem decimalText_ne_nil (d : Decimal) : decimalText d ≠ [] := by
  cases d with
  | nan => decide
  | infinity neg => exact List.append_ne_nil_of_right_ne_nil _ (by decide)
  | finite neg q c =>
    refine List.append_ne_nil_of_right_ne_nil _ ?_
    have hne := digitText_ne_nil c
    unfold finiteText
    dsimp only
    split_ifs
    · exact scientificText_ne_nil hne _ _
    · exact positionalText_ne_nil hne _

/-- Every integer has a text of at least one byte. -/
theorem integerText_ne_nil {r : Nat} (hr : 2 ≤ r) (n : Int) : integerText r n ≠ [] := by
  refine List.append_ne_nil_of_right_ne_nil _ ?_
  simpa [digitText] using digitValues_ne_nil r n.natAbs hr

end Sys2Proof.Machine

namespace Sys2Proof.Proofs
open Sys2Proof.Machine Sys2Proof.Claims

/-- Settles O43: the combination field of the high half selects the special texts or the layout, the halves hold its sign, exponent
and coefficient, and the model writes them in the rules' notation; an odd RS1 is not well formed. -/
theorem dfmtWritesText : Obligations.DfmtWritesText := by
  intro rs1 s
  refine ⟨fun heven => ?_, fun hodd => decode_commandWord_ne_command (.dfmt rs1) hodd⟩
  refine ⟨decode_commandWord rfl (hwf := heven), fun hnan => ?nan, fun hinfinity => ?infinity, fun hsmall => ?layout1,
    fun hlarge hmiddle => ?layout2⟩
  case nan =>
    refine writesOutput_dfmt_of_halves (d := .nan) ?_ rfl
    rw [unpackDecimal_append, if_pos hnan]
  case infinity =>
    refine writesOutput_dfmt_of_halves (d := .infinity _) ?_ rfl
    rw [unpackDecimal_append, if_neg (by rw [hinfinity]; decide), if_pos hinfinity]
  case layout1 =>
    obtain ⟨hnan, hinfinity⟩ := finite_of_combination (.inl hsmall)
    refine writesOutput_dfmt_of_halves ?_ (decimalText_finite _ _ _)
    rw [unpackDecimal_append, if_neg hnan, if_neg hinfinity, if_neg hsmall]
  case layout2 =>
    obtain ⟨hnan, hinfinity⟩ := finite_of_combination (.inr hmiddle)
    refine writesOutput_dfmt_of_halves ?_ (decimalText_finite _ _ _)
    rw [unpackDecimal_append, if_neg hnan, if_neg hinfinity, if_pos hlarge]

/-- Settles O44: the sign and at most 35 digits, with seven bytes more, or an exponent, bound DFMT's text; the sign and 64 digits in
radix 2 bound IFMT's; and a number always has a digit. -/
theorem textOutputsFitBuffer : Obligations.TextOutputsFitBuffer := by
  refine ⟨fun rs1 s => ?dfmt, fun rs1 imm6 r s hradix => ?ifmt⟩
  case dfmt =>
    obtain ⟨t, hexec, htext⟩ := writesOutput_dfmt rs1 s
    exact ⟨t, _, hexec, htext, List.length_pos_iff.mpr (decimalText_ne_nil _), length_decimalText_le _⟩
  case ifmt =>
    have hr := radixOf_eq_some_iff.mpr hradix
    have h2 := (radixOf_eq_some hr).1
    obtain ⟨t, hexec, htext⟩ := writesOutput_ifmt rs1 s hr
    exact ⟨t, _, hexec, htext, List.length_pos_iff.mpr (integerText_ne_nil h2 _), length_integerText_le h2 _⟩

end Sys2Proof.Proofs
end

section
/-! PROOFS. The two ends of a command, success and a cause of the table of 60_exceptions.md R321; the completion of a word that
spells no command; and the interrupt line after each event that changes one of its terms. -/

namespace Sys2Proof.Machine

/-! ### The causes and who raises them (60_exceptions.md R321) -/

/-- The column "raised by" of the table of R321, one constructor per command and cause; no command raises ILLEGAL. -/
inductive RaisedBy : Cause → Instr → Prop
  | div (rd rs1 rs2 : RegNo) : RaisedBy .divByZero (.div rd rs1 rs2)
  | mod (rd rs1 rs2 : RegNo) : RaisedBy .divByZero (.mod rd rs1 rs2)
  | iparseFormat (rd : RegNo) (imm6 : BitVec 6) (uf : Bool) : RaisedBy .format (.iparse rd imm6 uf)
  | iparseRadix (rd : RegNo) (imm6 : BitVec 6) (uf : Bool) : RaisedBy .radix (.iparse rd imm6 uf)
  | ifmt (rs1 : RegNo) (imm6 : BitVec 6) : RaisedBy .radix (.ifmt rs1 imm6)
  | dparseFormat (rd : RegNo) : RaisedBy .format (.dparse rd)
  | dparseOverflow (rd : RegNo) : RaisedBy .overflow (.dparse rd)
  | dparseInexact (rd : RegNo) : RaisedBy .inexact (.dparse rd)
  | dparseUnderflow (rd : RegNo) : RaisedBy .underflow (.dparse rd)
  | dparserFormat (rd : RegNo) : RaisedBy .format (.dparser rd)
  | dparserOverflow (rd : RegNo) : RaisedBy .overflow (.dparser rd)

/-- A command raises no NONE: an error has a cause. -/
theorem RaisedBy.ne_none {c : Cause} {i : Instr} (h : RaisedBy c i) : c ≠ .none := by
  cases h <;> decide

/-- What integer parsing fails with, IPARSE raises (44_int_convert.md R223). -/
theorem raisedBy_iparse {imm6 : BitVec 6} {t : List Byte} {c : Cause} (rd : RegNo) (uf : Bool)
    (h : parseInteger imm6 t = .fails c) : RaisedBy c (.iparse rd imm6 uf) := by
  obtain rfl | rfl := parseInteger_fails h
  exacts [.iparseFormat .., .iparseRadix ..]

/-- What parsing by DPARSE's rule fails with, DPARSE raises (45_decimal_parse.md R260). -/
theorem raisedBy_dparse {t : List Byte} {c : Cause} (rd : RegNo) (h : parseDecimal strictNumeric t = .fails c) :
    RaisedBy c (.dparse rd) := by
  obtain rfl | ⟨neg, d, hrule⟩ := parseDecimal_fails h
  · exact .dparseFormat rd
  · obtain rfl | rfl | rfl := strictNumeric_fails hrule
    exacts [.dparseOverflow rd, .dparseInexact rd, .dparseUnderflow rd]

/-- What parsing by DPARSER's rule fails with, DPARSER raises (45_decimal_parse.md R261). -/
theorem raisedBy_dparser {t : List Byte} {c : Cause} (rd : RegNo) (h : parseDecimal roundingNumeric t = .fails c) :
    RaisedBy c (.dparser rd) := by
  obtain rfl | ⟨neg, d, hrule⟩ := parseDecimal_fails h
  · exact .dparserFormat rd
  · obtain rfl := roundingNumeric_fails hrule
    exact .dparserOverflow rd

/-- STATUS shows the code of its cause in bits [11:8] (10_state.md R43): the flags stand below them, and nothing above. -/
theorem Status.cause_of_word (t : Status) : t.word.extractLsb' 8 4 = t.cause.code := by
  have hbusy := t.busy.toNat_lt
  have hdone := t.done.toNat_lt
  have herr := t.err.toNat_lt
  have hcoll := t.coll.toNat_lt
  have hcode := t.cause.code.isLt
  apply BitVec.eq_of_toNat_eq
  rw [BitVec.extractLsb'_toNat, Status.toNat_word, Nat.shiftRight_eq_div_pow]
  omega

/-! ### The two ends of a command (60_exceptions.md R320) -/

/-- A command succeeds in a state that differs from `s` in results alone, or raises a cause of its own in `s` as it is
(60_exceptions.md R320, R322). -/
def EndsByTable (i : Instr) (s : State) : Prop :=
  (∃ regs tb tlen, exec i s = succeed { s with regs := regs, tb := tb, tlen := tlen }) ∨
    ∃ c, RaisedBy c i ∧ exec i s = raise c s

/-- A command that ends with a decimal parse ends by the table where the parse fails by it. -/
theorem endsByTable_of_parse {i : Instr} {rd : RegNo} {s : State} {parsed : Parsed Quad}
    (hexec : exec i s = finishParse rd s parsed) (hfails : ∀ c, parsed = .fails c → RaisedBy c i) : EndsByTable i s := by
  cases parsed with
  | value q => exact .inl ⟨_, _, _, hexec⟩
  | fails c => exact .inr ⟨c, hfails c rfl, hexec⟩

/-- Every command ends by the table, in every state. -/
theorem endsByTable (i : Instr) (s : State) : EndsByTable i s := by
  cases i with
  | add _ _ _ | sub _ _ _ | mul _ _ _ | neg _ _ | mulwu _ _ _ | divq9 _ _ | shl _ _ _ | shr _ _ _ | shru _ _ _
  | shli _ _ _ | shri _ _ _ | shrui _ _ _ | cmp _ _ _ | cmpu _ _ _ | eq _ _ _ | cvtf _ _ _ | dfmt _ =>
    exact .inl ⟨_, _, _, rfl⟩
  | div rd rs1 rs2 =>
    by_cases hzero : (s.x rs2).v = 0#64
    · exact .inr ⟨_, .div .., exec_div_zero rd rs1 hzero⟩
    · exact .inl ⟨_, _, _, exec_div_nonzero rd rs1 hzero⟩
  | mod rd rs1 rs2 =>
    by_cases hzero : (s.x rs2).v = 0#64
    · exact .inr ⟨_, .mod .., exec_mod_zero rd rs1 hzero⟩
    · exact .inl ⟨_, _, _, exec_mod_nonzero rd rs1 hzero⟩
  | iparse rd imm6 uf =>
    cases hparse : parseInteger imm6 s.text with
    | value v => exact .inl ⟨_, _, _, exec_iparse_of_value rd uf hparse⟩
    | fails c => exact .inr ⟨c, raisedBy_iparse rd uf hparse, exec_iparse_of_fails rd uf hparse⟩
  | ifmt rs1 imm6 =>
    cases hradix : radixOf imm6 with
    | none => exact .inr ⟨_, .ifmt .., exec_ifmt_of_no_radix rs1 s hradix⟩
    | some r => exact .inl ⟨_, _, _, exec_ifmt_of_radix rs1 s hradix⟩
  | dparse rd => exact endsByTable_of_parse (exec_dparse rd s) fun _ => raisedBy_dparse rd
  | dparser rd => exact endsByTable_of_parse (exec_dparser rd s) fun _ => raisedBy_dparser rd

/-- The cause a command leaves is NONE or one that the command raises. -/
theorem cause_of_exec {i : Instr} {s t : State} (h : exec i s = .next t) :
    t.status.cause = .none ∨ RaisedBy t.status.cause i := by
  obtain ⟨regs, tb, tlen, hexec⟩ | ⟨c, hraised, hexec⟩ := endsByTable i s
  · obtain rfl := (succeed_eq_next _ _).mp (hexec.symm.trans h)
    exact .inl rfl
  · obtain rfl := (raise_eq_next _ _ _).mp (hexec.symm.trans h)
    exact .inr hraised

/-- A command leaves STATUS completed with the cause it shows, and CTRL as it was. -/
theorem completed_of_exec {i : Instr} {s t : State} (h : exec i s = .next t) :
    Completed t.status.cause s t ∧ t.ctrl = s.ctrl := by
  obtain ⟨regs, c, rfl⟩ | ⟨out, -, rfl⟩ := exec_next h
  all_goals exact ⟨completed_finish s _ _ rfl, rfl⟩

/-! ### A word that spells no command (60_exceptions.md R323) -/

/-- A word that meets no row of the opcode map is rejected (30_encoding.md R95). -/
theorem exists_decode_rejected {w : BusWord} (h : ∀ r ∈ opcodeRows, w &&& r.mask ≠ r.matchWord) :
    ∃ e, decode w = .rejected e := by
  cases hdecode : decode w with
  | command i =>
    obtain ⟨r, hr, hmatch, -⟩ := (decode_eq_command_iff w i).mp hdecode
    exact absurd hmatch (h r hr)
  | rejected e => exact ⟨e, rfl⟩

/-- The word in flight that meets no row completes with ILLEGAL. -/
theorem completion_illegal {s : State} (hbusy : s.status.busy = true)
    (h : ∀ r ∈ opcodeRows, s.cmd &&& r.mask ≠ r.matchWord) : completion s = .next (s.finish .illegal) := by
  obtain ⟨e, hdecode⟩ := exists_decode_rejected h
  simp only [completion, hbusy, if_true, runCommand, State.fetch, hdecode, raise]

/-! ### The interrupt line (60_exceptions.md R331) -/

/-- IRQ after a completion: DONE is 1, and ERR is kept or set. -/
theorem Completed.irq {c : Cause} {s t : State} (h : Completed c s t) (hctrl : t.ctrl = s.ctrl) :
    t.irq = (s.ctrl.ieDone || (s.ctrl.ieErr && (s.status.err || decide (c ≠ .none)))) := by
  rw [State.irq, hctrl, h.done, h.err, Bool.and_true]

/-- IRQ after an acknowledgement in STATUS (10_state.md R44). -/
theorem irq_write_status (s : State) (w : BusWord) :
    (writeRegWord s w .status).irq =
      ((s.ctrl.ieDone && s.status.done && !w.getLsbD 1) || (s.ctrl.ieErr && s.status.err && !w.getLsbD 2)) := by
  simp only [writeRegWord, State.irq, Status.clear_done, Status.clear_err, Bool.and_assoc]

/-- IRQ after a write of the enables (10_state.md R42). -/
theorem irq_write_ctrl (s : State) (w : BusWord) :
    (writeRegWord s w .ctrl).irq = ((w.getLsbD 0 && s.status.done) || (w.getLsbD 1 && s.status.err)) := rfl

/-- IRQ after an acceptance, which clears DONE's term (10_state.md R45). -/
theorem irq_write_cmd (s : State) (w : BusWord) : (writeRegWord s w .cmd).irq = (s.ctrl.ieErr && s.status.err) := by
  simp only [writeRegWord, State.irq, State.acceptCommand_ctrl, State.acceptCommand_status, Status.accept_done,
    Status.accept_err, Bool.and_false, Bool.false_or]

/-- A step that takes a word write at the offset of a register word leaves IRQ as the write of that word does, where BUSY does not
drop it: neither the schedule nor the response is a term of IRQ. -/
theorem step_write_irq {s u : State} {p : RegWord} {off : Nat} {w : BusWord} (hnext : Claims.Next s (.write off (.b32 w)) u)
    (hp : p.offset = some off) (hkept : (s.status.busy && busyDrop p) = false) :
    ∃ t, step s = .next t ∧ t.irq = (writeRegWord s w p).irq := by
  have hstep := step_of_next hnext
  obtain ⟨rest, -, rfl⟩ := hnext
  obtain ⟨hreg, halign⟩ := RegWord.offset_aligned hp
  obtain rfl := regWordAt_of_offset hp
  refine ⟨_, hstep.trans (hostWrite_regWord w hreg halign hkept), ?_⟩
  simp only [State.irq, writeRegWord_ctrl, writeRegWord_status]

end Sys2Proof.Machine

namespace Sys2Proof.Proofs
open Sys2Proof.Machine Sys2Proof.Claims

/-- Settles O7: a word that meets no row is rejected by the decoder, and the completion of a rejected word raises ILLEGAL. -/
theorem illegalWordRaisesIllegal : Obligations.IllegalWordRaisesIllegal := by
  refine ⟨fun s hbusy hempty hnone => ?lastEvent, fun s u hbusy hnext hnone => ?complete⟩
  case lastEvent => exact ⟨_, (step_nil hempty).trans (completion_illegal hbusy hnone), raises_finish s .illegal⟩
  case complete =>
    have hstep := step_of_next hnext
    obtain ⟨rest, -, rfl⟩ := hnext
    exact ⟨_, hstep.trans (completion_illegal hbusy hnone), raises_finish _ .illegal⟩

/-- Settles O8: a success completes a state that has new results alone, and an error completes the state it found. -/
theorem commandEndsInSuccessOrPreciseError : Obligations.CommandEndsInSuccessOrPreciseError := by
  intro i s
  obtain ⟨regs, tb, tlen, hexec⟩ | ⟨c, hraised, hexec⟩ := endsByTable i s
  · exact ⟨_, hexec, rfl, rfl, rfl, rfl, rfl, rfl, .inl (completed_finish s _ _ rfl)⟩
  · exact ⟨_, hexec, rfl, rfl, rfl, rfl, rfl, rfl, .inr ⟨c, hraised.ne_none, raises_finish s c⟩⟩

/-- Settles O9: the cause that a command leaves is NONE or stands in the table beside the command. -/
theorem causesComeFromTheirCommands : Obligations.CausesComeFromTheirCommands := by
  refine ⟨by decide, fun s => s.status.cause_of_word, fun i s t hexec => ?_⟩
  have hcause := cause_of_exec hexec
  generalize t.status.cause = c at hcause
  obtain rfl | hraised := hcause
  · exact ⟨nofun, nofun, nofun, nofun, nofun, nofun, nofun⟩
  · refine ⟨?illegal, ?divByZero, ?format, ?radix, ?overflow, ?inexact, ?underflow⟩
    all_goals rintro rfl
    case illegal => cases hraised
    case divByZero =>
      cases hraised with
      | div a b c => exact ⟨a, b, c, .inl rfl⟩
      | mod a b c => exact ⟨a, b, c, .inr rfl⟩
    case format =>
      cases hraised with
      | iparseFormat a b c => exact ⟨a, b, c, .inl rfl⟩
      | dparseFormat a => exact ⟨a, 0, false, .inr (.inl rfl)⟩
      | dparserFormat a => exact ⟨a, 0, false, .inr (.inr rfl)⟩
    case radix =>
      cases hraised with
      | iparseRadix a b c => exact ⟨a, b, c, 0, .inl rfl⟩
      | ifmt d b => exact ⟨0, b, false, d, .inr rfl⟩
    case overflow =>
      cases hraised with
      | dparseOverflow a => exact ⟨a, .inl rfl⟩
      | dparserOverflow a => exact ⟨a, .inr rfl⟩
    case inexact => cases hraised with | dparseInexact a => exact ⟨a, rfl⟩
    case underflow => cases hraised with | dparseUnderflow a => exact ⟨a, rfl⟩

/-- Settles O55: each event changes the terms of IRQ that its word of the map holds, and BUSY drops a write of none of them but
CMD. -/
theorem interruptLineFollowsDoneAndErr : Obligations.InterruptLineFollowsDoneAndErr := by
  refine ⟨fun s => ?formula, fun i s t hexec => ?completed, fun s u w hnext => ?acknowledged, fun s u w hnext => ?enabled,
    fun s u w hnext hidle => ?accepted, rfl⟩
  case formula => simp only [State.irq, Bool.or_eq_true, Bool.and_eq_true]
  case completed =>
    obtain ⟨hcompleted, hctrl⟩ := completed_of_exec hexec
    exact hcompleted.irq hctrl
  case acknowledged =>
    obtain ⟨t, hstep, hirq⟩ := step_write_irq (p := .status) hnext rfl (Bool.and_false _)
    exact ⟨t, hstep, hirq.trans (irq_write_status s w)⟩
  case enabled =>
    obtain ⟨t, hstep, hirq⟩ := step_write_irq (p := .ctrl) hnext rfl (Bool.and_false _)
    exact ⟨t, hstep, hirq.trans (irq_write_ctrl s w)⟩
  case accepted =>
    obtain ⟨t, hstep, hirq⟩ := step_write_irq (p := .cmd) hnext rfl (by rw [hidle, Bool.false_and])
    exact ⟨t, hstep, hirq.trans (irq_write_cmd s w)⟩

end Sys2Proof.Proofs
end

section
/-! PROOFS. How a busy period ends: the completion of the word in flight, with or without a STATUS write in the same step, or a
platform reset; what a reset leaves; and that a schedule runs out. -/

namespace Sys2Proof.Machine

/-! ### The completion of the word in flight (70_reset_and_hazards.md R365) -/

/-- A word that spells a command completes as that command. -/
theorem completion_of_decode {s : State} {i : Instr} (hbusy : s.status.busy = true) (hdecode : decode s.cmd = .command i) :
    completion s = exec i s := by
  rw [completion, if_pos hbusy, runCommand, State.fetch, hdecode]

/-- The same where the event that ends the busy period has been taken off the schedule. -/
theorem completion_of_next {s u : State} {e : Event} {i : Instr} (hnext : Claims.Next s e u) (hbusy : s.status.busy = true)
    (hdecode : decode s.cmd = .command i) : completion u = exec i u := by
  obtain ⟨rest, -, rfl⟩ := hnext
  exact completion_of_decode hbusy hdecode

/-- A word that the decoder rejects completes with ILLEGAL (60_exceptions.md R323). -/
theorem completion_of_rejected {s : State} {e : DecodeError} (hbusy : s.status.busy = true)
    (hdecode : decode s.cmd = .rejected e) : completion s = .next (s.finish .illegal) := by
  rw [completion, if_pos hbusy, runCommand, State.fetch, hdecode, raise]

/-- Without a command in flight a completion does nothing (10_state.md R48). -/
theorem completion_of_idle {s : State} (hidle : s.status.busy = false) : completion s = .next s := by
  rw [completion, hidle, if_neg Bool.false_ne_true]

/-- A STATUS write in the same step sees the state that the completion left (10_state.md R44). -/
theorem deliver_completeWithStatusWrite {s t : State} (w : BusWord) (h : completion s = .next t) :
    deliver (.completeWithStatusWrite w) s = .next (statusWrite w t) := by
  rw [deliver, h, andThen]

/-- Every command ends, and then the unit is idle (60_exceptions.md R320). -/
theorem exists_exec_idle (i : Instr) (s : State) : ∃ t, exec i s = .next t ∧ t.status.busy = false := by
  obtain ⟨regs, tb, tlen, hexec⟩ | ⟨c, -, hexec⟩ := endsByTable i s
  · exact ⟨_, hexec, rfl⟩
  · exact ⟨_, hexec, rfl⟩

/-- Every completion ends with the unit idle: by the command, with ILLEGAL, or because it was idle before. -/
theorem exists_completion_idle (s : State) : ∃ t, completion s = .next t ∧ t.status.busy = false := by
  cases hbusy : s.status.busy with
  | false => exact ⟨s, completion_of_idle hbusy, hbusy⟩
  | true =>
    cases hdecode : decode s.cmd with
    | command i =>
      rw [completion_of_decode hbusy hdecode]
      exact exists_exec_idle i s
    | rejected e => exact ⟨_, completion_of_rejected hbusy hdecode, rfl⟩

/-! ### Platform reset (70_reset_and_hazards.md R361, 10_state.md R52) -/

/-- After reset every register is {0, 0}. -/
@[simp] theorem State.x_reset (r : RegNo) : State.reset.x r = ⟨0#64, false⟩ := by
  rw [State.x]
  exact Vector.getElem_replicate r.isLt

/-- A platform reset leaves the registers as the reset state has them. -/
@[simp] theorem State.x_platformReset (s : State) (r : RegNo) : s.platformReset.x r = ⟨0#64, false⟩ := State.x_reset r

/-- A platform reset draws TB anew, with the number of the next reset (log 3). -/
@[simp] theorem State.tbByte_platformReset (s : State) (k : Nat) :
    s.platformReset.tbByte k = Config.tbReset (s.epoch + 1) k := rfl

/-- The reset state meets the invariant: TB is empty, TLEN is 0 and no command is in flight. -/
theorem State.inv_reset : State.reset.Inv := ⟨rfl, Nat.zero_le _, fun _ => rfl⟩

/-! ### The schedule runs out (70_reset_and_hazards.md R370) -/

/-- A write that takes effect leaves the schedule. -/
@[simp] theorem writeData_env (s : State) (off : Nat) (d : BusData) : (writeData s off d).env = s.env := by
  unfold writeData
  split
  · cases d with
    | b32 w => exact writeRegWord_env s w _
    | b16 _ | b8 _ => rfl
  · rfl

/-- A host read leaves the schedule. -/
theorem hostRead_env {off : Nat} {width : Width} {s t : State} (h : hostRead off width s = .next t) : t.env = s.env := by
  obtain ⟨-, r, n, rfl⟩ := hostRead_next h
  rfl

/-- A host write leaves the schedule, whether it is refused, dropped or takes effect. -/
theorem hostWrite_env {off : Nat} {d : BusData} {s t : State} (h : hostWrite off d s = .next t) : t.env = s.env := by
  obtain ⟨-, ⟨-, rfl⟩ | ⟨-, -, -, rfl⟩ | ⟨-, -, rfl⟩⟩ := hostWrite_next h
  · rfl
  · rfl
  · exact writeData_env s off d

/-- An event of a schedule inside the window ends the busy period, or it was a host access that leaves the command in flight and
the events after it. -/
theorem deliver_ends_or_keeps_busy {e : Event} {s : State} (hbusy : s.status.busy = true) (hwin : Claims.InWindow e) :
    ∃ t, deliver e s = .next t ∧ (t.status.busy = false ∨ (t.status.busy = true ∧ t.env = s.env)) := by
  cases e with
  | read off width =>
    obtain ⟨t, ht⟩ := exists_hostRead hwin width s
    exact ⟨t, ht, .inr ⟨(sameOperands_of_hostRead ht).busy.trans hbusy, hostRead_env ht⟩⟩
  | write off d =>
    obtain ⟨t, ht⟩ := exists_hostWrite hwin d s
    exact ⟨t, ht, .inr ⟨(sameOperands_of_hostWrite hbusy ht).busy.trans hbusy, hostWrite_env ht⟩⟩
  | complete =>
    obtain ⟨t, ht, hidle⟩ := exists_completion_idle s
    exact ⟨t, ht, .inl hidle⟩
  | completeWithStatusWrite w =>
    obtain ⟨t, ht, hidle⟩ := exists_completion_idle s
    exact ⟨_, deliver_completeWithStatusWrite w ht, .inl hidle⟩
  | reset => exact ⟨_, rfl, .inl rfl⟩

/-- A run of one step more begins with the step. -/
theorem run_succ_of_step {s t : State} (h : step s = .next t) (n : Nat) : core.run (n + 1) s = core.run n t := by
  have hcore : core.step s = .next t := h
  simp only [Host.Core.run, hcore]

/-- A busy period ends at an event of the schedule, or by the completion that follows the last one. -/
theorem exists_run_idle {env : List Event} {s : State} (henv : s.env = env) (hbusy : s.status.busy = true)
    (hwin : ∀ e ∈ env, Claims.InWindow e) :
    ∃ n t, n ≤ env.length ∧ core.run (n + 1) s = .next t ∧ t.status.busy = false := by
  induction env generalizing s with
  | nil =>
    obtain ⟨t, hdone, hidle⟩ := exists_completion_idle s
    exact ⟨0, t, Nat.le_refl 0, run_succ_of_step ((step_nil henv).trans hdone) 0, hidle⟩
  | cons e rest ih =>
    obtain ⟨he, hrest⟩ := List.forall_mem_cons.mp hwin
    obtain ⟨u, hdeliver, hidle | ⟨hstill, hleft⟩⟩ := deliver_ends_or_keeps_busy (s := { s with env := rest }) hbusy he
    · exact ⟨0, u, Nat.zero_le _, run_succ_of_step ((step_cons henv).trans hdeliver) 0, hidle⟩
    · obtain ⟨n, t, hn, hrun, hidle⟩ := ih hleft hstill hrest
      exact ⟨n + 1, t, Nat.succ_le_succ hn, (run_succ_of_step ((step_cons henv).trans hdeliver) (n + 1)).trans hrun, hidle⟩

end Sys2Proof.Machine

namespace Sys2Proof.Proofs
open Sys2Proof.Machine Sys2Proof.Claims

/-- Settles O10, by induction on the schedule: a host access leaves one event less, and every other event ends the busy period. -/
theorem busyPeriodEnds : Obligations.BusyPeriodEnds := by
  intro s hbusy hwin
  obtain ⟨n, t, hn, hrun, hidle⟩ := exists_run_idle rfl hbusy hwin
  exact ⟨n + 1, t, Nat.le_add_left 1 n, Nat.succ_le_succ hn, hrun, hidle⟩

/-- Settles O56: the fields are those of the reset state, whose BUSY = 0 lets the read of ID through. -/
theorem resetClearsTheUnit : Obligations.ResetClearsTheUnit := by
  intro s u hnext
  refine ⟨u.platformReset, step_of_next hnext, u.x_platformReset, rfl, rfl, rfl, rfl, rfl, rfl, rfl, fun v hread => ?id⟩
  case id =>
    obtain ⟨t, w, hstep, hresponse, hid, -⟩ := idleReadsFollowTheMap _ v 0x000 hread rfl (by decide) rfl
    exact ⟨t, hstep, hid rfl ▸ hresponse⟩

/-- Settles O6: each of the events is a completion, and the completion of a word that spells a command is that command. -/
theorem stepRunsDecodedCommand : Obligations.StepRunsDecodedCommand := by
  refine ⟨fun s i hbusy hdecode hempty => ?lastEvent, fun s u i hbusy hdecode hnext => ?complete,
    fun s u t i w hbusy hdecode hnext hexec => ?withWrite, fun s hidle hempty => ?idle⟩
  case lastEvent => exact (step_nil hempty).trans (completion_of_decode hbusy hdecode)
  case complete => exact (step_of_next hnext).trans (completion_of_next hnext hbusy hdecode)
  case withWrite =>
    have hdone := (completion_of_next hnext hbusy hdecode).trans hexec
    exact (step_of_next hnext).trans (deliver_completeWithStatusWrite w hdone)
  case idle => exact (step_nil hempty).trans (completion_of_idle hidle)

/-- Settles O57: both resets leave the fields of `State.reset`, and differ in the number of the draw that TB holds. -/
theorem resetIsCleanAndKeepsInvariant : Obligations.ResetIsCleanAndKeepsInvariant := by
  refine ⟨State.inv_reset, rfl, rfl, State.x_reset, rfl, rfl, fun _ => rfl, fun s u hnext => ?platform⟩
  have hstep := step_of_next hnext
  obtain ⟨rest, -, rfl⟩ := hnext
  exact ⟨_, hstep, State.inv_platformReset _, State.tbByte_platformReset _⟩

end Sys2Proof.Proofs
end
